-- ==== Sys2Proof/Word.lean ====
section
/-!
DEFINITION. The bit-vector types of ETHDMA (`spec/00_scope.md` R10): bytes, halfwords, words and
guest-physical addresses. Every quantity of the hardware is unsigned.
-/

namespace Sys2Proof

/-- One byte of the window, of a descriptor, of guest memory or of a frame. -/
abbrev Byte := BitVec 8

/-- A halfword (`00_scope.md` R10): 16 bits. Ring capacities and indexes have this width (R9, `CAP_BITS`). -/
abbrev Half := BitVec 16

/-- A word (`00_scope.md` R10): 32 bits, the width of a window register and of a descriptor word. -/
abbrev Word := BitVec 32

/-- A guest-physical address (`00_scope.md` R9, `GPA_BITS`): 64 bits. -/
abbrev Addr := BitVec 64

end Sys2Proof
end

