-- ==== Sys2Proof/Config.lean ====
section
/-!
DEFINITION. The implementation parameters of `spec/00_scope.md` R9. The rows marked *parameter* there are
the fields of `Config`, which State carries and no step changes; the rows marked *fixed* are the widths of
the types and the constants below.
-/

namespace Sys2Proof

/-- The rows of `00_scope.md` R9 marked *parameter*, with the defaults R9 gives. -/
structure Config where
  /-- `MAX_FRAME`: capacity of the pending frame; largest TX frame and largest RX frame plus tail. -/
  maxFrame : Nat := 65536
  /-- `ID_VALUE`: what the `ID` register reads (`10_state.md` R31). -/
  idValue : Word := 0x45444D41
  /-- `MAC_RESET`, octets 0 to 3, as `MAC_LO` holds them (`10_state.md` R45). -/
  macResetLo : Word := 0
  /-- `MAC_RESET`, octets 4 and 5, as `MAC_HI` holds them. -/
  macResetHi : Half := 0
deriving DecidableEq, Repr

/-- The parameters at the defaults of `00_scope.md` R9. -/
def Config.default : Config := {}

/-- `DESC_STRIDE` (`00_scope.md` R9): bytes of one descriptor, and the distance between ring slots. -/
def descStride : Nat := 32

/-- `WINDOW_SIZE` (`00_scope.md` R9): bytes of the register window. -/
def windowSize : Nat := 256

end Sys2Proof
end

