-- ==== Sys2Proof/Syntax.lean ====
section
/-!
DEFINITION. What ETHDMA decodes (`spec/30_encoding.md` R100, R119): the five formats and the 29 rows of
`opcode_table.json`, one constructor of `Instr` per row. The bits a row fixes are the constructor; every
other bit of the encoding is an operand, reserved and stale status bits among them, because a writeback
returns some of them unchanged (R103, R107).
-/

namespace Sys2Proof

/-- The formats of `30_encoding.md` R100, with `REGR` of R119. -/
inductive Format where
  /-- A TX descriptor, fetched from the TX ring. -/
  | txd
  /-- An RX descriptor, fetched from the RX ring. -/
  | rxd
  /-- The 16-bit command word of the `CMD` register. -/
  | cmd16
  /-- One byte lane of a register write. -/
  | regw
  /-- A register read. -/
  | regr
deriving DecidableEq, Repr

/-- The sizes of a register access (`20_memory.md` R71): 1, 2 or 4 bytes. -/
inductive AccessSize where
  | one
  | two
  | four
deriving DecidableEq, Repr

/-- The number of bytes of an access size. -/
def AccessSize.bytes : AccessSize → Nat
  | .one => 1
  | .two => 2
  | .four => 4

/-- The operand fields of a TX descriptor, word by word (`30_encoding.md` R101): all of its bits but `OWN`,
`IPCS`, `L4CS` and `TSO`, which select the row. -/
structure TxFields where
  /-- `EOR`: the next index after this descriptor is 0. -/
  eor : Bool := false
  /-- `FS`: first segment of a frame (chained mode only). -/
  fs : Bool := false
  /-- `LS`: last segment of a frame (chained mode only). -/
  ls : Bool := false
  /-- `IRQ`: per-descriptor interrupt request. -/
  irq : Bool := false
  /-- `VLAN`: insert the tag in `tci`. -/
  vlan : Bool := false
  /-- `DONE` as fetched; ignored (R102). -/
  done : Bool := false
  /-- `ERR` as fetched; ignored (R102). -/
  err : Bool := false
  /-- `OVERSIZE` as fetched; ignored (R102). -/
  oversize : Bool := false
  /-- `BADOFL` as fetched; ignored (R102). -/
  badOfl : Bool := false
  /-- `SEQERR` as fetched; ignored (R102). -/
  seqErr : Bool := false
  /-- Reserved bits 17:16 of word 0, written back unchanged (R103). -/
  rsvd : BitVec 2 := 0
  /-- `LEN`: number of bytes in the buffer. -/
  len : Half := 0
  /-- `TCI`: VLAN tag control information. -/
  tci : Half := 0
  /-- `MSS`: TSO payload bytes per segment. -/
  mss : Half := 0
  /-- `BUF`: the buffer's guest-physical address. -/
  buf : Addr := 0
  /-- `IPSTART`: frame offset of the IP header. -/
  ipStart : Byte := 0
  /-- `IPCSO`: frame offset where the IP header checksum is stored. -/
  ipCso : Byte := 0
  /-- `L4START`: frame offset of the TCP/UDP header. -/
  l4Start : Byte := 0
  /-- `L4CSO`: frame offset where the TCP/UDP checksum is stored. -/
  l4Cso : Byte := 0
  /-- `HDRLEN`: length of the TSO template header. -/
  hdrLen : Byte := 0
  /-- Reserved bits 31:8 of word 5. -/
  w5Rsvd : BitVec 24 := 0
  /-- Word 6, reserved. -/
  w6 : Word := 0
  /-- Word 7, reserved. -/
  w7 : Word := 0
deriving DecidableEq, Repr

/-- The operand fields of an RX descriptor (`30_encoding.md` R106): all of its bits but `OWN`, which selects
the row. -/
structure RxFields where
  /-- `EOR`: the next index after this descriptor is 0. -/
  eor : Bool := false
  /-- `FS` as fetched; ignored (R107). -/
  fs : Bool := false
  /-- `LS` as fetched; ignored (R107). -/
  ls : Bool := false
  /-- Reserved bits 27:24 of word 0, written back unchanged (R107). -/
  rsvdHi : BitVec 4 := 0
  /-- `VLAN` as fetched; ignored (R107). -/
  vlan : Bool := false
  /-- `DONE` as fetched; ignored (R107). -/
  done : Bool := false
  /-- `ERR` as fetched; ignored (R107). -/
  err : Bool := false
  /-- `OVERSIZE` as fetched; ignored (R107). -/
  oversize : Bool := false
  /-- Reserved bits 19:18 of word 0, written back unchanged (R107). -/
  rsvdLo : BitVec 2 := 0
  /-- `MATCH` as fetched; ignored (R107). -/
  matchType : BitVec 2 := 0
  /-- `LEN`: on fetch, the size of the buffer. -/
  len : Half := 0
  /-- Word 1, reserved. -/
  w1 : Word := 0
  /-- `BUF`: the buffer's guest-physical address. -/
  buf : Addr := 0
  /-- Word 4, reserved. -/
  w4 : Word := 0
  /-- Word 5, reserved. -/
  w5 : Word := 0
  /-- Word 6, reserved. -/
  w6 : Word := 0
  /-- Word 7, reserved. -/
  w7 : Word := 0
deriving DecidableEq, Repr

/-- One constructor per row of `opcode_table.json` (`30_encoding.md` R119). A `REGW` row carries the part of
the byte offset that its row leaves free (`lane`) and the byte written. -/
inductive Instr where
  /-- `TXD.HOST`: `OWN = 0`. -/
  | txdHost (ipcs l4cs tso : Bool) (d : TxFields)
  /-- `TXD.SEND`: `OWN = 1`, no checksum or segmentation request. -/
  | txdSend (d : TxFields)
  /-- `TXD.IPCS`: `OWN = 1`, IP header checksum. -/
  | txdIpcs (d : TxFields)
  /-- `TXD.L4CS`: `OWN = 1`, TCP/UDP checksum. -/
  | txdL4cs (d : TxFields)
  /-- `TXD.IPL4CS`: `OWN = 1`, both checksums. -/
  | txdIpl4cs (d : TxFields)
  /-- `TXD.TSO`: `OWN = 1`, segmentation; `IPCS` and `L4CS` are free and not consulted (`42_offload.md` R210). -/
  | txdTso (ipcs l4cs : Bool) (d : TxFields)
  /-- `RXD.HOST`: `OWN = 0`. -/
  | rxdHost (d : RxFields)
  /-- `RXD.FREE`: `OWN = 1`. -/
  | rxdFree (d : RxFields)
  /-- `SOFT_RESET`, opcode 0x01. -/
  | softReset (arg : Byte)
  /-- `HARD_RESET`, opcode 0x02. -/
  | hardReset (arg : Byte)
  /-- `LOAD_TX_RING`, opcode 0x10. -/
  | loadTxRing (arg : Byte)
  /-- `LOAD_RX_RING`, opcode 0x11. -/
  | loadRxRing (arg : Byte)
  /-- `CMD.RESERVED`, every other opcode. -/
  | cmdReserved (op arg : Byte)
  /-- `CTRL.W`, lanes 0x04 to 0x07. -/
  | ctrlW (lane : BitVec 2) (v : Byte)
  /-- `CMD.STORE`, lane 0x08. -/
  | cmdStore (v : Byte)
  /-- `CMD.X`, lane 0x09. -/
  | cmdX (v : Byte)
  /-- `ICAUSE.ACK`, lanes 0x10 to 0x13. -/
  | icauseAck (lane : BitVec 2) (v : Byte)
  /-- `IMASK.W`, lanes 0x14 to 0x17. -/
  | imaskW (lane : BitVec 2) (v : Byte)
  /-- `RING.STAGE.TX_BASE`, lanes 0x20 to 0x27. -/
  | ringStageTxBase (lane : BitVec 3) (v : Byte)
  /-- `RING.STAGE.TX_LEN`, lanes 0x28 to 0x2B. -/
  | ringStageTxLen (lane : BitVec 2) (v : Byte)
  /-- `RING.STAGE.RX_BASE`, lanes 0x30 to 0x37. -/
  | ringStageRxBase (lane : BitVec 3) (v : Byte)
  /-- `RING.STAGE.RX_LEN`, lanes 0x38 to 0x3B. -/
  | ringStageRxLen (lane : BitVec 2) (v : Byte)
  /-- `TX_DB.W`, lane 0x40. -/
  | txDbW (v : Byte)
  /-- `RX_DB.W`, lane 0x44. -/
  | rxDbW (v : Byte)
  /-- `FILTER.W.MAC`, lanes 0x48 to 0x4F. -/
  | filterWMac (lane : BitVec 3) (v : Byte)
  /-- `FILTER.W.MHASH`, lanes 0x50 to 0x57. -/
  | filterWMhash (lane : BitVec 3) (v : Byte)
  /-- `FILTER.W.RX_FILTER`, lanes 0x58 to 0x5B. -/
  | filterWRxFilter (lane : BitVec 2) (v : Byte)
  /-- `REGW.NONE`, every other lane. -/
  | regwNone (off : Byte) (v : Byte)
  /-- `REG.R`, a register read at any offset. -/
  | regR (off : Byte) (n : AccessSize)
deriving DecidableEq, Repr

/-- The format an instruction belongs to (`30_encoding.md` R119). -/
def Instr.format : Instr → Format
  | .txdHost _ _ _ _ | .txdSend _ | .txdIpcs _ | .txdL4cs _ | .txdIpl4cs _ | .txdTso _ _ _ => .txd
  | .rxdHost _ | .rxdFree _ => .rxd
  | .softReset _ | .hardReset _ | .loadTxRing _ | .loadRxRing _ | .cmdReserved _ _ => .cmd16
  | .ctrlW _ _ | .cmdStore _ | .cmdX _ | .icauseAck _ _ | .imaskW _ _ | .ringStageTxBase _ _
  | .ringStageTxLen _ _ | .ringStageRxBase _ _ | .ringStageRxLen _ _ | .txDbW _ | .rxDbW _
  | .filterWMac _ _ | .filterWMhash _ _ | .filterWRxFilter _ _ | .regwNone _ _ => .regw
  | .regR _ _ => .regr

end Sys2Proof
end

