-- ==== Sys2Proof/WellFormed.lean ====
section
/-!
DEFINITION. Which terms of `Instr` stand for an encoding. The two default rows of `spec/30_encoding.md` R119
(`CMD.RESERVED` and `REGW.NONE`) apply only when no other row of their format matches, so their free operand
must avoid the other rows' values; every other term is an encoding, because every value of every field is
legal (R115).
-/

namespace Sys2Proof

/-- The opcodes of `30_encoding.md` R111; every other opcode is reserved. -/
def definedOpcode (op : Byte) : Bool :=
  op == 0x01 || op == 0x02 || op == 0x10 || op == 0x11

/-- The lanes some row of `REGW` other than the default claims (`30_encoding.md` R112, R119). -/
def claimedLane (o : Byte) : Bool :=
  let n := o.toNat
  (0x04 ≤ n && n ≤ 0x09) || (0x10 ≤ n && n ≤ 0x17) || (0x20 ≤ n && n ≤ 0x2B) || (0x30 ≤ n && n ≤ 0x3B)
    || n == 0x40 || n == 0x44 || (0x48 ≤ n && n ≤ 0x5B)

/-- A term of `Instr` that some encoding decodes to. -/
def Instr.WellFormed : Instr → Bool
  | .cmdReserved op _ => !definedOpcode op
  | .regwNone off _ => !claimedLane off
  | .txdHost _ _ _ _ | .txdSend _ | .txdIpcs _ | .txdL4cs _ | .txdIpl4cs _ | .txdTso _ _ _
  | .rxdHost _ | .rxdFree _ | .softReset _ | .hardReset _ | .loadTxRing _ | .loadRxRing _
  | .ctrlW _ _ | .cmdStore _ | .cmdX _ | .icauseAck _ _ | .imaskW _ _ | .ringStageTxBase _ _
  | .ringStageTxLen _ _ | .ringStageRxBase _ _ | .ringStageRxLen _ _ | .txDbW _ | .rxDbW _
  | .filterWMac _ _ | .filterWMhash _ _ | .filterWRxFilter _ _ | .regR _ _ => true

end Sys2Proof
end

