-- ==== Sys2Proof/Decode.lean ====
section
/-!
DEFINITION. The decoder and the encoder of the five formats (`spec/30_encoding.md` R101, R106, R109, R111,
R112, R119), with the byte-order helpers the rest of the model shares (`spec/20_memory.md` R75, R76). The
decoder is total on any bytes: a byte string that is no encoding of its format is rejected by name.
-/

namespace Sys2Proof

/-! ## Byte order -/

/-- Byte `k` of a byte sequence, 0 beyond its end. -/
def byteAt (bs : List Byte) (k : Nat) : Byte := bs.getD k 0

/-- `LE32` of `00_scope.md` R10, at offset `k`. -/
def le32At (bs : List Byte) (k : Nat) : Word :=
  byteAt bs (k + 3) ++ byteAt bs (k + 2) ++ byteAt bs (k + 1) ++ byteAt bs k

/-- `le32` of `00_scope.md` R10: the four bytes of a word, least significant first. -/
def le32 (w : Word) : List Byte :=
  [w.extractLsb' 0 8, w.extractLsb' 8 8, w.extractLsb' 16 8, w.extractLsb' 24 8]

/-- The two bytes of a halfword, least significant first. -/
def le16 (h : Half) : List Byte := [h.extractLsb' 0 8, h.extractLsb' 8 8]

/-- The byte of lane `k` of a window register (`10_state.md` R30). -/
def laneOf (w : Word) (k : BitVec 2) : Byte := w.extractLsb' (8 * k.toNat) 8

/-- A 32-bit register with the byte of lane `k` replaced (`44_register_window.md` R292). -/
def setLane (w : Word) (k : BitVec 2) (v : Byte) : Word :=
  match k.toNat with
  | 0 => w.extractLsb' 8 24 ++ v
  | 1 => w.extractLsb' 16 16 ++ v ++ w.extractLsb' 0 8
  | 2 => w.extractLsb' 24 8 ++ v ++ w.extractLsb' 0 16
  | _ => v ++ w.extractLsb' 0 24

/-- A register whose implemented bits are 15:0, with the byte of lane `k` replaced; lanes 2 and 3 hold no
implemented bit and drop the byte (`44_register_window.md` R292). -/
def setLane16 (h : Half) (k : BitVec 2) (v : Byte) : Half :=
  match k.toNat with
  | 0 => h.extractLsb' 8 8 ++ v
  | 1 => v ++ h.extractLsb' 0 8
  | _ => h

/-- A 64-bit value from its high and its low word. -/
def wide (hi lo : Word) : Addr := hi ++ lo

/-! ## Descriptors -/

/-- Word 0 of a TX descriptor (`30_encoding.md` R101). -/
def txWord0 (own ipcs l4cs tso : Bool) (d : TxFields) : Word :=
  BitVec.ofBool own ++ BitVec.ofBool d.eor ++ BitVec.ofBool d.fs ++ BitVec.ofBool d.ls
    ++ BitVec.ofBool d.irq ++ BitVec.ofBool ipcs ++ BitVec.ofBool l4cs ++ BitVec.ofBool tso
    ++ BitVec.ofBool d.vlan ++ BitVec.ofBool d.done ++ BitVec.ofBool d.err ++ BitVec.ofBool d.oversize
    ++ BitVec.ofBool d.badOfl ++ BitVec.ofBool d.seqErr ++ d.rsvd ++ d.len

/-- Word 0 of an RX descriptor (`30_encoding.md` R106). -/
def rxWord0 (own : Bool) (d : RxFields) : Word :=
  BitVec.ofBool own ++ BitVec.ofBool d.eor ++ BitVec.ofBool d.fs ++ BitVec.ofBool d.ls ++ d.rsvdHi
    ++ BitVec.ofBool d.vlan ++ BitVec.ofBool d.done ++ BitVec.ofBool d.err ++ BitVec.ofBool d.oversize
    ++ d.rsvdLo ++ d.matchType ++ d.len

/-- The operands of a TX descriptor (`decodeTx` of `30_encoding.md` R109, operand assembly R104). -/
def decodeTxFields (bs : List Byte) : TxFields :=
  let w0 := le32At bs 0
  let w1 := le32At bs 4
  let w4 := le32At bs 16
  let w5 := le32At bs 20
  { eor := w0.getLsbD 30, fs := w0.getLsbD 29, ls := w0.getLsbD 28, irq := w0.getLsbD 27,
    vlan := w0.getLsbD 23, done := w0.getLsbD 22, err := w0.getLsbD 21, oversize := w0.getLsbD 20,
    badOfl := w0.getLsbD 19, seqErr := w0.getLsbD 18, rsvd := w0.extractLsb' 16 2,
    len := w0.extractLsb' 0 16, tci := w1.extractLsb' 0 16, mss := w1.extractLsb' 16 16,
    buf := wide (le32At bs 12) (le32At bs 8), ipStart := w4.extractLsb' 0 8, ipCso := w4.extractLsb' 8 8,
    l4Start := w4.extractLsb' 16 8, l4Cso := w4.extractLsb' 24 8, hdrLen := w5.extractLsb' 0 8,
    w5Rsvd := w5.extractLsb' 8 24, w6 := le32At bs 24, w7 := le32At bs 28 }

/-- The operands of an RX descriptor (`decodeRx` of `30_encoding.md` R109, operand assembly R108). -/
def decodeRxFields (bs : List Byte) : RxFields :=
  let w0 := le32At bs 0
  { eor := w0.getLsbD 30, fs := w0.getLsbD 29, ls := w0.getLsbD 28, rsvdHi := w0.extractLsb' 24 4,
    vlan := w0.getLsbD 23, done := w0.getLsbD 22, err := w0.getLsbD 21, oversize := w0.getLsbD 20,
    rsvdLo := w0.extractLsb' 18 2, matchType := w0.extractLsb' 16 2, len := w0.extractLsb' 0 16,
    w1 := le32At bs 4, buf := wide (le32At bs 12) (le32At bs 8), w4 := le32At bs 16, w5 := le32At bs 20,
    w6 := le32At bs 24, w7 := le32At bs 28 }

/-- The rows of format `TXD`, selected by word 0 (`30_encoding.md` R119). -/
def decodeTx (bs : List Byte) : Instr :=
  let w0 := le32At bs 0
  let d := decodeTxFields bs
  let ipcs := w0.getLsbD 26
  let l4cs := w0.getLsbD 25
  let tso := w0.getLsbD 24
  if w0.getLsbD 31 then
    if tso then .txdTso ipcs l4cs d
    else
      match ipcs, l4cs with
      | false, false => .txdSend d
      | true, false => .txdIpcs d
      | false, true => .txdL4cs d
      | true, true => .txdIpl4cs d
  else .txdHost ipcs l4cs tso d

/-- The rows of format `RXD`, selected by word 0 (`30_encoding.md` R119). -/
def decodeRx (bs : List Byte) : Instr :=
  if (le32At bs 0).getLsbD 31 then .rxdFree (decodeRxFields bs) else .rxdHost (decodeRxFields bs)

/-! ## Commands and register accesses -/

/-- The rows of format `CMD16` (`30_encoding.md` R111): `op` is `CMD[15:8]`, `arg` is `CMD[7:0]`. -/
def decodeCmd (op arg : Byte) : Instr :=
  if op = 0x01 then .softReset arg
  else if op = 0x02 then .hardReset arg
  else if op = 0x10 then .loadTxRing arg
  else if op = 0x11 then .loadRxRing arg
  else .cmdReserved op arg

/-- The rows of format `REGW` (`30_encoding.md` R112, R119): the lane at offset `o` is written with `v`. -/
def decodeLane (o v : Byte) : Instr :=
  let l2 : BitVec 2 := o.extractLsb' 0 2
  let l3 : BitVec 3 := o.extractLsb' 0 3
  if o &&& 0xFC = 0x04 then .ctrlW l2 v
  else if o = 0x08 then .cmdStore v
  else if o = 0x09 then .cmdX v
  else if o &&& 0xFC = 0x10 then .icauseAck l2 v
  else if o &&& 0xFC = 0x14 then .imaskW l2 v
  else if o &&& 0xF8 = 0x20 then .ringStageTxBase l3 v
  else if o &&& 0xFC = 0x28 then .ringStageTxLen l2 v
  else if o &&& 0xF8 = 0x30 then .ringStageRxBase l3 v
  else if o &&& 0xFC = 0x38 then .ringStageRxLen l2 v
  else if o = 0x40 then .txDbW v
  else if o = 0x44 then .rxDbW v
  else if o &&& 0xF8 = 0x48 then .filterWMac l3 v
  else if o &&& 0xF8 = 0x50 then .filterWMhash l3 v
  else if o &&& 0xFC = 0x58 then .filterWRxFilter l2 v
  else .regwNone o v

/-- The access size a code byte of format `REGR` names. The spec gives the size no encoding
(`opcode_table.json`, row `REG.R`); the codes are a DESIGN CHOICE (assumption log 6). Safe: only the model's
own step writes and reads them. -/
def decodeSize (c : Byte) : Option AccessSize :=
  if c = 0 then some .one else if c = 1 then some .two else if c = 2 then some .four else none

/-- The code of an access size (assumption log 6, DESIGN CHOICE, safe). -/
def encodeSize : AccessSize → Byte
  | .one => 0
  | .two => 1
  | .four => 2

/-- Why a byte string is no encoding of its format. -/
inductive DecodeError where
  /-- The byte string has not the length of its format. -/
  | badLength (fmt : Format) (n : Nat)
  /-- The size code of a register read names none of 1, 2, 4 (`20_memory.md` R71: such an access is never
  presented). -/
  | badAccessSize (code : Byte)
deriving DecidableEq, Repr

/-- The number of bytes of an encoding of each format (`30_encoding.md` R100: all formats have fixed length).
A `REGW` lane is its offset and its byte; a `REGR` read is its offset and its size code. -/
def formatBytes : Format → Nat
  | .txd => 32
  | .rxd => 32
  | .cmd16 => 2
  | .regw => 2
  | .regr => 2

/-- The decoder: total on any bytes of any format. -/
def decode (fmt : Format) (bs : List Byte) : Except DecodeError Instr :=
  if bs.length = formatBytes fmt then
    match fmt with
    | .txd => .ok (decodeTx bs)
    | .rxd => .ok (decodeRx bs)
    | .cmd16 => .ok (decodeCmd (byteAt bs 1) (byteAt bs 0))
    | .regw => .ok (decodeLane (byteAt bs 0) (byteAt bs 1))
    | .regr =>
      match decodeSize (byteAt bs 1) with
      | some n => .ok (.regR (byteAt bs 0) n)
      | none => .error (.badAccessSize (byteAt bs 1))
  else .error (.badLength fmt bs.length)

/-! ## The encoder -/

/-- Words 1 to 7 of a TX descriptor (`30_encoding.md` R101). -/
def encodeTxTail (d : TxFields) : List Byte :=
  le32 (d.mss ++ d.tci) ++ le32 (d.buf.extractLsb' 0 32) ++ le32 (d.buf.extractLsb' 32 32)
    ++ le32 (d.l4Cso ++ d.l4Start ++ d.ipCso ++ d.ipStart) ++ le32 (d.w5Rsvd ++ d.hdrLen) ++ le32 d.w6 ++ le32 d.w7

/-- Words 1 to 7 of an RX descriptor (`30_encoding.md` R106). -/
def encodeRxTail (d : RxFields) : List Byte :=
  le32 d.w1 ++ le32 (d.buf.extractLsb' 0 32) ++ le32 (d.buf.extractLsb' 32 32)
    ++ le32 d.w4 ++ le32 d.w5 ++ le32 d.w6 ++ le32 d.w7

/-- A TX descriptor's 32 bytes. -/
def encodeTx (own ipcs l4cs tso : Bool) (d : TxFields) : List Byte :=
  le32 (txWord0 own ipcs l4cs tso d) ++ encodeTxTail d

/-- An RX descriptor's 32 bytes. -/
def encodeRx (own : Bool) (d : RxFields) : List Byte := le32 (rxWord0 own d) ++ encodeRxTail d

/-- The encoding of an instruction, from the tables of `30_encoding.md` R101, R106, R111, R112. -/
def encode : Instr → List Byte
  | .txdHost ipcs l4cs tso d => encodeTx false ipcs l4cs tso d
  | .txdSend d => encodeTx true false false false d
  | .txdIpcs d => encodeTx true true false false d
  | .txdL4cs d => encodeTx true false true false d
  | .txdIpl4cs d => encodeTx true true true false d
  | .txdTso ipcs l4cs d => encodeTx true ipcs l4cs true d
  | .rxdHost d => encodeRx false d
  | .rxdFree d => encodeRx true d
  | .softReset arg => [arg, 0x01]
  | .hardReset arg => [arg, 0x02]
  | .loadTxRing arg => [arg, 0x10]
  | .loadRxRing arg => [arg, 0x11]
  | .cmdReserved op arg => [arg, op]
  | .ctrlW lane v => [0b000001#6 ++ lane, v]
  | .cmdStore v => [0x08, v]
  | .cmdX v => [0x09, v]
  | .icauseAck lane v => [0b000100#6 ++ lane, v]
  | .imaskW lane v => [0b000101#6 ++ lane, v]
  | .ringStageTxBase lane v => [0b00100#5 ++ lane, v]
  | .ringStageTxLen lane v => [0b001010#6 ++ lane, v]
  | .ringStageRxBase lane v => [0b00110#5 ++ lane, v]
  | .ringStageRxLen lane v => [0b001110#6 ++ lane, v]
  | .txDbW v => [0x40, v]
  | .rxDbW v => [0x44, v]
  | .filterWMac lane v => [0b01001#5 ++ lane, v]
  | .filterWMhash lane v => [0b01010#5 ++ lane, v]
  | .filterWRxFilter lane v => [0b010110#6 ++ lane, v]
  | .regwNone off v => [off, v]
  | .regR off n => [off, encodeSize n]

/-! ## Words of the opcode table -/

/-- The `n` bytes of a number, least significant first: the words of `opcode_table.json` as the hardware
stores them (`20_memory.md` R75). -/
def tableBytes (n w : Nat) : List Byte := (List.range n).map fun i => BitVec.ofNat 8 (w / 256 ^ i)

/-- The format an opcode-table word of `nbits` bits is read in. `TXD` and `RXD` share 32 bits and `REGW` and
`REGR` share 8: which of them a word belongs to is not in the word (`30_encoding.md` R114 (2), R119), so the
width alone is read as `TXD` and `REGW` (assumption log 5, DESIGN CHOICE, safe). -/
def tableFormat (nbits : Nat) : Option Format :=
  if nbits = 32 then some .txd else if nbits = 16 then some .cmd16 else if nbits = 8 then some .regw else none

/-- The bytes of an opcode-table word in its format, every bit above `nbits` 0. -/
def tableEncoding (fmt : Format) (nbits w : Nat) : List Byte := tableBytes (formatBytes fmt) (w % 2 ^ nbits)

/-- The instruction the decoder reads from the opcode-table word `w` of `nbits` bits. -/
def decodeTableWord (nbits w : Nat) : Option Instr :=
  match tableFormat nbits with
  | some fmt =>
    match decode fmt (tableEncoding fmt nbits w) with
    | .ok i => some i
    | .error _ => none
  | none => none

end Sys2Proof
end

