-- ==== Sys2Proof/Machine/State.lean ====
section
/-!
DEFINITION. The state of the model: the engine's architectural state (`spec/10_state.md` R20, record
`Engine`), the locals of the operation in progress (R28, record `Op`), the parameters (`00_scope.md` R9) and
the engine's surroundings (R29: guest memory, the collaborator's answers, the presented operations, the
outputs). Plain data only.
-/

namespace Sys2Proof.Machine

/-! ## Guest memory -/

/-- Guest memory (`20_memory.md` R70): address and byte pairs, addresses strictly rising, no entry equal to
what an unlisted address reads as. -/
abbrev Memory := List Host.Cell

/-! ## Engine state -/

/-- A ring cursor (`10_state.md` R21). -/
structure Cursor where
  /-- Guest-physical address of slot 0. -/
  base : Addr := 0
  /-- Capacity in descriptors; 0 means no ring is configured (R22). -/
  cap : Half := 0
  /-- Index of the next descriptor to fetch. -/
  idx : Half := 0
deriving DecidableEq, Repr

/-- The TX path states (`10_state.md` R25). -/
inductive TxState where
  | idle
  | draining
  | stalled
deriving DecidableEq, Repr

/-- The error marks of a pending frame (`10_state.md` R23). -/
inductive ErrMark where
  | oversize
  | badOfl
  | seqErr
deriving DecidableEq, Repr

/-- The pending frame (`10_state.md` R23). `buf` holds the valid bytes only, so its length is `len`
(assumption log 14, DEDUCED, safe: bytes beyond `len` are never read). `err` holds at most one mark
(`41_tx_path.md` R176; assumption log 13, DEDUCED, safe). -/
structure PendingFrame where
  /-- A frame is being assembled. -/
  isOpen : Bool := false
  /-- The bytes assembled so far. -/
  buf : List Byte := []
  /-- The error mark of a frame in the rejected condition. -/
  err : Option ErrMark := none
deriving DecidableEq, Repr

/-- The complete state of the engine (`10_state.md` R20), each field with its reset value (R50). -/
structure Engine where
  /-- The TX ring cursor. -/
  txr : Cursor := {}
  /-- The RX ring cursor. -/
  rxr : Cursor := {}
  /-- The pending frame. -/
  pf : PendingFrame := {}
  /-- The TX path state. -/
  txState : TxState := .idle
  /-- A delivery found no descriptor (`10_state.md` R26). -/
  rxNores : Bool := false
  /-- `ICAUSE` (`10_state.md` R35). -/
  icause : BitVec 4 := 0
  /-- `IMASK` (`10_state.md` R36). -/
  imask : BitVec 4 := 0
  /-- The level driven on the interrupt output (`10_state.md` R27). -/
  irqLine : Bool := false
  /-- `CTRL` (`10_state.md` R32). -/
  ctrl : BitVec 5 := 0
  /-- `CMD` (`10_state.md` R33). -/
  cmd : Half := 0
  /-- `TX_BASE_LO` (`10_state.md` R37). -/
  txBaseLo : Word := 0
  /-- `TX_BASE_HI` (`10_state.md` R37). -/
  txBaseHi : Word := 0
  /-- `TX_LEN` (`10_state.md` R38). -/
  txLen : Half := 0
  /-- `RX_BASE_LO` (`10_state.md` R40). -/
  rxBaseLo : Word := 0
  /-- `RX_BASE_HI` (`10_state.md` R40). -/
  rxBaseHi : Word := 0
  /-- `RX_LEN` (`10_state.md` R41). -/
  rxLen : Half := 0
  /-- `MAC_LO` (`10_state.md` R45): octets 0 to 3 of the station address. -/
  macLo : Word := 0
  /-- `MAC_HI` (`10_state.md` R45): octets 4 and 5. -/
  macHi : Half := 0
  /-- `MHASH_LO` (`10_state.md` R46). -/
  mhashLo : Word := 0
  /-- `MHASH_HI` (`10_state.md` R46). -/
  mhashHi : Word := 0
  /-- `RX_FILTER` (`10_state.md` R47). -/
  rxFilter : BitVec 4 := 0
  /-- `CNT_TX_FRAMES` (`10_state.md` R48). -/
  cntTxFrames : Word := 0
  /-- `CNT_TX_REJ` (`10_state.md` R48). -/
  cntTxRej : Word := 0
  /-- `CNT_RX_FRAMES` (`10_state.md` R48). -/
  cntRxFrames : Word := 0
  /-- `CNT_RX_MISSED` (`10_state.md` R48). -/
  cntRxMissed : Word := 0
  /-- `CNT_RX_ERR` (`10_state.md` R48). -/
  cntRxErr : Word := 0
deriving DecidableEq, Repr

/-- The engine after a hard reset (`10_state.md` R50): every default above, and the station address at
`MAC_RESET`. -/
def Engine.hardReset (c : Config) : Engine := { macLo := c.macResetLo, macHi := c.macResetHi }

/-! ## The operation in progress -/

/-- The match kinds an accepted frame can have (`43_rx_filter.md` R242). -/
inductive MatchKind where
  | unicast
  | broadcast
  | multicast
  | promiscuous
deriving DecidableEq, Repr

/-- One element of the pre-scan chain (`43_rx_filter.md` R266): slot index, slot address, descriptor. -/
structure RxSlot where
  idx : Half
  addr : Addr
  d : RxFields
deriving DecidableEq, Repr

/-- The delivery-local values of a `receive` (`10_state.md` R28). -/
structure Delivery where
  /-- The classification `m`. -/
  kind : MatchKind := .unicast
  /-- The VLAN indication `vl` (`43_rx_filter.md` R252). -/
  vl : Bool := false
  /-- The bytes to deliver (`43_rx_filter.md` R261). -/
  data : List Byte := []
  /-- The descriptors found so far, in ring order (`43_rx_filter.md` R266). -/
  chain : List RxSlot := []
  /-- The index of the next slot to fetch. -/
  next : Half := 0
deriving DecidableEq, Repr

/-- The triggers of `44_register_window.md` R294. -/
inductive Trigger where
  /-- Lane 0x09: the command executes. -/
  | command
  /-- Lane 0x40: TX doorbell. -/
  | txDoorbell
  /-- Lane 0x44: RX doorbell. -/
  | rxDoorbell
  /-- Lanes 0x10 to 0x17: `IrqEval`. -/
  | irqEval
deriving DecidableEq, Repr

/-- Which part of an operation comes next. -/
inductive Phase where
  /-- No operation in progress. -/
  | idle
  /-- A register write is storing its lanes (`44_register_window.md` R292). -/
  | lanes
  /-- The command in `CMD` is to execute (`44_register_window.md` R300). -/
  | command
  /-- A TX run is at its loop head (`41_tx_path.md` R164). -/
  | txRun
  /-- A delivery is to fetch its next descriptor (`43_rx_filter.md` R263, R266). -/
  | rxScan
deriving DecidableEq, Repr

/-- The locals of the operation in progress (`10_state.md` R28; assumption log 3). -/
structure Op where
  phase : Phase := .idle
  /-- The lanes of a register write still to store: offset and byte, ascending. -/
  lanes : List (Byte × Byte) := []
  /-- The trigger the write has covered; at most one (`44_register_window.md` R294). -/
  trig : Option Trigger := none
  /-- Descriptors written back in this TX run. -/
  consumed : Nat := 0
  /-- A descriptor has been consumed since `TXDONE` was last raised in this run. -/
  unsignalled : Bool := false
  /-- The delivery in progress. -/
  rx : Delivery := {}
deriving DecidableEq, Repr

/-! ## The surroundings -/

/-- A store by the driver to guest memory. -/
structure Store where
  addr : Addr
  bytes : List Byte
deriving DecidableEq, Repr

/-- How the guest-memory collaborator answers one call (`20_memory.md` R72). -/
inductive Answer where
  /-- As plain RAM: a read returns what is stored, a write stores. -/
  | plain
  /-- Not as RAM: a read returns these bytes, a write answers `ok` and RAM is unchanged
  (`93_implementation_defined.md` U5). -/
  | other (bytes : List Byte)
  /-- `fault`. -/
  | fault
deriving DecidableEq, Repr

/-- What happens at one collaborator call: the driver stores that land before it (`20_memory.md` R86), and
the collaborator's answer (assumption log 2). -/
structure Reply where
  stores : List Store := []
  answer : Answer := .plain
deriving DecidableEq, Repr

/-- Direction of a guest-memory access (`60_exceptions.md` R336). -/
inductive Dir where
  | read
  | write
deriving DecidableEq, Repr

/-- What the outside presents to the engine, one at a time (`00_scope.md` R12, `20_memory.md` R71, R73). -/
inductive Input where
  /-- `RegRead(o, n)`. -/
  | regRead (o : Byte) (n : AccessSize)
  /-- `RegWrite(o, n, v)`; bits of `v` beyond the access are not looked at. -/
  | regWrite (o : Byte) (n : AccessSize) (v : Word)
  /-- `receive(frame)`. -/
  | receive (frame : List Byte)
  /-- `can_receive()`. -/
  | canReceive
  /-- A driver store to guest memory between operations; the engine takes no part in it. -/
  | guestStore (st : Store)
deriving DecidableEq, Repr

/-- What the engine does outwards (`10_state.md` R29: outputs are recorded as events). -/
inductive Event where
  /-- `MemRead(gpa, n)` and whether it was answered with data. -/
  | memRead (gpa : Addr) (n : Nat) (ok : Bool)
  /-- `MemWrite(gpa, n, v)` and whether it was answered `ok`. -/
  | memWrite (gpa : Addr) (bytes : List Byte) (ok : Bool)
  /-- `PlatformFault(gpa, n, dir)` (`60_exceptions.md` R336). -/
  | platformFault (gpa : Addr) (n : Nat) (dir : Dir)
  /-- `Send(frame)` (`42_offload.md` R222). -/
  | send (frame : List Byte)
  /-- `LineChange(level)` (`60_exceptions.md` R341). -/
  | lineChange (level : Bool)
  /-- The result of a register read (`44_register_window.md` R291). -/
  | regData (o : Byte) (n : AccessSize) (v : Word)
  /-- The answer of `can_receive()` (`43_rx_filter.md` R240). -/
  | canReceiveData (b : Bool)
deriving DecidableEq, Repr

/-! ## The machine -/

/-- The state of the model. -/
structure State where
  /-- The parameters (`00_scope.md` R9); no step changes them. -/
  cfg : Config
  /-- The engine (`10_state.md` R20). -/
  eng : Engine
  /-- The operation in progress (`10_state.md` R28). -/
  op : Op
  /-- Guest memory (`20_memory.md` R70). -/
  mem : Memory
  /-- The collaborator's answers to come; when none is left it is plain RAM (assumption log 2). -/
  replies : List Reply
  /-- The operations presented to the engine, in order (assumption log 4). -/
  inputs : List Input
  /-- What the engine has done outwards, oldest first (assumption log 8). -/
  events : List Event
deriving DecidableEq, Repr

/-- Right after power-on (`70_reset_and_hazards.md` R380, R381): the hard-reset engine at rest, the default
parameters, guest memory with nothing listed, no answer and no operation waiting, nothing done yet. -/
def State.reset : State :=
  { cfg := Config.default, eng := Engine.hardReset Config.default, op := {}, mem := [], replies := [],
    inputs := [], events := [] }

/-- Why the machine stops with a fault. The hardware never does (`60_exceptions.md` R330). -/
inductive Fault where
  /-- Raised by `step` alone, if the bytes it fetched are no encoding of their format. No state reaches it:
  what `step` fetches always has its format's form (`30_encoding.md` R109, R113). Safe. -/
  | undecodable (e : DecodeError)
deriving DecidableEq, Repr

/-- Why the model declines an instruction. -/
inductive Refusal where
  /-- Raised by an arm of `exec` whose instruction has no meaning yet; no arm does. Safe. -/
  | notModelled (mnemonic : String)
deriving DecidableEq, Repr

end Sys2Proof.Machine
end

