-- ==== Sys2Proof/Machine/Ops.lean ====
section
/-!
DEFINITION. The named operations over guest memory, the collaborator's answers and the ring cursors
(`spec/20_memory.md`, `spec/40_ring_and_descriptor.md`), and the one report that leaves the engine,
`PlatformFault` (`spec/60_exceptions.md` R336). The hardware has no exception entry and no return from one
(R346, R347): `platformFault` is what stands in their place, and the processing that met the fault stops as
its own rule says.
-/

namespace Sys2Proof.Machine

/-! ## Outputs -/

/-- Record an output (`10_state.md` R29). -/
def logEvent (e : Event) (s : State) : State := { s with events := s.events ++ [e] }

/-- `PlatformFault(gpa, n, dir)` (`60_exceptions.md` R336): one report, no cause, no status. -/
def platformFault (a : Addr) (n : Nat) (dir : Dir) (s : State) : State := logEvent (.platformFault a n dir) s

/-- The operation in progress ends; nothing of its locals survives (`10_state.md` R20, R28). -/
def endOp (s : State) : State := { s with op := {} }

/-! ## Guest memory -/

/-- What an unlisted address reads as. The spec gives guest memory no contents at power-on; 0 is a DESIGN
CHOICE (assumption log 1), unsafe: a claim about memory nobody wrote could rest on it. -/
def unlistedByte : Byte := 0

/-- The number of guest-physical addresses (`00_scope.md` R9, `GPA_BITS`). -/
def gpaSpace : Nat := 2 ^ 64

/-- One byte of guest memory. -/
def Memory.get : Memory → Nat → Byte
  | [], _ => unlistedByte
  | (k, c) :: rest, a => if k = a then c else Memory.get rest a

/-- Guest memory with one byte changed, in canonical form. -/
def Memory.set : Memory → Nat → Byte → Memory
  | [], a, b => if b = unlistedByte then [] else [(a, b)]
  | (k, c) :: rest, a, b =>
    if k < a then (k, c) :: Memory.set rest a b
    else if k = a then (if b = unlistedByte then rest else (a, b) :: rest)
    else (if b = unlistedByte then (k, c) :: rest else (a, b) :: (k, c) :: rest)

/-- The canonical form from address `lo` on: addresses rising and inside the address space, no entry equal to
`unlistedByte`. -/
def Memory.wfFrom : Nat → Memory → Bool
  | _, [] => true
  | lo, (k, c) :: rest => decide (lo ≤ k) && decide (k < gpaSpace) && decide (c ≠ unlistedByte) && Memory.wfFrom (k + 1) rest

/-- The canonical form of guest memory. -/
def Memory.wf (m : Memory) : Bool := Memory.wfFrom 0 m

/-- `n` bytes from address `a` on; byte `i` is at `(a + i) mod 2^64` (`20_memory.md` R77). -/
def Memory.readBytes (m : Memory) (a : Nat) : Nat → List Byte
  | 0 => []
  | n + 1 => m.get (a % gpaSpace) :: Memory.readBytes m (a + 1) n

/-- Store bytes from address `a` on; byte `i` goes to `(a + i) mod 2^64` (`20_memory.md` R77). -/
def Memory.writeBytes (m : Memory) (a : Nat) : List Byte → Memory
  | [] => m
  | b :: bs => Memory.writeBytes (m.set (a % gpaSpace) b) (a + 1) bs

/-- The driver's stores land in order (`20_memory.md` R86). -/
def applyStores (sts : List Store) (m : Memory) : Memory :=
  sts.foldl (fun m st => m.writeBytes st.addr.toNat st.bytes) m

/-! ## The guest-memory collaborator -/

/-- The next answer of the collaborator, after the driver stores that land before this call. -/
def takeReply (s : State) : Answer × State :=
  match s.replies with
  | [] => (.plain, s)
  | r :: rest => (r.answer, { s with replies := rest, mem := applyStores r.stores s.mem })

/-- A byte sequence of length exactly `n`: cut, or continued with zeros (assumption log 2). -/
def fitBytes (n : Nat) (bs : List Byte) : List Byte := (List.range n).map (byteAt bs)

/-- `MemRead(gpa, n)` (`20_memory.md` R72, R81); a fault is reported to the platform once (R336). -/
def memRead (a : Addr) (n : Nat) (s : State) : Option (List Byte) × State :=
  let (ans, t) := takeReply s
  match ans with
  | .plain => (some (t.mem.readBytes a.toNat n), logEvent (.memRead a n true) t)
  | .other bs => (some (fitBytes n bs), logEvent (.memRead a n true) t)
  | .fault => (none, platformFault a n .read (logEvent (.memRead a n false) t))

/-- `MemWrite(gpa, n, v)` (`20_memory.md` R72, R81): true on `ok`. A faulting write stores nothing and is
reported to the platform once (`60_exceptions.md` R336). -/
def memWrite (a : Addr) (bs : List Byte) (s : State) : Bool × State :=
  let (ans, t) := takeReply s
  match ans with
  | .plain => (true, logEvent (.memWrite a bs true) { t with mem := t.mem.writeBytes a.toNat bs })
  | .other _ => (true, logEvent (.memWrite a bs true) t)
  | .fault => (false, platformFault a bs.length .write (logEvent (.memWrite a bs false) t))

/-! ## Ring cursor and descriptor codec -/

/-- The address of slot `i` of a ring: `(base + 32*i) mod 2^64` (`20_memory.md` R79). -/
def slotAddr (r : Cursor) (i : Half) : Addr := r.base + BitVec.ofNat 64 (descStride * i.toNat)

/-- `advance(ring, i, eor)` (`40_ring_and_descriptor.md` R146). -/
def advance (r : Cursor) (i : Half) (eor : Bool) : Half :=
  if eor then 0 else BitVec.ofNat 16 ((i.toNat + 1) % r.cap.toNat)

/-- The collaborator call of `fetch(ring, i)` (`40_ring_and_descriptor.md` R140): always 32 bytes. -/
def fetchSlot (r : Cursor) (i : Half) (s : State) : Option (List Byte) × State :=
  memRead (slotAddr r i) descStride s

/-- `writeback(a, w0')` (`40_ring_and_descriptor.md` R143): the four bytes of word 0 and no other. -/
def writeback (a : Addr) (w0 : Word) (s : State) : Bool × State := memWrite a (le32 w0) s

end Sys2Proof.Machine
end

