-- ==== Sys2Proof/Machine/Flags.lean ====
section
/-!
DEFINITION. Every status flag of the hardware (`spec/10_state.md` R51): the enable and mode bits of `CTRL`,
the cause bits and the interrupt controller (`spec/60_exceptions.md` R340, R341), the `STATUS` word, and the
status bits a writeback puts into word 0 of a descriptor (`spec/30_encoding.md` R103, R107).
-/

namespace Sys2Proof.Machine

/-! ## `CTRL` (`10_state.md` R32) and `RX_FILTER` (R47) -/

/-- `CTRL.TX_EN`. -/
def Engine.txEn (e : Engine) : Bool := e.ctrl.getLsbD 0
/-- `CTRL.RX_EN`. -/
def Engine.rxEn (e : Engine) : Bool := e.ctrl.getLsbD 1
/-- `CTRL.TX_CHAIN`. -/
def Engine.txChain (e : Engine) : Bool := e.ctrl.getLsbD 2
/-- `CTRL.RX_CHAIN`. -/
def Engine.rxChain (e : Engine) : Bool := e.ctrl.getLsbD 3
/-- `CTRL.RX_CRC`. -/
def Engine.rxCrc (e : Engine) : Bool := e.ctrl.getLsbD 4

/-- `RX_FILTER.ACC_UCAST`. -/
def Engine.accUcast (e : Engine) : Bool := e.rxFilter.getLsbD 0
/-- `RX_FILTER.ACC_BCAST`. -/
def Engine.accBcast (e : Engine) : Bool := e.rxFilter.getLsbD 1
/-- `RX_FILTER.ACC_MCAST`. -/
def Engine.accMcast (e : Engine) : Bool := e.rxFilter.getLsbD 2
/-- `RX_FILTER.PROMISC`. -/
def Engine.promisc (e : Engine) : Bool := e.rxFilter.getLsbD 3

/-! ## The interrupt controller -/

/-- `TXDONE` (`10_state.md` R35). -/
def causeTxDone : BitVec 4 := 0x1
/-- `RXDONE`. -/
def causeRxDone : BitVec 4 := 0x2
/-- `RXOVR`. -/
def causeRxOvr : BitVec 4 := 0x4
/-- `TXSTALL`. -/
def causeTxStall : BitVec 4 := 0x8

/-- `RaiseCause(bits)` (`60_exceptions.md` R340): it does not touch the line. -/
def raiseCause (bits : BitVec 4) (s : State) : State := { s with eng.icause := s.eng.icause ||| bits }

/-- The level the line should have: some enabled cause is set (`60_exceptions.md` R341; `90_conflicts.md` C2). -/
def Engine.lineWanted (e : Engine) : Bool := (e.icause &&& e.imask) != 0

/-- `IrqEval()` (`60_exceptions.md` R341): the platform sees an event only when the level changes. -/
def irqEval (s : State) : State :=
  if s.eng.lineWanted = s.eng.irqLine then s
  else logEvent (.lineChange s.eng.lineWanted) { s with eng.irqLine := s.eng.lineWanted }

/-- The events of one `IrqEval` when the causes are `c` (`60_exceptions.md` R341). -/
def lineEvents (e : Engine) (c : BitVec 4) : List Event :=
  if ((c &&& e.imask) != 0) = e.irqLine then [] else [.lineChange ((c &&& e.imask) != 0)]

/-- The engine with the causes `c` and the line evaluated (`60_exceptions.md` R340, R341). -/
def Engine.withCauses (e : Engine) (c : BitVec 4) : Engine :=
  { e with icause := c, irqLine := (c &&& e.imask) != 0 }

/-! ## `STATUS` (`10_state.md` R34) -/

/-- The code of `STATUS.TX_STATE`. -/
def txStateCode : TxState → BitVec 2
  | .idle => 0
  | .draining => 1
  | .stalled => 2

/-- The `STATUS` word, computed from state. -/
def statusWord (e : Engine) : Word :=
  0#27 ++ BitVec.ofBool e.irqLine ++ BitVec.ofBool e.pf.isOpen ++ BitVec.ofBool e.rxNores ++ txStateCode e.txState

/-! ## Status bits of descriptors -/

/-- `FS`, RX status (`30_encoding.md` R106). -/
def stFs : Word := 0x20000000
/-- `LS`, RX status. -/
def stLs : Word := 0x10000000
/-- `VLAN`, RX status. -/
def stVlan : Word := 0x00800000
/-- `DONE` (`30_encoding.md` R101, R106). -/
def stDone : Word := 0x00400000
/-- `ERR`. -/
def stErr : Word := 0x00200000
/-- `OVERSIZE`. -/
def stOversize : Word := 0x00100000
/-- `BADOFL` (`30_encoding.md` R101). -/
def stBadOfl : Word := 0x00080000
/-- `SEQERR`. -/
def stSeqErr : Word := 0x00040000
/-- `TX_DEV` (`30_encoding.md` R103): the device-written bits of TX word 0. -/
def txDev : Word := 0x807C0000
/-- `RX_DEV` (`30_encoding.md` R107): the device-written bits of RX word 0. -/
def rxDev : Word := 0xB0F3FFFF

/-- A status bit where a condition holds. -/
def bitIf (c : Bool) (w : Word) : Word := if c then w else 0

/-- `bits(pf.err)` (`41_tx_path.md` R176). -/
def errBits : ErrMark → Word
  | .oversize => stOversize
  | .badOfl => stBadOfl
  | .seqErr => stSeqErr

/-- The TX status of `41_tx_path.md` R172: `seqFlag` is the flag of R166, `err` is `pf.err` at that point. -/
def txStatus (seqFlag : Bool) (err : Option ErrMark) : Word :=
  stDone ||| bitIf seqFlag stSeqErr
    ||| (match err with
         | none => 0
         | some m => stErr ||| errBits m)

/-- The code of a match kind (`43_rx_filter.md` R242). -/
def matchCode : MatchKind → BitVec 2
  | .unicast => 0
  | .broadcast => 1
  | .multicast => 2
  | .promiscuous => 3

/-- `MATCH(m)` in place (`30_encoding.md` R106, bits 17:16). -/
def matchBits (m : MatchKind) : Word := 0#14 ++ matchCode m ++ 0#16

/-- The RX status of a delivered descriptor (`43_rx_filter.md` R267); `n` is the byte count. -/
def rxStatus (first last vl : Bool) (m : MatchKind) (n : Nat) : Word :=
  bitIf first stFs ||| bitIf last stLs ||| stDone ||| bitIf vl stVlan ||| matchBits m ||| BitVec.ofNat 32 n

/-- The RX status of an oversize drop (`43_rx_filter.md` R264), with `LEN = 0`. -/
def rxOversizeStatus (vl : Bool) (m : MatchKind) : Word :=
  stFs ||| stLs ||| stDone ||| stErr ||| stOversize ||| bitIf vl stVlan ||| matchBits m

/-- The TX writeback value (`30_encoding.md` R103). -/
def txWritebackWord (w0 st : Word) : Word := (w0 &&& ~~~txDev) ||| st

/-- The RX writeback value (`30_encoding.md` R107). -/
def rxWritebackWord (w0 st : Word) : Word := (w0 &&& ~~~rxDev) ||| st

end Sys2Proof.Machine
end

