-- ==== Sys2Proof/Machine/Operands.lean ====
section
/-!
DEFINITION. Every operand form: the register window seen as registers and as bytes (`spec/10_state.md` R30 to
R49), the lanes a register access covers (`spec/44_register_window.md` R290), the three addressing forms
(`spec/40_ring_and_descriptor.md` R149), the framing bits of a TX descriptor (`spec/41_tx_path.md` R165), and
the big-endian fields of a frame (`spec/20_memory.md` R76).
-/

namespace Sys2Proof.Machine

/-! ## The register window -/

/-- The current value of the register at offset `4 * k` (`10_state.md` R30 to R49): stored, computed, or 0. -/
def regWord (c : Config) (e : Engine) (k : Nat) : Word :=
  match k with
  | 0 => c.idValue
  | 1 => e.ctrl.setWidth 32
  | 2 => e.cmd.setWidth 32
  | 3 => statusWord e
  | 4 => e.icause.setWidth 32
  | 5 => e.imask.setWidth 32
  | 8 => e.txBaseLo
  | 9 => e.txBaseHi
  | 10 => e.txLen.setWidth 32
  | 11 => e.txr.idx.setWidth 32
  | 12 => e.rxBaseLo
  | 13 => e.rxBaseHi
  | 14 => e.rxLen.setWidth 32
  | 15 => e.rxr.idx.setWidth 32
  | 18 => e.macLo
  | 19 => e.macHi.setWidth 32
  | 20 => e.mhashLo
  | 21 => e.mhashHi
  | 22 => e.rxFilter.setWidth 32
  | 24 => e.cntTxFrames
  | 25 => e.cntTxRej
  | 26 => e.cntRxFrames
  | 27 => e.cntRxMissed
  | 28 => e.cntRxErr
  | _ => 0

/-- The window byte at an offset (`44_register_window.md` R291); bytes beyond the window read 0 (R290). -/
def windowByte (c : Config) (e : Engine) (o : Nat) : Byte :=
  if o < windowSize then laneOf (regWord c e (o / 4)) (BitVec.ofNat 2 o) else 0

/-- The result of `RegRead(o, n)` (`44_register_window.md` R290, R291), bytes beyond the access 0. -/
def readWindow (c : Config) (e : Engine) (o : Byte) (n : AccessSize) : Word :=
  let b := fun i => if i < n.bytes then windowByte c e (o.toNat + i) else 0
  b 3 ++ b 2 ++ b 1 ++ b 0

/-- The byte lanes a write covers, ascending, each with its byte (`44_register_window.md` R290): bytes beyond
the window do not exist. -/
def coveredLanes (o : Byte) (n : AccessSize) (v : Word) : List (Byte × Byte) :=
  ((List.range n.bytes).filter fun i => o.toNat + i < windowSize).map
    fun i => (BitVec.ofNat 8 (o.toNat + i), v.extractLsb' (8 * i) 8)

/-- The station address `mac[0..5]` (`10_state.md` R45), `mac[0]` first on the wire. -/
def macBytes (e : Engine) : List Byte := le32 e.macLo ++ le16 e.macHi

/-- The 64-bit multicast hash bitmap (`10_state.md` R46). -/
def mhash (e : Engine) : BitVec 64 := wide e.mhashHi e.mhashLo

/-! ## TX descriptors -/

/-- The effective `(fs, ls)` of a TX descriptor (`41_tx_path.md` R165): in simple mode both read as 1. -/
def framing (e : Engine) (d : TxFields) : Bool × Bool := if e.txChain then (d.fs, d.ls) else (true, true)

/-- The slot the TX cursor names. -/
def txSlot (s : State) : Addr := slotAddr s.eng.txr s.eng.txr.idx

/-! ## Fields of a frame -/

/-- `BE16` of `00_scope.md` R10 at offset `k` of a frame. -/
def be16At (f : List Byte) (k : Nat) : Half := byteAt f k ++ byteAt f (k + 1)

/-- `BE32` of `00_scope.md` R10 at offset `k` of a frame. -/
def be32At (f : List Byte) (k : Nat) : Word :=
  byteAt f k ++ byteAt f (k + 1) ++ byteAt f (k + 2) ++ byteAt f (k + 3)

/-- A frame with one byte replaced. -/
def putByte (f : List Byte) (k : Nat) (b : Byte) : List Byte := f.set k b

/-- A frame with the big-endian halfword at offset `k` replaced. -/
def putBe16 (f : List Byte) (k : Nat) (h : Half) : List Byte :=
  putByte (putByte f k (h.extractLsb' 8 8)) (k + 1) (h.extractLsb' 0 8)

/-- A frame with the big-endian word at offset `k` replaced. -/
def putBe32 (f : List Byte) (k : Nat) (w : Word) : List Byte :=
  putBe16 (putBe16 f k (w.extractLsb' 16 16)) (k + 2) (w.extractLsb' 0 16)

/-- The bytes `f[i : j]` of a frame (`00_scope.md` R10). -/
def slice (f : List Byte) (i j : Nat) : List Byte := (f.drop i).take (j - i)

end Sys2Proof.Machine
end

