-- ==== Sys2Proof/Machine/Command.lean ====
section
/-!
DEFINITION. The commands (`spec/44_register_window.md` R300 to R303, R306, R307): the meanings of the five
`CMD16` rows. The argument is ignored by every command (R300).
-/

namespace Sys2Proof.Machine

/-- A reset (`44_register_window.md` R306, R307): the engine takes its reset values but for the line, which
`IrqEval` then drops if it was asserted; guest memory is not touched (`70_reset_and_hazards.md` R382). -/
def resetTo (e : Engine) (s : State) : State :=
  endOp (irqEval { s with eng := { e with irqLine := s.eng.irqLine } })

/-- `SOFT_RESET` (`44_register_window.md` R306): the station address is kept. -/
def execSoftReset (_arg : Byte) (s : State) : Host.Outcome State Fault Refusal :=
  .next (resetTo { Engine.hardReset s.cfg with macLo := s.eng.macLo, macHi := s.eng.macHi } s)

/-- `HARD_RESET` (`44_register_window.md` R307). -/
def execHardReset (_arg : Byte) (s : State) : Host.Outcome State Fault Refusal :=
  .next (resetTo (Engine.hardReset s.cfg) s)

/-- `LOAD_TX_RING` (`44_register_window.md` R302). -/
def execLoadTxRing (_arg : Byte) (s : State) : Host.Outcome State Fault Refusal :=
  .next (endOp { s with eng.txr := { base := wide s.eng.txBaseHi s.eng.txBaseLo, cap := s.eng.txLen, idx := 0 },
                        eng.txState := .idle, eng.pf := {} })

/-- `LOAD_RX_RING` (`44_register_window.md` R303). -/
def execLoadRxRing (_arg : Byte) (s : State) : Host.Outcome State Fault Refusal :=
  .next (endOp { s with eng.rxr := { base := wide s.eng.rxBaseHi s.eng.rxBaseLo, cap := s.eng.rxLen, idx := 0 },
                        eng.rxNores := false })

/-- `CMD.RESERVED` (`44_register_window.md` R301): a no-operation. -/
def execCmdReserved (_op _arg : Byte) (s : State) : Host.Outcome State Fault Refusal := .next (endOp s)

end Sys2Proof.Machine
end

