-- ==== Sys2Proof/Machine/RegRead.lean ====
section
/-!
DEFINITION. Register reads (`spec/44_register_window.md` R291): the meaning of the `REG.R` row.
-/

namespace Sys2Proof.Machine

/-- `REG.R` (`44_register_window.md` R291): the bytes of the access, all of one instant; a read changes no
state of the engine. The result is an output. -/
def execRegR (off : Byte) (n : AccessSize) (s : State) : Host.Outcome State Fault Refusal :=
  .next (logEvent (.regData off n (readWindow s.cfg s.eng off n)) s)

end Sys2Proof.Machine
end

