-- ==== Sys2Proof/Machine/Offload.lean ====
section
/-!
DEFINITION. The offload engine (`spec/42_offload.md`) as pure functions on byte sequences: `csum`, `IpCk`,
`L4Ck`, the segment constructor, `WireOut`'s wire frame, the validity conditions and `Emit` (R223, R225).
-/

namespace Sys2Proof.Machine

/-- The offload context `oc` (`10_state.md` R24), filled from the last-segment descriptor (`42_offload.md`
R200): the offsets as naturals, since the validity sums do not wrap (R202). -/
structure OffloadCtx where
  ipcs : Bool
  l4cs : Bool
  tso : Bool
  vlan : Bool
  tci : Half
  mss : Nat
  ipStart : Nat
  ipCso : Nat
  l4Start : Nat
  l4Cso : Nat
  hdrLen : Nat
deriving DecidableEq, Repr

/-- The offload context of a TX descriptor (`42_offload.md` R200, `30_encoding.md` R104). -/
def offloadCtx (ipcs l4cs tso : Bool) (d : TxFields) : OffloadCtx :=
  { ipcs := ipcs, l4cs := l4cs, tso := tso, vlan := d.vlan, tci := d.tci, mss := d.mss.toNat,
    ipStart := d.ipStart.toNat, ipCso := d.ipCso.toNat, l4Start := d.l4Start.toNat, l4Cso := d.l4Cso.toNat,
    hdrLen := d.hdrLen.toNat }

/-! ## The checksum (`42_offload.md` R208) -/

/-- The sum of the 16-bit big-endian words of a byte sequence, padded on the right with a zero byte. -/
def sumWords : List Byte → Nat
  | [] => 0
  | [b] => b.toNat * 256
  | b :: c :: rest => b.toNat * 256 + c.toNat + sumWords rest

/-- The end-around carry: `while s >= 2^16: s <- (s mod 2^16) + (s div 2^16)`. Each turn lowers `s`, so `s`
turns are enough. -/
def foldCarry : Nat → Nat → Nat
  | 0, s => s
  | turns + 1, s => if s < 65536 then s else foldCarry turns (s % 65536 + s / 65536)

/-- `csum(b)`. -/
def csum (b : List Byte) : Half :=
  let s := sumWords b
  BitVec.ofNat 16 (65535 - foldCarry s s)

/-- A frame with the two bytes of a store position taken as zero (R209, R211; `90_conflicts.md` C4). -/
def zeroStore (g : List Byte) (pos : Nat) : List Byte := putBe16 g pos 0

/-- `IpCk(g, IPSTART, L4START, IPCSO)` (`42_offload.md` R209). -/
def ipCk (g : List Byte) (ipStart l4Start ipCso : Nat) : List Byte :=
  putBe16 g ipCso (csum (slice (zeroStore g ipCso) ipStart l4Start))

/-- The pseudo-header of `42_offload.md` R211, from the frame as it stands. -/
def pseudoHeader (g : List Byte) (ipStart l4Start : Nat) : List Byte :=
  let l4len : Half := BitVec.ofNat 16 (g.length - l4Start)
  slice g (ipStart + 12) (ipStart + 20)
    ++ [0, byteAt g (ipStart + 9), l4len.extractLsb' 8 8, l4len.extractLsb' 0 8]

/-- `L4Ck(g, IPSTART, L4START, L4CSO)` (`42_offload.md` R211). -/
def l4Ck (g : List Byte) (ipStart l4Start l4Cso : Nat) : List Byte :=
  putBe16 g l4Cso (csum (pseudoHeader g ipStart l4Start ++ slice (zeroStore g l4Cso) l4Start g.length))

/-! ## Validity (`42_offload.md` R202 to R206) -/

/-- R203. -/
def vlanValid (oc : OffloadCtx) (flen : Nat) : Bool := !oc.vlan || decide (12 ≤ flen)

/-- R204, applied when `IPCS = 1` and `TSO = 0`. -/
def ipcsValid (oc : OffloadCtx) (flen : Nat) : Bool :=
  !oc.ipcs || (decide (oc.ipStart ≤ oc.l4Start) && decide (oc.l4Start ≤ flen) && decide (oc.ipCso + 2 ≤ flen))

/-- R205, applied when `L4CS = 1` and `TSO = 0`. -/
def l4csValid (oc : OffloadCtx) (flen : Nat) : Bool :=
  !oc.l4cs || (decide (oc.ipStart + 20 ≤ flen) && decide (oc.l4Start ≤ flen) && decide (oc.l4Cso + 2 ≤ flen))

/-- R206: the bounds, and then the protocol byte of the frame. -/
def tsoValid (oc : OffloadCtx) (f : List Byte) : Bool :=
  decide (1 ≤ oc.mss) && decide (oc.ipStart + 20 ≤ oc.l4Start) && decide (oc.l4Start + 20 ≤ oc.hdrLen)
    && decide (oc.hdrLen ≤ f.length) && decide (oc.ipCso + 2 ≤ oc.hdrLen) && decide (oc.l4Cso + 2 ≤ oc.hdrLen)
    && byteAt f (oc.ipStart + 9) == 6

/-! ## Segmentation (`42_offload.md` R213 to R217) -/

/-- `L`, the payload length (R213). -/
def payloadLen (oc : OffloadCtx) (f : List Byte) : Nat := f.length - oc.hdrLen

/-- `n`, the segment count (R213). -/
def segCount (oc : OffloadCtx) (f : List Byte) : Nat := (payloadLen oc f + oc.mss - 1) / oc.mss

/-- `chunk_k` (R214). -/
def chunkLen (oc : OffloadCtx) (f : List Byte) (k : Nat) : Nat := min oc.mss (payloadLen oc f - k * oc.mss)

/-- The template header and the payload of segment `k` (R214), nothing rewritten yet. -/
def rawSegment (oc : OffloadCtx) (f : List Byte) (k : Nat) : List Byte :=
  slice f 0 oc.hdrLen ++ slice f (oc.hdrLen + k * oc.mss) (oc.hdrLen + k * oc.mss + chunkLen oc f k)

/-- Total length, identification and sequence number rewritten (R215); `base_id` and `base_seq` are read from
the template. -/
def rewriteFields (oc : OffloadCtx) (f : List Byte) (k : Nat) (seg : List Byte) : List Byte :=
  let seg := putBe16 seg (oc.ipStart + 2) (BitVec.ofNat 16 (oc.hdrLen - oc.ipStart + chunkLen oc f k))
  let seg := putBe16 seg (oc.ipStart + 4) (be16At f (oc.ipStart + 4) + BitVec.ofNat 16 k)
  putBe32 seg (oc.l4Start + 4) (be32At f (oc.l4Start + 4) + BitVec.ofNat 32 (k * oc.mss))

/-- `PSH` and `FIN` cleared in every segment but the last (R216). -/
def clearPshFin (oc : OffloadCtx) (f : List Byte) (k : Nat) (seg : List Byte) : List Byte :=
  if k + 1 < segCount oc f then putByte seg (oc.l4Start + 13) (byteAt seg (oc.l4Start + 13) &&& 0xF6) else seg

/-- Segment `k`, before VLAN insertion (R214 to R217). -/
def segment (oc : OffloadCtx) (f : List Byte) (k : Nat) : List Byte :=
  let seg := clearPshFin oc f k (rewriteFields oc f k (rawSegment oc f k))
  l4Ck (ipCk seg oc.ipStart oc.l4Start oc.ipCso) oc.ipStart oc.l4Start oc.l4Cso

/-! ## Output (`42_offload.md` R212, R221, R223) -/

/-- The wire frame of `WireOut` (R221). -/
def wireFrame (oc : OffloadCtx) (g : List Byte) : List Byte :=
  if oc.vlan then slice g 0 12 ++ [0x81, 0x00, oc.tci.extractLsb' 8 8, oc.tci.extractLsb' 0 8] ++ g.drop 12 else g

/-- The single-frame path (R212), before VLAN insertion. -/
def singleFrame (oc : OffloadCtx) (f : List Byte) : List Byte :=
  let g := if oc.ipcs then ipCk f oc.ipStart oc.l4Start oc.ipCso else f
  if oc.l4cs then l4Ck g oc.ipStart oc.l4Start oc.l4Cso else g

/-- The frames `Emit(f, d)` sends, in order, or `none` for `BADOFL` (R223). -/
def emit (oc : OffloadCtx) (f : List Byte) : Option (List (List Byte)) :=
  if f.length = 0 then some []
  else if !vlanValid oc f.length then none
  else if oc.tso then
    if tsoValid oc f then some ((List.range (segCount oc f)).map fun k => wireFrame oc (segment oc f k)) else none
  else if !ipcsValid oc f.length then none
  else if !l4csValid oc f.length then none
  else some [wireFrame oc (singleFrame oc f)]

end Sys2Proof.Machine
end

