-- ==== Sys2Proof/Machine/Tx.lean ====
section
/-!
DEFINITION. The TX path (`spec/41_tx_path.md`): the start of a run, one turn of its loop for a fetched
descriptor (R176), its end, and the meanings of the six `TXD` rows.
-/

namespace Sys2Proof.Machine

/-! ## Start and end of a run -/

/-- End of a run (`41_tx_path.md` R174): both causes, when both apply, before the one evaluation. -/
def endRun (st : TxState) (s : State) : State :=
  let s1 := { s with eng.txState := st }
  let s2 := if st = .stalled then raiseCause causeTxStall s1 else s1
  let s3 := if s.op.unsignalled then raiseCause causeTxDone s2 else s2
  endOp (irqEval s3)

/-- The TX doorbell up to the loop head (`41_tx_path.md` R161, R162). -/
def txStart (s : State) : State :=
  if !s.eng.txEn then endOp s
  else if s.eng.txr.cap = 0 then endOp (irqEval (raiseCause causeTxStall { s with eng.txState := .stalled }))
  else { s with eng.txState := .draining, op := { phase := .txRun } }

/-- A faulting fetch ends the run as a host-owned descriptor does (`41_tx_path.md` R164,
`40_ring_and_descriptor.md` R141). -/
def txFetchFault (s : State) : State := endRun .idle s

/-! ## One descriptor -/

/-- Opening or continuing a frame (`41_tx_path.md` R166, R167). -/
def openFrame (fs : Bool) (pf : PendingFrame) : PendingFrame :=
  if fs then { isOpen := true, buf := [], err := none }
  else if pf.isOpen then pf
  else { isOpen := true, buf := [], err := some .seqErr }

/-- A first segment discards a frame left open: the `SEQERR` flag of `41_tx_path.md` R166. -/
def seqFlag (fs : Bool) (pf : PendingFrame) : Bool := fs && pf.isOpen

/-- A frame is rejected or discarded: `CNT_TX_REJ` (`10_state.md` R48). -/
def countTxRej (s : State) : State := { s with eng.cntTxRej := s.eng.cntTxRej + 1 }

/-- The framing step (`41_tx_path.md` R166, R167). -/
def txOpen (fs : Bool) (s : State) : State :=
  let s1 := if seqFlag fs s.eng.pf then countTxRej s else s
  { s1 with eng.pf := openFrame fs s.eng.pf }

/-- The length check and the copy (`41_tx_path.md` R168, R169); false when the buffer read faulted. -/
def txCopy (d : TxFields) (s : State) : Bool × State :=
  if s.eng.pf.err ≠ none then (true, s)
  else if s.cfg.maxFrame - s.eng.pf.buf.length < d.len.toNat then (true, { s with eng.pf.err := some .oversize })
  else if d.len = 0 then (true, s)
  else
    let (r, t) := memRead d.buf d.len.toNat s
    match r with
    | some b => (true, { t with eng.pf.buf := t.eng.pf.buf ++ b })
    | none => (false, t)

/-- `Send(wire)` and its count (`42_offload.md` R222). -/
def sendFrame (wire : List Byte) (s : State) : State :=
  logEvent (.send wire) { s with eng.cntTxFrames := s.eng.cntTxFrames + 1 }

/-- The `Send` calls of one `Emit`, in segment order (`42_offload.md` R222). -/
def sendAll : List (List Byte) → State → State
  | [], s => s
  | w :: ws, s => sendAll ws (sendFrame w s)

/-- Closing a frame (`41_tx_path.md` R171), without the reset of `pf`. -/
def txClose (oc : OffloadCtx) (s : State) : State :=
  let s1 :=
    if s.eng.pf.err = none then
      match emit oc s.eng.pf.buf with
      | some frames => sendAll frames s
      | none => { s with eng.pf.err := some .badOfl }
    else s
  if s1.eng.pf.err = none then s1 else countTxRej s1

/-- `pf <- reset` (`10_state.md` R23). -/
def resetPf (s : State) : State := { s with eng.pf := {} }

/-- The closing step of a descriptor, if it is a last segment, and the status of `41_tx_path.md` R172. -/
def txFinish (ls : Bool) (flag : Bool) (oc : OffloadCtx) (s : State) : Word × State :=
  if ls then
    let s1 := txClose oc s
    (txStatus flag s1.eng.pf.err, resetPf s1)
  else (txStatus flag s.eng.pf.err, s)

/-- After a successful writeback (`41_tx_path.md` R172, R173): advance, count, per-descriptor interrupt; the
run goes on at its loop head. -/
def txAdvance (d : TxFields) (s : State) : State :=
  let s1 := { s with eng.txr.idx := advance s.eng.txr s.eng.txr.idx d.eor, op.consumed := s.op.consumed + 1,
                     op.unsignalled := true, op.phase := .txRun }
  if d.irq then
    let s2 := irqEval (raiseCause causeTxDone s1)
    { s2 with op.unsignalled := false }
  else s1

/-- The writeback and what follows it (`41_tx_path.md` R172). -/
def txComplete (a : Addr) (w0 st : Word) (d : TxFields) (s : State) : State :=
  let (ok, t) := writeback a (txWritebackWord w0 st) s
  if ok then txAdvance d t else endRun .idle t

/-- One turn of the loop of `41_tx_path.md` R176 for a device-owned descriptor `d` at the cursor, from the run
bound (R163) on. -/
def txDescriptor (ipcs l4cs tso : Bool) (d : TxFields) (s : State) : State :=
  if s.op.consumed = s.eng.txr.cap.toNat then endRun .stalled s
  else
    let fs := (framing s.eng d).1
    let ls := (framing s.eng d).2
    let (ok, t) := txCopy d (txOpen fs s)
    if ok then
      let (st, u) := txFinish ls (seqFlag fs s.eng.pf) (offloadCtx ipcs l4cs tso d) t
      txComplete (txSlot s) (txWord0 true ipcs l4cs tso d) st d u
    else endRun .idle { t with eng.pf := s.eng.pf, eng.cntTxRej := s.eng.cntTxRej }

/-! ## The meanings of the `TXD` rows -/

/-- `TXD.HOST` (`41_tx_path.md` R164): not executed; the run ends Idle. -/
def execTxdHost (_ipcs _l4cs _tso : Bool) (_d : TxFields) (s : State) : Host.Outcome State Fault Refusal :=
  .next (endRun .idle s)

/-- `TXD.SEND` (`41_tx_path.md` R176). -/
def execTxdSend (d : TxFields) (s : State) : Host.Outcome State Fault Refusal :=
  .next (txDescriptor false false false d s)

/-- `TXD.IPCS` (`42_offload.md` R212). -/
def execTxdIpcs (d : TxFields) (s : State) : Host.Outcome State Fault Refusal :=
  .next (txDescriptor true false false d s)

/-- `TXD.L4CS` (`42_offload.md` R212). -/
def execTxdL4cs (d : TxFields) (s : State) : Host.Outcome State Fault Refusal :=
  .next (txDescriptor false true false d s)

/-- `TXD.IPL4CS` (`42_offload.md` R212): IP first. -/
def execTxdIpl4cs (d : TxFields) (s : State) : Host.Outcome State Fault Refusal :=
  .next (txDescriptor true true false d s)

/-- `TXD.TSO` (`42_offload.md` R213). -/
def execTxdTso (ipcs l4cs : Bool) (d : TxFields) (s : State) : Host.Outcome State Fault Refusal :=
  .next (txDescriptor ipcs l4cs true d s)

end Sys2Proof.Machine
end

