-- ==== Sys2Proof/Machine/RegWrite.lean ====
section
/-!
DEFINITION. Register writes (`spec/44_register_window.md` R290 to R299, R304, R305, R308;
`spec/60_exceptions.md` R343, R344): the meanings of the fifteen `REGW` rows. One instruction is one byte
lane; it stores its byte (R292) and notes its trigger, and the last lane of the access fires the trigger
(R293, R294).
-/

namespace Sys2Proof.Machine

/-! ## The two phases of a write -/

/-- The RX doorbell (`44_register_window.md` R305). -/
def rxDoorbell (s : State) : State := { s with eng.rxNores := false }

/-- Second phase (`44_register_window.md` R293, R294): the trigger the access covered fires. -/
def fireTrigger (s : State) : State :=
  match s.op.trig with
  | none => endOp s
  | some .command => { s with op := { phase := .command } }
  | some .txDoorbell => txStart s
  | some .rxDoorbell => endOp (rxDoorbell s)
  | some .irqEval => endOp (irqEval s)

/-- After a lane is stored: go on with the next lane, or fire. -/
def endLane (s : State) : State := if s.op.lanes = [] then fireTrigger s else { s with op.phase := .lanes }

/-- The access covers a trigger lane (`44_register_window.md` R294: whatever value is written). -/
def noteTrigger (t : Trigger) (s : State) : State := { s with op.trig := some t }

/-! ## Lanes without a side effect -/

/-- `CTRL.W` (`44_register_window.md` R297): only lane 0 holds implemented bits. -/
def execCtrlW (lane : BitVec 2) (v : Byte) (s : State) : Host.Outcome State Fault Refusal :=
  .next (endLane (if lane = 0 then { s with eng.ctrl := v.extractLsb' 0 5 } else s))

/-- `CMD.STORE` (`44_register_window.md` R292): the low byte of `CMD`; executes nothing. -/
def execCmdStore (v : Byte) (s : State) : Host.Outcome State Fault Refusal :=
  .next (endLane { s with eng.cmd := setLane16 s.eng.cmd 0 v })

/-- `RING.STAGE.TX_BASE` (`44_register_window.md` R298): lanes 0 to 3 are `TX_BASE_LO`, 4 to 7 `TX_BASE_HI`. -/
def execRingStageTxBase (lane : BitVec 3) (v : Byte) (s : State) : Host.Outcome State Fault Refusal :=
  .next (endLane (if lane.getLsbD 2 then { s with eng.txBaseHi := setLane s.eng.txBaseHi (lane.extractLsb' 0 2) v }
                  else { s with eng.txBaseLo := setLane s.eng.txBaseLo (lane.extractLsb' 0 2) v }))

/-- `RING.STAGE.TX_LEN` (`44_register_window.md` R298). -/
def execRingStageTxLen (lane : BitVec 2) (v : Byte) (s : State) : Host.Outcome State Fault Refusal :=
  .next (endLane { s with eng.txLen := setLane16 s.eng.txLen lane v })

/-- `RING.STAGE.RX_BASE` (`44_register_window.md` R298): lanes 0 to 3 are `RX_BASE_LO`, 4 to 7 `RX_BASE_HI`. -/
def execRingStageRxBase (lane : BitVec 3) (v : Byte) (s : State) : Host.Outcome State Fault Refusal :=
  .next (endLane (if lane.getLsbD 2 then { s with eng.rxBaseHi := setLane s.eng.rxBaseHi (lane.extractLsb' 0 2) v }
                  else { s with eng.rxBaseLo := setLane s.eng.rxBaseLo (lane.extractLsb' 0 2) v }))

/-- `RING.STAGE.RX_LEN` (`44_register_window.md` R298). -/
def execRingStageRxLen (lane : BitVec 2) (v : Byte) (s : State) : Host.Outcome State Fault Refusal :=
  .next (endLane { s with eng.rxLen := setLane16 s.eng.rxLen lane v })

/-- `FILTER.W.MAC` (`44_register_window.md` R299): lanes 0 to 3 are `MAC_LO`, 4 and 5 the implemented lanes of
`MAC_HI`. -/
def execFilterWMac (lane : BitVec 3) (v : Byte) (s : State) : Host.Outcome State Fault Refusal :=
  .next (endLane (if lane.getLsbD 2 then { s with eng.macHi := setLane16 s.eng.macHi (lane.extractLsb' 0 2) v }
                  else { s with eng.macLo := setLane s.eng.macLo (lane.extractLsb' 0 2) v }))

/-- `FILTER.W.MHASH` (`44_register_window.md` R299): lanes 0 to 3 are `MHASH_LO`, 4 to 7 `MHASH_HI`. -/
def execFilterWMhash (lane : BitVec 3) (v : Byte) (s : State) : Host.Outcome State Fault Refusal :=
  .next (endLane (if lane.getLsbD 2 then { s with eng.mhashHi := setLane s.eng.mhashHi (lane.extractLsb' 0 2) v }
                  else { s with eng.mhashLo := setLane s.eng.mhashLo (lane.extractLsb' 0 2) v }))

/-- `FILTER.W.RX_FILTER` (`44_register_window.md` R299): only lane 0 holds implemented bits. -/
def execFilterWRxFilter (lane : BitVec 2) (v : Byte) (s : State) : Host.Outcome State Fault Refusal :=
  .next (endLane (if lane = 0 then { s with eng.rxFilter := v.extractLsb' 0 4 } else s))

/-- `REGW.NONE` (`10_state.md` R49): the byte is dropped. -/
def execRegwNone (_off : Byte) (_v : Byte) (s : State) : Host.Outcome State Fault Refusal := .next (endLane s)

/-! ## Lanes with a trigger -/

/-- `CMD.X` (`44_register_window.md` R300): the high byte of `CMD`; the command executes when the access's
bytes are stored. -/
def execCmdX (v : Byte) (s : State) : Host.Outcome State Fault Refusal :=
  .next (endLane (noteTrigger .command { s with eng.cmd := setLane16 s.eng.cmd 1 v }))

/-- `ICAUSE.ACK` (`60_exceptions.md` R343): AND-NOT the written bits; only lane 0 holds implemented bits. -/
def execIcauseAck (lane : BitVec 2) (v : Byte) (s : State) : Host.Outcome State Fault Refusal :=
  .next (endLane (noteTrigger .irqEval
    (if lane = 0 then { s with eng.icause := s.eng.icause &&& ~~~(v.extractLsb' 0 4) } else s)))

/-- `IMASK.W` (`60_exceptions.md` R344): replace; only lane 0 holds implemented bits. -/
def execImaskW (lane : BitVec 2) (v : Byte) (s : State) : Host.Outcome State Fault Refusal :=
  .next (endLane (noteTrigger .irqEval (if lane = 0 then { s with eng.imask := v.extractLsb' 0 4 } else s)))

/-- `TX_DB.W` (`44_register_window.md` R304): stores nothing; the TX doorbell. -/
def execTxDbW (_v : Byte) (s : State) : Host.Outcome State Fault Refusal :=
  .next (endLane (noteTrigger .txDoorbell s))

/-- `RX_DB.W` (`44_register_window.md` R305): stores nothing; the RX doorbell. -/
def execRxDbW (_v : Byte) (s : State) : Host.Outcome State Fault Refusal :=
  .next (endLane (noteTrigger .rxDoorbell s))

end Sys2Proof.Machine
end

