-- ==== Sys2Proof/Machine/Rx.lean ====
section
/-!
DEFINITION. The filter engine and the RX path (`spec/43_rx_filter.md`): classification, the CRC tail, the
start of a delivery, the pre-scan, the write phase, the overrun, and the meanings of the two `RXD` rows.
-/

namespace Sys2Proof.Machine

/-! ## The two CRCs -/

/-- One bit of the multicast hash (`43_rx_filter.md` R245). -/
def hashBit (crc : Word) (b : Bool) : Word :=
  let carry := crc.getLsbD 31 != b
  let c := crc <<< 1
  if carry then c ^^^ 0x04C11DB7 else c

/-- One byte of the multicast hash, bit 0 first. -/
def hashByte (crc : Word) (b : Byte) : Word := (List.range 8).foldl (fun c j => hashBit c (b.getLsbD j)) crc

/-- The CRC of a destination address (`43_rx_filter.md` R245). -/
def hashCrc (dst : List Byte) : Word := dst.foldl hashByte 0xFFFFFFFF

/-- `mhash_index(dst)` (`43_rx_filter.md` R245): the top six bits. -/
def mhashIndex (dst : List Byte) : BitVec 6 := (hashCrc dst).extractLsb' 26 6

/-- One bit of the frame check sequence (`43_rx_filter.md` R261). -/
def fcsBit (c : Word) : Word := if c.getLsbD 0 then (c >>> 1) ^^^ 0xEDB88320 else c >>> 1

/-- One byte of the frame check sequence. -/
def fcsByte (c : Word) (b : Byte) : Word := (List.range 8).foldl (fun c _ => fcsBit c) (c ^^^ b.setWidth 32)

/-- `crc32(f)` (`43_rx_filter.md` R261). -/
def crc32 (f : List Byte) : Word := f.foldl fcsByte 0xFFFFFFFF ^^^ 0xFFFFFFFF

/-! ## Classification -/

/-- `classify(f)` (`43_rx_filter.md` R242); `none` is `reject`. -/
def classify (e : Engine) (f : List Byte) : Option MatchKind :=
  let dst := f.take 6
  let own : Option MatchKind :=
    if dst = List.replicate 6 0xFF then (if e.accBcast then some .broadcast else none)
    else if (byteAt dst 0).getLsbD 0 then
      (if e.accMcast && (mhash e).getLsbD (mhashIndex dst).toNat then some .multicast else none)
    else (if e.accUcast && dst = macBytes e then some .unicast else none)
  if f.length < 6 then none
  else
    match own with
    | some m => some m
    | none => if e.promisc then some .promiscuous else none

/-- The VLAN indication (`43_rx_filter.md` R252). -/
def vlanTagged (f : List Byte) : Bool := decide (14 ≤ f.length) && byteAt f 12 == 0x81 && byteAt f 13 == 0x00

/-- The bytes to deliver: the frame and its CRC tail (`43_rx_filter.md` R261). -/
def deliveryBytes (e : Engine) (f : List Byte) : List Byte := if e.rxCrc then f ++ le32 (crc32 f) else f

/-! ## Overrun and start of a delivery -/

/-- `Overrun()` (`43_rx_filter.md` R263): the frame is dropped. -/
def overrun (s : State) : State :=
  let s1 := raiseCause causeRxOvr s
  endOp (irqEval { s1 with eng.cntRxMissed := s1.eng.cntRxMissed + 1, eng.rxNores := true })

/-- `receive(f)` up to the first fetch (`43_rx_filter.md` R241, R251, R260 to R262, R269). -/
def receive (f : List Byte) (s : State) : State :=
  if !s.eng.rxEn then endOp s
  else
    match classify s.eng f with
    | none => endOp s
    | some m =>
      if s.eng.rxr.cap = 0 then overrun s
      else
        { s with op := { phase := .rxScan,
                         rx := { kind := m, vl := vlanTagged f, data := deliveryBytes s.eng f, chain := [],
                                 next := s.eng.rxr.idx } } }

/-- `can_receive()` (`43_rx_filter.md` R240). -/
def canReceive (s : State) : State := logEvent (.canReceiveData s.eng.rxEn) s

/-- A faulting fetch is treated as a host-owned descriptor (`43_rx_filter.md` R263, R266). -/
def rxFetchFault (s : State) : State := overrun s

/-! ## Descriptors of a delivery -/

/-- The frame is too large for the first descriptor (`43_rx_filter.md` R264). -/
def rxTooLarge (s : State) (d : RxFields) : Bool :=
  decide (s.cfg.maxFrame < s.op.rx.data.length)
    || (!s.eng.rxChain && decide (d.len.toNat < s.op.rx.data.length))

/-- `RaiseCause(RXDONE); IrqEval()`, and the delivery ends. -/
def rxSignal (s : State) : State := endOp (irqEval (raiseCause causeRxDone s))

/-- The oversize drop (`43_rx_filter.md` R264): one descriptor carries the error status. -/
def rxOversize (d : RxFields) (s : State) : State :=
  let ix := s.op.rx.next
  let st := rxOversizeStatus s.op.rx.vl s.op.rx.kind
  let (ok, t) := writeback (slotAddr s.eng.rxr ix) (rxWritebackWord (rxWord0 true d) st) s
  if ok then
    rxSignal { t with eng.rxr.idx := advance t.eng.rxr ix d.eor, eng.cntRxErr := t.eng.cntRxErr + 1 }
  else endOp t

/-- The buffer write of one descriptor (`43_rx_filter.md` R267): no call when it has no bytes to take. -/
def rxStore (a : Addr) (bs : List Byte) (s : State) : Bool × State :=
  if bs = [] then (true, s) else memWrite a bs s

/-- One element of the write phase (`43_rx_filter.md` R267): buffer, writeback, advance. `rest` is what is left
of the data from `off` on. -/
def rxWriteSlot (sl : RxSlot) (first last : Bool) (rest : List Byte) (s : State) : Bool × State :=
  let bs := rest.take sl.d.len.toNat
  let (ok, t) := rxStore sl.d.buf bs s
  if ok then
    let st := rxStatus first last s.op.rx.vl s.op.rx.kind bs.length
    let (ok', u) := writeback sl.addr (rxWritebackWord (rxWord0 true sl.d) st) t
    if ok' then (true, { u with eng.rxr.idx := advance u.eng.rxr sl.idx sl.d.eor }) else (false, u)
  else (false, t)

/-- The write phase over the chain (`43_rx_filter.md` R267); false when a write faulted. -/
def rxWriteChain : List RxSlot → Bool → List Byte → State → Bool × State
  | [], _, _, s => (true, s)
  | sl :: more, first, rest, s =>
    let (ok, t) := rxWriteSlot sl first more.isEmpty rest s
    if ok then rxWriteChain more false (rest.drop sl.d.len.toNat) t else (false, t)

/-- The write phase and the completion (`43_rx_filter.md` R267, R268); on a fault the call returns as things
stand. -/
def rxDeliver (chain : List RxSlot) (s : State) : State :=
  let (ok, t) := rxWriteChain chain true s.op.rx.data s
  if ok then rxSignal { t with eng.cntRxFrames := t.eng.cntRxFrames + 1 } else endOp t

/-- `capsum`: the buffer bytes of a chain (`43_rx_filter.md` R266). -/
def chainCap (chain : List RxSlot) : Nat := (chain.map fun sl => sl.d.len.toNat).sum

/-- The pre-scan with one more device-owned descriptor (`43_rx_filter.md` R266): deliver if the chain holds the
data, overrun if the scan has lapped the ring, else fetch the next slot. -/
def rxExtend (d : RxFields) (s : State) : State :=
  let ix := s.op.rx.next
  let chain := s.op.rx.chain ++ [{ idx := ix, addr := slotAddr s.eng.rxr ix, d := d }]
  let next := advance s.eng.rxr ix d.eor
  if s.op.rx.data.length ≤ chainCap chain then rxDeliver chain s
  else if chain.any fun sl => sl.idx == next then overrun s
  else { s with op.phase := .rxScan, op.rx.chain := chain, op.rx.next := next }

/-- A device-owned descriptor of a delivery (`43_rx_filter.md` R269): the first one is tested for an oversize
drop. -/
def rxDescriptor (d : RxFields) (s : State) : State :=
  if s.op.rx.chain.isEmpty && rxTooLarge s d then rxOversize d s else rxExtend d s

/-! ## The meanings of the `RXD` rows -/

/-- `RXD.HOST` (`43_rx_filter.md` R263, R266): no free descriptor, overrun. -/
def execRxdHost (_d : RxFields) (s : State) : Host.Outcome State Fault Refusal := .next (overrun s)

/-- `RXD.FREE` (`43_rx_filter.md` R269). -/
def execRxdFree (d : RxFields) (s : State) : Host.Outcome State Fault Refusal := .next (rxDescriptor d s)

end Sys2Proof.Machine
end

