-- ==== Sys2Proof/Machine/Dispatch.lean ====
section
/-!
DEFINITION. One arm per row of `spec/opcode_table.json`.
-/

namespace Sys2Proof.Machine

def exec (i : Instr) (s : State) : Host.Outcome State Fault Refusal :=
  match i with
  | .txdHost ipcs l4cs tso d => Sys2Proof.Machine.execTxdHost ipcs l4cs tso d s
  | .txdSend d => Sys2Proof.Machine.execTxdSend d s
  | .txdIpcs d => Sys2Proof.Machine.execTxdIpcs d s
  | .txdL4cs d => Sys2Proof.Machine.execTxdL4cs d s
  | .txdIpl4cs d => Sys2Proof.Machine.execTxdIpl4cs d s
  | .txdTso ipcs l4cs d => Sys2Proof.Machine.execTxdTso ipcs l4cs d s
  | .rxdHost d => Sys2Proof.Machine.execRxdHost d s
  | .rxdFree d => Sys2Proof.Machine.execRxdFree d s
  | .softReset arg => Sys2Proof.Machine.execSoftReset arg s
  | .hardReset arg => Sys2Proof.Machine.execHardReset arg s
  | .loadTxRing arg => Sys2Proof.Machine.execLoadTxRing arg s
  | .loadRxRing arg => Sys2Proof.Machine.execLoadRxRing arg s
  | .cmdReserved op arg => Sys2Proof.Machine.execCmdReserved op arg s
  | .ctrlW lane v => Sys2Proof.Machine.execCtrlW lane v s
  | .cmdStore v => Sys2Proof.Machine.execCmdStore v s
  | .cmdX v => Sys2Proof.Machine.execCmdX v s
  | .icauseAck lane v => Sys2Proof.Machine.execIcauseAck lane v s
  | .imaskW lane v => Sys2Proof.Machine.execImaskW lane v s
  | .ringStageTxBase lane v => Sys2Proof.Machine.execRingStageTxBase lane v s
  | .ringStageTxLen lane v => Sys2Proof.Machine.execRingStageTxLen lane v s
  | .ringStageRxBase lane v => Sys2Proof.Machine.execRingStageRxBase lane v s
  | .ringStageRxLen lane v => Sys2Proof.Machine.execRingStageRxLen lane v s
  | .txDbW v => Sys2Proof.Machine.execTxDbW v s
  | .rxDbW v => Sys2Proof.Machine.execRxDbW v s
  | .filterWMac lane v => Sys2Proof.Machine.execFilterWMac lane v s
  | .filterWMhash lane v => Sys2Proof.Machine.execFilterWMhash lane v s
  | .filterWRxFilter lane v => Sys2Proof.Machine.execFilterWRxFilter lane v s
  | .regwNone off v => Sys2Proof.Machine.execRegwNone off v s
  | .regR off n => Sys2Proof.Machine.execRegR off n s

end Sys2Proof.Machine
end

