-- ==== Sys2Proof/Machine/Fetch.lean ====
section
/-!
DEFINITION. Where the next instruction comes from. The engine has no instruction memory: what it decodes next
is a descriptor of the ring it walks, the command in `CMD`, a byte lane of the register write in progress, or
the register read presented to it (`spec/30_encoding.md` R100, R119). `fetchNext` finds it; where the next
thing to happen is no instruction (a `receive` call, a faulting fetch, nothing at all), it says what happens.
-/

namespace Sys2Proof.Machine

/-- What comes next: the bytes of an instruction with their format and the state after the fetch, or a state
reached without one. -/
inductive Fetched where
  | instr (fmt : Format) (bytes : List Byte) (s : State)
  | other (s : State)
deriving DecidableEq, Repr

/-- Phase `lanes`: the next byte lane of a register write (`44_register_window.md` R292). -/
def fetchLane (s : State) : Fetched :=
  match s.op.lanes with
  | [] => .other (fireTrigger s)
  | (o, b) :: rest => .instr .regw [o, b] { s with op.lanes := rest }

/-- Phase `txRun`: the descriptor at the TX cursor (`41_tx_path.md` R164). -/
def fetchTx (s : State) : Fetched :=
  match fetchSlot s.eng.txr s.eng.txr.idx s with
  | (some bs, t) => .instr .txd bs t
  | (none, t) => .other (txFetchFault t)

/-- Phase `rxScan`: the descriptor the delivery needs next (`43_rx_filter.md` R263, R266). -/
def fetchRx (s : State) : Fetched :=
  match fetchSlot s.eng.rxr s.op.rx.next s with
  | (some bs, t) => .instr .rxd bs t
  | (none, t) => .other (rxFetchFault t)

/-- Phase `idle`: the next operation presented (`00_scope.md` R12). With none, nothing happens
(`70_reset_and_hazards.md` R381). -/
def fetchInput (s : State) : Fetched :=
  match s.inputs with
  | [] => .other s
  | .regRead o n :: rest => .instr .regr [o, encodeSize n] { s with inputs := rest }
  | .regWrite o n v :: rest =>
    .other { s with inputs := rest, op := { phase := .lanes, lanes := coveredLanes o n v } }
  | .receive f :: rest => .other (receive f { s with inputs := rest })
  | .canReceive :: rest => .other (canReceive { s with inputs := rest })
  | .guestStore st :: rest => .other { s with inputs := rest, mem := applyStores [st] s.mem }

/-- What comes next, by the phase of the operation in progress. -/
def fetchNext (s : State) : Fetched :=
  match s.op.phase with
  | .idle => fetchInput s
  | .lanes => fetchLane s
  | .command => .instr .cmd16 (le16 s.eng.cmd) s
  | .txRun => fetchTx s
  | .rxScan => fetchRx s

/-! ## Placing an instruction where it is fetched next -/

/-- A ring with at least one slot, so that its cursor can be fetched from (`40_ring_and_descriptor.md` R140). -/
def withSlot (r : Cursor) : Cursor := if r.cap = 0 then { r with cap := 1 } else r

/-- A TX run at its loop head whose cursor names a slot that holds these bytes, the collaborator answering as
plain RAM. -/
def placeTx (bs : List Byte) (s : State) : State :=
  { s with eng.ctrl := s.eng.ctrl ||| 1, eng.txState := .draining, eng.txr := withSlot s.eng.txr,
           op := { phase := .txRun }, replies := [],
           mem := s.mem.writeBytes (slotAddr s.eng.txr s.eng.txr.idx).toNat bs }

/-- The command register holds these two bytes and the command is to execute. -/
def placeCmd (bs : List Byte) (s : State) : State :=
  { s with eng.cmd := byteAt bs 1 ++ byteAt bs 0, op := { phase := .command } }

/-- A register write with this one lane left to store. -/
def placeLane (bs : List Byte) (s : State) : State :=
  { s with op := { phase := .lanes, lanes := [(byteAt bs 0, byteAt bs 1)] } }

/-- The bytes of an instruction of a format put where the next step fetches it. -/
def place (fmt : Format) (bs : List Byte) (s : State) : State :=
  match fmt with
  | .txd => placeTx bs s
  | .cmd16 => placeCmd bs s
  | .regw => placeLane bs s
  | .rxd => { s with eng.ctrl := s.eng.ctrl ||| 2, eng.rxr := withSlot s.eng.rxr,
                     op := { phase := .rxScan, rx := { next := s.eng.rxr.idx } }, replies := [],
                     mem := s.mem.writeBytes (slotAddr s.eng.rxr s.eng.rxr.idx).toNat bs }
  | .regr => { s with op := {},
                      inputs := .regRead (byteAt bs 0) ((decodeSize (byteAt bs 1)).getD .one) :: s.inputs }

end Sys2Proof.Machine
end

