-- ==== Sys2Proof/Machine/Step.lean ====
section
/-!
DEFINITION. One step of the machine: what `fetchNext` finds is decoded and executed. One step is one
instruction of the opcode table, so a TX run or a delivery is several steps; no input is taken between them
(assumption log 3; `Machine/Operation.lean` runs a whole operation).
-/

namespace Sys2Proof.Machine

/-- One step. -/
def step (s : State) : Host.Outcome State Fault Refusal :=
  match fetchNext s with
  | .other t => .next t
  | .instr fmt bs t =>
    match decode fmt bs with
    | .ok i => exec i t
    | .error e => .fault (.undecodable e)

/-- The opcode-table word `w` of `nbits` bits placed where the next step fetches it, in the format the width
alone is read in (assumption logs 4, 5). A width of no format changes nothing. -/
def State.withFetchWord (s : State) (nbits w : Nat) : State :=
  match tableFormat nbits with
  | some fmt => place fmt (tableEncoding fmt nbits w) s
  | none => s

end Sys2Proof.Machine
end

