-- ==== Sys2Proof/Machine/Operation.lean ====
section
/-!
DEFINITION. A whole operation as one step (`spec/00_scope.md` R12; `spec/70_reset_and_hazards.md` R402: a model
takes a TX run as one step). `operate` runs `step` until no operation is in progress.
-/

namespace Sys2Proof.Machine

/-- Steps until the operation in progress has ended, at most `n`. -/
def settle : Nat → State → Host.Outcome State Fault Refusal
  | 0, s => .next s
  | n + 1, s =>
    if s.op.phase = .idle then .next s
    else
      match step s with
      | .next t => settle n t
      | .fault r => .fault r
      | .refused r => .refused r

/-- A bound on the steps an operation in progress can still take: its lanes, the command or the doorbell, and
one visit of every slot of a ring with one fetch more (`41_tx_path.md` R177, `43_rx_filter.md` R266). -/
def operationBound (s : State) : Nat := s.op.lanes.length + s.eng.txr.cap.toNat + s.eng.rxr.cap.toNat + 3

/-- The next operation, whole: its first step, and then steps until it has ended. -/
def operate (s : State) : Host.Outcome State Fault Refusal :=
  match step s with
  | .next t => settle (operationBound t) t
  | .fault r => .fault r
  | .refused r => .refused r

end Sys2Proof.Machine
end

