-- ==== Sys2Proof/Safety.lean ====
section
/-!
DEFINITION. What claims about the machine speak of: the invariant of a sound state (`spec/10_state.md` R22,
R23, R25, R27; `spec/44_register_window.md` R294; `spec/43_rx_filter.md` R266), what a register write leaves in
the window (R30, R292), the device-owned TX rows as one operation (`spec/30_encoding.md` R119), and what the
engine may change.
-/

namespace Sys2Proof.Machine

/-! ## The invariant -/

/-- `10_state.md` R22: the index is below the capacity, and 0 when no ring is configured. -/
def Cursor.Ok (r : Cursor) : Prop := (r.cap = 0 → r.idx = 0) ∧ (r.cap ≠ 0 → r.idx.toNat < r.cap.toNat)

/-- `10_state.md` R23: what a pending frame looks like between two descriptors. -/
structure PendingFrame.Ok (maxFrame : Nat) (pf : PendingFrame) : Prop where
  /-- `len <= MAX_FRAME`. -/
  fits : pf.buf.length ≤ maxFrame
  /-- A closed frame holds the reset value. -/
  closed : pf.isOpen = false → pf = {}
  /-- `BADOFL` is marked only while a frame is being closed (`41_tx_path.md` R171). -/
  mark : pf.err ≠ some .badOfl
  /-- A frame opened in the rejected condition holds no byte (`41_tx_path.md` R167). -/
  orphan : pf.err = some .seqErr → pf.buf = []

/-- The trigger a lane fires (`44_register_window.md` R294). -/
def laneTrigger (o : Byte) : Option Trigger :=
  if o = 0x09 then some .command
  else if o = 0x40 then some .txDoorbell
  else if o = 0x44 then some .rxDoorbell
  else if 0x10 ≤ o.toNat ∧ o.toNat ≤ 0x17 then some .irqEval
  else none

/-- A trigger the write in progress has covered or will cover. -/
def Op.Mentions (op : Op) (t : Trigger) : Prop := op.trig = some t ∨ ∃ l ∈ op.lanes, laneTrigger l.1 = some t

/-- A delivery between two fetches of its pre-scan (`43_rx_filter.md` R266). -/
structure RxScanOk (s : State) : Prop where
  enabled : s.eng.rxEn = true
  ring : s.eng.rxr.cap ≠ 0
  /-- An accepted frame has a destination address (`43_rx_filter.md` R270 (a)). -/
  frame : 6 ≤ s.op.rx.data.length
  /-- The scan starts at the cursor. -/
  first : (s.op.rx.chain.map RxSlot.idx ++ [s.op.rx.next]).head? = some s.eng.rxr.idx
  /-- No slot is visited twice. -/
  fresh : (s.op.rx.chain.map RxSlot.idx ++ [s.op.rx.next]).Nodup
  /-- Every slot visited is a slot of the ring. -/
  inside : ∀ ix ∈ s.op.rx.chain.map RxSlot.idx ++ [s.op.rx.next], ix.toNat < s.eng.rxr.cap.toNat
  addr : ∀ sl ∈ s.op.rx.chain, sl.addr = slotAddr s.eng.rxr sl.idx
  /-- The descriptors found so far do not hold the frame. -/
  short : chainCap s.op.rx.chain < s.op.rx.data.length
  /-- Only chained mode fetches a second descriptor, and only for a frame within `MAX_FRAME`. -/
  chained : s.op.rx.chain ≠ [] → s.eng.rxChain = true ∧ s.op.rx.data.length ≤ s.cfg.maxFrame

/-- The invariant of the machine: it holds after reset and every step keeps it. -/
structure Inv (s : State) : Prop where
  /-- Guest memory is in canonical form. -/
  mem : s.mem.wf = true
  /-- `10_state.md` R22. -/
  txr : s.eng.txr.Ok
  rxr : s.eng.rxr.Ok
  /-- `10_state.md` R23. -/
  pf : s.eng.pf.Ok s.cfg.maxFrame
  /-- `10_state.md` R25: `Draining` holds only inside a TX run. -/
  draining : s.eng.txState = .draining ↔ s.op.phase = .txRun
  /-- `10_state.md` R27: the line follows cause and mask, but for the stored and not yet evaluated lanes of an
  `ICAUSE` or `IMASK` write. -/
  line : s.eng.irqLine = s.eng.lineWanted ∨ (s.op.phase = .lanes ∧ s.op.trig = some .irqEval)
  /-- At rest nothing of an operation is left (`10_state.md` R20, R28). -/
  rest : s.op.phase = .idle → s.op = {}
  /-- A write in progress has a lane to store, and covers at most one trigger (`44_register_window.md` R294). -/
  lanes : s.op.phase = .lanes → s.op.lanes ≠ [] ∧ ∀ t u, s.op.Mentions t → s.op.Mentions u → t = u
  command : s.op.phase = .command → s.op = { phase := .command }
  /-- `41_tx_path.md` R161, R163: a run has a ring and has consumed at most its capacity. -/
  txRun : s.op.phase = .txRun →
    s.eng.txEn = true ∧ s.eng.txr.cap ≠ 0 ∧ s.op.consumed ≤ s.eng.txr.cap.toNat
      ∧ (s.op.unsignalled = true → s.op.consumed ≠ 0)
  rxScan : s.op.phase = .rxScan → RxScanOk s

/-! ## Register writes seen through the window -/

/-- The implemented bits of the `RW` registers, lane by lane (`10_state.md` R30, R32 to R47); `IMASK` among
them, `ICAUSE` (`W1C`) not. -/
def rwMask (o : Nat) : Byte :=
  if o = 0x04 then 0x1F
  else if o = 0x08 ∨ o = 0x09 then 0xFF
  else if o = 0x14 then 0x0F
  else if 0x20 ≤ o ∧ o ≤ 0x29 then 0xFF
  else if 0x30 ≤ o ∧ o ≤ 0x39 then 0xFF
  else if 0x48 ≤ o ∧ o ≤ 0x4D then 0xFF
  else if 0x50 ≤ o ∧ o ≤ 0x57 then 0xFF
  else if o = 0x58 then 0x0F
  else 0

/-- A window byte after the byte `v` is stored into the lane at offset `o` of an `RW` register
(`44_register_window.md` R292). -/
def storedByte (o : Nat) (v old : Byte) : Byte := (v &&& rwMask o) ||| (old &&& ~~~(rwMask o))

/-- The part of the engine that no window byte shows whole: the rings, the pending frame, and what `STATUS`
and the counters hold. -/
def Engine.inner (e : Engine) : Cursor × Cursor × PendingFrame × TxState × Bool × Bool × BitVec 4 :=
  (e.txr, e.rxr, e.pf, e.txState, e.rxNores, e.irqLine, e.icause)

/-- Executing `i` stores `v` into the lane at offset `o` and does nothing else: the window shows the byte in the
implemented bits of that lane and is otherwise as it was, no other state changes, and the write goes on with its
next lane or ends (`44_register_window.md` R292, R293). -/
def StoresLane (i : Instr) (o : Nat) (v : Byte) (s : State) : Prop :=
  ∃ e, exec i s = .next { s with eng := e, op := if s.op.lanes = [] then {} else { s.op with phase := .lanes } }
    ∧ e.inner = s.eng.inner
    ∧ ∀ x, windowByte s.cfg e x
        = if x = o then storedByte o v (windowByte s.cfg s.eng x) else windowByte s.cfg s.eng x

/-! ## The TX rows -/

/-- The row of a device-owned TX descriptor with these offload requests (`30_encoding.md` R119). -/
def ownedTx (ipcs l4cs tso : Bool) (d : TxFields) : Instr :=
  match tso, ipcs, l4cs with
  | true, _, _ => .txdTso ipcs l4cs d
  | false, false, false => .txdSend d
  | false, true, false => .txdIpcs d
  | false, false, true => .txdL4cs d
  | false, true, true => .txdIpl4cs d

/-- The causes after a descriptor with these operands (`41_tx_path.md` R173). -/
def turnCauses (e : Engine) (d : TxFields) : BitVec 4 := if d.irq then e.icause ||| causeTxDone else e.icause

/-- What one completed turn of the loop of `41_tx_path.md` R176 leaves when guest memory is plain RAM: word 0 of
the slot at the cursor replaced by `w0'` and the rest of memory as it was; the events `es` of the copy and the
emission, the writeback, and the line; the pending frame `pf`; `sent` and `rejected` counted; the cursor
advanced, the descriptor counted, and `TXDONE` raised if the descriptor asks for it (R172, R173). -/
def afterTurn (s : State) (d : TxFields) (w0' : Word) (es : List Event) (pf : PendingFrame)
    (sent rejected : Nat) : State :=
  { s with
    mem := s.mem.writeBytes (txSlot s).toNat (le32 w0')
    events := s.events ++ es ++ [.memWrite (txSlot s) (le32 w0') true]
      ++ (if d.irq then lineEvents s.eng (turnCauses s.eng d) else [])
    eng := { s.eng with
      pf := pf
      cntTxFrames := s.eng.cntTxFrames + BitVec.ofNat 32 sent
      cntTxRej := s.eng.cntTxRej + BitVec.ofNat 32 rejected
      txr := { s.eng.txr with idx := advance s.eng.txr s.eng.txr.idx d.eor }
      icause := turnCauses s.eng d
      irqLine := if d.irq then (turnCauses s.eng d &&& s.eng.imask) != 0 else s.eng.irqLine }
    op := { s.op with consumed := s.op.consumed + 1, unsignalled := !d.irq, phase := .txRun } }

/-- What the end of a run in state `st` leaves, after the events `es` (`41_tx_path.md` R174). -/
def afterRun (s : State) (st : TxState) (es : List Event) : State :=
  let c := (s.eng.icause ||| if st = .stalled then causeTxStall else 0)
    ||| if s.op.unsignalled then causeTxDone else 0
  { s with eng := { s.eng.withCauses c with txState := st }, op := {},
           events := s.events ++ es ++ lineEvents s.eng c }

/-- Guest memory after the driver stores of these answers (`20_memory.md` R86). -/
def driverStores (rs : List Reply) (m : Memory) : Memory := rs.foldl (fun m r => applyStores r.stores m) m

/-- What a turn of the loop leaves whose writeback of `w0'` met the fault `r`, after the answers `pre` and before
the answers `rest`: the events `es` of the copy and the emission, the pending frame `pf` and the two counts stand;
the fault is reported and the run ends `Idle`, with nothing stored, the cursor where it was and no cause for this
descriptor (`40_ring_and_descriptor.md` R144, `41_tx_path.md` R172, R174). -/
def afterFaultedTurn (s : State) (pre : List Reply) (r : Reply) (rest : List Reply) (w0' : Word) (es : List Event)
    (pf : PendingFrame) (sent rejected : Nat) : State :=
  afterRun
    { s with
      replies := rest
      mem := applyStores r.stores (driverStores pre s.mem)
      eng := { s.eng with
        pf := pf
        cntTxFrames := s.eng.cntTxFrames + BitVec.ofNat 32 sent
        cntTxRej := s.eng.cntTxRej + BitVec.ofNat 32 rejected } }
    .idle (es ++ [.memWrite (txSlot s) (le32 w0') false, .platformFault (txSlot s) 4 .write])

/-! ## Deliveries -/

/-- What an overrun leaves (`43_rx_filter.md` R263), after the events `es`. -/
def afterOverrun (s : State) (es : List Event) : State :=
  let c := s.eng.icause ||| causeRxOvr
  { s with eng := { s.eng.withCauses c with cntRxMissed := s.eng.cntRxMissed + 1, rxNores := true }, op := {},
           events := s.events ++ es ++ lineEvents s.eng c }

/-- The share of the data that element `k` of a chain takes (`43_rx_filter.md` R267). -/
def rxShare (data : List Byte) (chain : List RxSlot) (k : Nat) : List Byte :=
  match chain[k]? with
  | none => []
  | some sl => (data.drop (chainCap (chain.take k))).take sl.d.len.toNat

/-- The writes for element `k` of a chain, in order: address and bytes; the buffer unless its share is empty, then
word 0 of the descriptor (`43_rx_filter.md` R267). -/
def rxSlotWrites (dl : Delivery) (chain : List RxSlot) (k : Nat) : List (Addr × List Byte) :=
  match chain[k]? with
  | none => []
  | some sl =>
    let share := rxShare dl.data chain k
    (if share = [] then [] else [(sl.d.buf, share)])
      ++ [(sl.addr, le32 (rxWritebackWord (rxWord0 true sl.d)
            (rxStatus (k = 0) (k + 1 = chain.length) dl.vl dl.kind share.length)))]

/-- The writes of a write phase, in order (`43_rx_filter.md` R267). -/
def rxWrites (dl : Delivery) (chain : List RxSlot) : List (Addr × List Byte) :=
  (List.range chain.length).flatMap (rxSlotWrites dl chain)

/-- The chain of a delivery with the descriptor just fetched (`43_rx_filter.md` R266). -/
def fetchedChain (s : State) (d : RxFields) : List RxSlot :=
  s.op.rx.chain ++ [{ idx := s.op.rx.next, addr := slotAddr s.eng.rxr s.op.rx.next, d := d }]

/-- What a completed delivery leaves when the writes `ws` went to plain RAM (`43_rx_filter.md` R264, R268): the
index `next`, one of the two RX counters, `RXDONE` and the line. -/
def afterDelivery (s : State) (ws : List (Addr × List Byte)) (next : Half) (delivered : Bool) : State :=
  let c := s.eng.icause ||| causeRxDone
  { s with
    mem := ws.foldl (fun m w => m.writeBytes w.1.toNat w.2) s.mem
    events := s.events ++ (ws.map fun w => .memWrite w.1 w.2 true) ++ lineEvents s.eng c
    eng := { s.eng.withCauses c with
      rxr := { s.eng.rxr with idx := next }
      cntRxFrames := if delivered then s.eng.cntRxFrames + 1 else s.eng.cntRxFrames
      cntRxErr := if delivered then s.eng.cntRxErr else s.eng.cntRxErr + 1 }
    op := {} }

/-- The RX index once the elements of a chain before element `k` are written back (`43_rx_filter.md` R267). -/
def rxIdxBefore (r : Cursor) (chain : List RxSlot) (k : Nat) : Half :=
  match (chain.take k).getLast? with
  | none => r.idx
  | some sl => advance r sl.idx sl.d.eor

/-- Guest memory after these writes to plain RAM, each behind the driver stores of its answer. -/
def answeredWrites (rs : List Reply) (ws : List (Addr × List Byte)) (m : Memory) : Memory :=
  (rs.zip ws).foldl (fun m x => (applyStores x.1.stores m).writeBytes x.2.1.toNat x.2.2) m

/-- What a write phase leaves that met the fault `r` at the write `w`, after the writes `ws` with the answers `pre`
and before the answers `rest`: the fault is reported and the call returns, with the RX index at `idx`, no cause and
no count (`43_rx_filter.md` R267). -/
def afterFaultedWrite (s : State) (pre : List Reply) (ws : List (Addr × List Byte)) (r : Reply) (rest : List Reply)
    (w : Addr × List Byte) (idx : Half) : State :=
  { s with
    replies := rest
    mem := applyStores r.stores (answeredWrites pre ws s.mem)
    events := s.events ++ (ws.map fun w => .memWrite w.1 w.2 true)
      ++ [.memWrite w.1 w.2 false, .platformFault w.1 w.2.length .write]
    eng.rxr.idx := idx
    op := {} }

/-! ## What the engine may change -/

/-- Address `x` lies in the `n` bytes from `a` on (`20_memory.md` R77). -/
def InRange (a : Addr) (n x : Nat) : Prop := ∃ i < n, (a.toNat + i) % gpaSpace = x

/-- The driver stores to address `x` before one of the collaborator calls to come (`20_memory.md` R86). -/
def DriverTouches (s : State) (x : Nat) : Prop :=
  ∃ r ∈ s.replies, ∃ st ∈ r.stores, InRange st.addr st.bytes.length x

/-- The number of `MemRead` calls in a list of events. -/
def readCalls (es : List Event) : Nat :=
  (es.filter fun e => match e with | .memRead _ _ _ => true | _ => false).length

/-- The number of `MemWrite` calls in a list of events. -/
def writeCalls (es : List Event) : Nat :=
  (es.filter fun e => match e with | .memWrite _ _ _ => true | _ => false).length

end Sys2Proof.Machine
end

