-- ==== Sys2Proof/Certificates/Slice0/Obligations.lean ====
section
/-!
DEFINITION. The statements about ETHDMA that are to be proved. Each formalises what the rules named in its
docstring say; `OBLIGATIONS.json` lists them. Their form is the model's own where the spec has none: a step is
one instruction (assumption log 3), the collaborator's answers are the list `replies`, empty for plain RAM
(log 2), and what the engine does outwards is the list `events` (log 8).
-/

open Sys2Proof Sys2Proof.Machine

/-! ## Encodings -/

/-- Decoding the encoding of a well-formed instruction of any format gives it back: no operand bit of any row
is dropped (`30_encoding.md` R101, R106, R111, R112, R119). -/
def Obligations.DecodeEncodeAgree : Prop :=
  ∀ i : Instr, i.WellFormed = true → decode i.format (encode i) = .ok i

/-- Every byte string that decodes is the encoding of what it decodes to, which is a well-formed instruction of
the format asked for: each word of a format belongs to exactly one row (`30_encoding.md` R119). -/
def Obligations.EncodeDecodeAgree : Prop :=
  ∀ (fmt : Format) (bs : List Byte) (i : Instr), decode fmt bs = .ok i →
    i.format = fmt ∧ i.WellFormed = true ∧ encode i = bs

/-- `30_encoding.md` R109: both descriptor decoders are total on any 32 bytes, word `k` being `LE32` of bytes
`4k` to `4k+3`, and give every field the bits the rule names; bits 31, 26, 25, 24 of word 0 choose the TX row and
bit 31 the RX row. -/
def Obligations.DescriptorDecode : Prop :=
  ∀ bs : List Byte, bs.length = 32 →
    let w : Nat → Nat := fun k => (byteAt bs (4 * k)).toNat + 2 ^ 8 * (byteAt bs (4 * k + 1)).toNat
      + 2 ^ 16 * (byteAt bs (4 * k + 2)).toNat + 2 ^ 24 * (byteAt bs (4 * k + 3)).toNat
    (∃ d : TxFields,
      decode .txd bs = .ok (if (w 0).testBit 31 then ownedTx ((w 0).testBit 26) ((w 0).testBit 25) ((w 0).testBit 24) d
        else .txdHost ((w 0).testBit 26) ((w 0).testBit 25) ((w 0).testBit 24) d)
      ∧ (txWord0 ((w 0).testBit 31) ((w 0).testBit 26) ((w 0).testBit 25) ((w 0).testBit 24) d).toNat = w 0
      ∧ d.eor = (w 0).testBit 30 ∧ d.fs = (w 0).testBit 29 ∧ d.ls = (w 0).testBit 28 ∧ d.irq = (w 0).testBit 27
      ∧ d.vlan = (w 0).testBit 23 ∧ d.len.toNat = w 0 % 2 ^ 16
      ∧ d.tci.toNat = w 1 % 2 ^ 16 ∧ d.mss.toNat = w 1 / 2 ^ 16 ∧ d.buf.toNat = w 3 * 2 ^ 32 + w 2
      ∧ d.ipStart.toNat = w 4 % 2 ^ 8 ∧ d.ipCso.toNat = w 4 / 2 ^ 8 % 2 ^ 8
      ∧ d.l4Start.toNat = w 4 / 2 ^ 16 % 2 ^ 8 ∧ d.l4Cso.toNat = w 4 / 2 ^ 24 ∧ d.hdrLen.toNat = w 5 % 2 ^ 8)
    ∧ (∃ d : RxFields,
      decode .rxd bs = .ok (if (w 0).testBit 31 then .rxdFree d else .rxdHost d)
      ∧ (rxWord0 ((w 0).testBit 31) d).toNat = w 0
      ∧ d.eor = (w 0).testBit 30 ∧ d.len.toNat = w 0 % 2 ^ 16 ∧ d.buf.toNat = w 3 * 2 ^ 32 + w 2)

/-- Words written out from the encoding tables decode to the instructions they stand for (`30_encoding.md` R101,
R106, R111, R112): the TX descriptor of `95_test_vectors.md` P1, an RX descriptor of B4.5, three commands and
four lanes. -/
def Obligations.WrittenWordsDecode : Prop :=
  decode .txd ([0x2e, 0, 0, 0x80, 0, 0, 0, 0, 0, 0x20, 0, 0] ++ List.replicate 20 0)
      = .ok (.txdSend { len := 46, buf := 0x2000 })
  ∧ decode .rxd ([0x28, 0, 0, 0xC0, 0, 0, 0, 0, 0, 0x51, 0, 0] ++ List.replicate 20 0)
      = .ok (.rxdFree { eor := true, len := 40, buf := 0x5100 })
  ∧ decode .cmd16 [0x00, 0x10] = .ok (.loadTxRing 0x00) ∧ decode .cmd16 [0xAB, 0x02] = .ok (.hardReset 0xAB)
  ∧ decode .cmd16 [0x00, 0x77] = .ok (.cmdReserved 0x77 0x00)
  ∧ decode .regw [0x09, 0x10] = .ok (.cmdX 0x10) ∧ decode .regw [0x13, 0xFF] = .ok (.icauseAck 3 0xFF)
  ∧ decode .regw [0x4D, 0x56] = .ok (.filterWMac 5 0x56) ∧ decode .regw [0x41, 0x00] = .ok (.regwNone 0x41 0x00)

/-! ## Steps and operations -/

/-- A step runs the instruction that the decoder reads from what the machine fetches: the register read
presented to it, the next lane of a write, the command in `CMD`, the 32 bytes at the TX cursor, the 32 bytes at
the slot a delivery needs. Around `exec`, a step takes the input or the lane from its list, or makes the one
`MemRead` of the fetch. That a step is one instruction is the model's choice (assumption log 3). -/
def Obligations.StepRunsDecodedInstruction : Prop :=
  (∀ s o n rest, s.op.phase = .idle → s.inputs = .regRead o n :: rest →
    step s = exec (.regR o n) { s with inputs := rest })
  ∧ (∀ s o b rest i, s.op.phase = .lanes → s.op.lanes = (o, b) :: rest → decode .regw [o, b] = .ok i →
    step s = exec i { s with op.lanes := rest })
  ∧ (∀ s i, s.op.phase = .command → decode .cmd16 (le16 s.eng.cmd) = .ok i → step s = exec i s)
  ∧ (∀ s bs t i, s.op.phase = .txRun → memRead (txSlot s) 32 s = (some bs, t) → decode .txd bs = .ok i →
    step s = exec i t)
  ∧ (∀ s bs t i, s.op.phase = .rxScan → memRead (slotAddr s.eng.rxr s.op.rx.next) 32 s = (some bs, t) →
    decode .rxd bs = .ok i → step s = exec i t)

/-- `fetch` reads the 32 bytes from `(base + 32*i) mod 2^64` on, byte `k` at that address plus `k`, in one call,
and changes nothing (`40_ring_and_descriptor.md` R140, `20_memory.md` R77, R79); here with guest memory as plain
RAM. -/
def Obligations.FetchReadsSlot : Prop :=
  ∀ (r : Cursor) (i : Half) (s : State), s.replies = [] →
    ∃ bs, fetchSlot r i s = (some bs, { s with events := s.events ++ [.memRead (slotAddr r i) 32 true] })
      ∧ (slotAddr r i).toNat = (r.base.toNat + 32 * i.toNat) % 2 ^ 64
      ∧ bs.length = 32
      ∧ ∀ k < 32, bs[k]? = some (s.mem.get ((r.base.toNat + 32 * i.toNat + k) % 2 ^ 64))

/-- No condition stops the machine: from every state a step answers a next state (`60_exceptions.md` R330,
`30_encoding.md` R113). -/
def Obligations.StepAlwaysAnswersNext : Prop := ∀ s : State, ∃ t, step s = .next t

/-- The machine after reset meets the invariant of `StepKeepsInv` (`10_state.md` R50). -/
def Obligations.ResetMeetsInv : Prop := Inv State.reset

/-- Every step keeps the invariant: the index below the capacity (`10_state.md` R22), the pending frame within
`MAX_FRAME` (R23), `Draining` only inside a TX run (R25), the line at the level of cause and mask (R27), nothing
of an operation left when it is over (R20); and guest memory in the model's canonical form (assumption log
1). -/
def Obligations.StepKeepsInv : Prop := ∀ s t : State, Inv s → step s = .next t → Inv t

/-- Every operation ends, within the model's bound `operationBound` on its steps (assumption log 3), with
nothing of it left, not `Draining`, and the line at the level of cause and mask (`10_state.md` R20, R25, R27;
`41_tx_path.md` R177; `43_rx_filter.md` R266). -/
def Obligations.OperationSettles : Prop :=
  ∀ s : State, Inv s → ∃ t, operate s = .next t ∧ t.op = {} ∧ t.eng.txState ≠ .draining
    ∧ t.eng.irqLine = t.eng.lineWanted

/-- A TX run makes at most `txr.cap + 1` fetches and `txr.cap` buffer reads, together the `MemRead` calls, and at
most `txr.cap` writebacks, the `MemWrite` calls, whatever guest memory answers (`41_tx_path.md` R177). -/
def Obligations.TxRunAccessBound : Prop :=
  ∀ s : State, Inv s → s.op = { phase := .txRun } →
    ∃ t es, settle (s.eng.txr.cap.toNat + 1) s = .next t ∧ t.op = {} ∧ t.events = s.events ++ es
      ∧ readCalls es ≤ 2 * s.eng.txr.cap.toNat + 1 ∧ writeCalls es ≤ s.eng.txr.cap.toNat

/-- What the engine has done outwards is never taken back (`20_memory.md` R73, `10_state.md` R29). -/
def Obligations.EventsOnlyGrow : Prop := ∀ s t : State, step s = .next t → s.events <+: t.events

/-! ## The register window -/

/-- `44_register_window.md` R291: `REG.R` completes in every state, its result holds in byte `i` of the access
the byte of the register at that offset (0 beyond the window and beyond the access), and it changes nothing. The
registers read what `10_state.md` R31 to R48 say, and every other offset 0. -/
def Obligations.RegReadReturnsWindow : Prop :=
  ∀ (s : State) (o : Byte) (n : AccessSize), ∃ v : Word,
    exec (.regR o n) s = .next { s with events := s.events ++ [.regData o n v] }
    ∧ (∀ i < 4, v.extractLsb' (8 * i) 8
        = if i < n.bytes ∧ o.toNat + i < 256
          then (regWord s.cfg s.eng ((o.toNat + i) / 4)).extractLsb' (8 * ((o.toNat + i) % 4)) 8 else 0)
    ∧ (∀ k, (regWord s.cfg s.eng k).toNat =
        if k = 0x00 / 4 then s.cfg.idValue.toNat
        else if k = 0x04 / 4 then s.eng.ctrl.toNat
        else if k = 0x08 / 4 then s.eng.cmd.toNat
        else if k = 0x0C / 4 then
          (match s.eng.txState with | .idle => 0 | .draining => 1 | .stalled => 2)
            + 4 * s.eng.rxNores.toNat + 8 * s.eng.pf.isOpen.toNat + 16 * s.eng.irqLine.toNat
        else if k = 0x10 / 4 then s.eng.icause.toNat
        else if k = 0x14 / 4 then s.eng.imask.toNat
        else if k = 0x20 / 4 then s.eng.txBaseLo.toNat
        else if k = 0x24 / 4 then s.eng.txBaseHi.toNat
        else if k = 0x28 / 4 then s.eng.txLen.toNat
        else if k = 0x2C / 4 then s.eng.txr.idx.toNat
        else if k = 0x30 / 4 then s.eng.rxBaseLo.toNat
        else if k = 0x34 / 4 then s.eng.rxBaseHi.toNat
        else if k = 0x38 / 4 then s.eng.rxLen.toNat
        else if k = 0x3C / 4 then s.eng.rxr.idx.toNat
        else if k = 0x48 / 4 then s.eng.macLo.toNat
        else if k = 0x4C / 4 then s.eng.macHi.toNat
        else if k = 0x50 / 4 then s.eng.mhashLo.toNat
        else if k = 0x54 / 4 then s.eng.mhashHi.toNat
        else if k = 0x58 / 4 then s.eng.rxFilter.toNat
        else if k = 0x60 / 4 then s.eng.cntTxFrames.toNat
        else if k = 0x64 / 4 then s.eng.cntTxRej.toNat
        else if k = 0x68 / 4 then s.eng.cntRxFrames.toNat
        else if k = 0x6C / 4 then s.eng.cntRxMissed.toNat
        else if k = 0x70 / 4 then s.eng.cntRxErr.toNat
        else 0)

/-! ## Register writes -/

/-- `CTRL.W`, `CMD.STORE`, the four `RING.STAGE` rows, the three `FILTER.W` rows and `REGW.NONE` complete in
every state, unless the lane is the last of an access that has covered a trigger (`TriggerFiresAfterLastLane`):
the byte goes into the implemented bits of its lane of an `RW` register, a lane of a read-only or reserved
offset drops it, every other window byte, the rings, the pending frame, `tx_state`, `rx_nores`, the causes and
the line keep their value, no memory access and no event happens, and the write goes on with its next lane or is
over (`44_register_window.md` R292, R297, R298, R299; `10_state.md` R49). -/
def Obligations.PlainLaneStores : Prop :=
  ∀ (s : State) (v : Byte), s.op.trig = none ∨ s.op.lanes ≠ [] →
    (∀ l : BitVec 2, StoresLane (.ctrlW l v) (0x04 + l.toNat) v s)
    ∧ StoresLane (.cmdStore v) 0x08 v s
    ∧ (∀ l : BitVec 3, StoresLane (.ringStageTxBase l v) (0x20 + l.toNat) v s)
    ∧ (∀ l : BitVec 2, StoresLane (.ringStageTxLen l v) (0x28 + l.toNat) v s)
    ∧ (∀ l : BitVec 3, StoresLane (.ringStageRxBase l v) (0x30 + l.toNat) v s)
    ∧ (∀ l : BitVec 2, StoresLane (.ringStageRxLen l v) (0x38 + l.toNat) v s)
    ∧ (∀ l : BitVec 3, StoresLane (.filterWMac l v) (0x48 + l.toNat) v s)
    ∧ (∀ l : BitVec 3, StoresLane (.filterWMhash l v) (0x50 + l.toNat) v s)
    ∧ (∀ l : BitVec 2, StoresLane (.filterWRxFilter l v) (0x58 + l.toNat) v s)
    ∧ (∀ o : Byte, claimedLane o = false → StoresLane (.regwNone o v) o.toNat v s)

/-- The trigger an access has covered fires when its last lane is stored, here a lane of no row of its own, the
only kind of plain lane that can follow a trigger lane within an access: the command is to execute, the RX
doorbell, the one `IrqEval`, or the TX doorbell exactly as if its own lane were the last (`44_register_window.md`
R293, R294). -/
def Obligations.TriggerFiresAfterLastLane : Prop :=
  ∀ (s : State) (o v : Byte), claimedLane o = false → s.op.lanes = [] →
    (s.op.trig = some .command → exec (.regwNone o v) s = .next { s with op := { phase := .command } })
    ∧ (s.op.trig = some .rxDoorbell → exec (.regwNone o v) s = .next { s with eng.rxNores := false, op := {} })
    ∧ (s.op.trig = some .irqEval → exec (.regwNone o v) s
        = .next { s with eng := { s.eng with irqLine := (s.eng.icause &&& s.eng.imask) != 0 }, op := {},
                         events := s.events ++ lineEvents s.eng s.eng.icause })
    ∧ (s.op.trig = some .txDoorbell → exec (.regwNone o v) s = exec (.txDbW v) s)

/-- `CMD.X` stores the high byte of `CMD` and nothing else of the engine; if it is the last lane of its access the
command is to execute next, with both bytes as stored, else the access goes on with the trigger noted
(`44_register_window.md` R292, R294, R300). -/
def Obligations.CmdXStoresAndTriggers : Prop :=
  ∀ (s : State) (v : Byte),
    (s.op.lanes = [] → exec (.cmdX v) s
      = .next { s with eng.cmd := v ++ s.eng.cmd.extractLsb' 0 8, op := { phase := .command } })
    ∧ (s.op.lanes ≠ [] → exec (.cmdX v) s
      = .next { s with eng.cmd := v ++ s.eng.cmd.extractLsb' 0 8, op.phase := .lanes, op.trig := some .command })

/-- `60_exceptions.md` R343: `ICAUSE.ACK` clears the causes whose written bits are 1, only lane 0 holding
implemented bits; after the last lane of the access the line is evaluated once, and an acknowledge that clears
nothing is no event. Nothing else changes. -/
def Obligations.IcauseAckClears : Prop :=
  ∀ (s : State) (l : BitVec 2) (v : Byte),
    let c := if l = 0 then s.eng.icause &&& ~~~(v.extractLsb' 0 4) else s.eng.icause
    (s.op.lanes = [] → exec (.icauseAck l v) s
      = .next { s with eng := { s.eng with icause := c, irqLine := (c &&& s.eng.imask) != 0 }, op := {},
                       events := s.events ++ lineEvents s.eng c })
    ∧ (s.op.lanes ≠ [] → exec (.icauseAck l v) s
      = .next { s with eng.icause := c, op.phase := .lanes, op.trig := some .irqEval })
    ∧ (s.op.lanes = [] → c = s.eng.icause → s.eng.irqLine = s.eng.lineWanted →
        exec (.icauseAck l v) s = .next { s with op := {} })

/-- `60_exceptions.md` R344: `IMASK.W` replaces the written lane's bits of `imask`, only lane 0 holding
implemented bits; after the last lane of the access the line is evaluated once; `icause` is not changed, and
nothing else is. -/
def Obligations.ImaskWReplaces : Prop :=
  ∀ (s : State) (l : BitVec 2) (v : Byte),
    let m := if l = 0 then v.extractLsb' 0 4 else s.eng.imask
    (s.op.lanes = [] → exec (.imaskW l v) s
      = .next { s with eng := { s.eng with imask := m, irqLine := (s.eng.icause &&& m) != 0 }, op := {},
                       events := s.events ++ lineEvents { s.eng with imask := m } s.eng.icause })
    ∧ (s.op.lanes ≠ [] → exec (.imaskW l v) s
      = .next { s with eng.imask := m, op.phase := .lanes, op.trig := some .irqEval })

/-- `TX_DB.W` ignores its value and stores nothing; as the last lane of its access it is the TX doorbell: ignored
with `TX_EN = 0`; with no ring `Stalled` and `TXSTALL`, no memory access; else a run starts at the current cursor
with the current pending frame (`44_register_window.md` R304; `41_tx_path.md` R161, R162). -/
def Obligations.TxDoorbell : Prop :=
  ∀ (s : State) (v : Byte),
    (s.op.lanes ≠ [] → exec (.txDbW v) s = .next { s with op.phase := .lanes, op.trig := some .txDoorbell })
    ∧ (s.op.lanes = [] → s.eng.ctrl.getLsbD 0 = false → exec (.txDbW v) s = .next { s with op := {} })
    ∧ (s.op.lanes = [] → s.eng.ctrl.getLsbD 0 = true → s.eng.txr.cap = 0 → exec (.txDbW v) s
        = .next { s with eng := { s.eng.withCauses (s.eng.icause ||| 8) with txState := .stalled }, op := {},
                         events := s.events ++ lineEvents s.eng (s.eng.icause ||| 8) })
    ∧ (s.op.lanes = [] → s.eng.ctrl.getLsbD 0 = true → s.eng.txr.cap ≠ 0 → exec (.txDbW v) s
        = .next { s with eng.txState := .draining, op := { phase := .txRun } })

/-- `44_register_window.md` R305: the RX doorbell clears `rx_nores` and does nothing else, whatever value is
written. -/
def Obligations.RxDoorbell : Prop :=
  ∀ (s : State) (v : Byte),
    (s.op.lanes ≠ [] → exec (.rxDbW v) s = .next { s with op.phase := .lanes, op.trig := some .rxDoorbell })
    ∧ (s.op.lanes = [] → exec (.rxDbW v) s = .next { s with eng.rxNores := false, op := {} })

/-- A whole register write that covers no trigger lane, at any offset and of any size: when it is over, every
byte it covered holds the written byte in its implemented bits, every other window byte is as it was (byte `i`
of the access is bits `8i+7 : 8i` of the value, and bytes beyond the window are dropped), and nothing else has
changed (`44_register_window.md` R290, R292, R293, R295). -/
def Obligations.RegisterWriteWindow : Prop :=
  ∀ (s : State) (o : Byte) (n : AccessSize) (v : Word) (rest : List Input),
    Inv s → s.op.phase = .idle → s.inputs = .regWrite o n v :: rest →
    (∀ i < n.bytes, o.toNat + i < 256 → laneTrigger (BitVec.ofNat 8 (o.toNat + i)) = none) →
    ∃ e, operate s = .next { s with eng := e, inputs := rest } ∧ e.inner = s.eng.inner
      ∧ ∀ x, windowByte s.cfg e x
          = if o.toNat ≤ x ∧ x < o.toNat + n.bytes ∧ x < 256
            then storedByte x (v.extractLsb' (8 * (x - o.toNat)) 8) (windowByte s.cfg s.eng x)
            else windowByte s.cfg s.eng x

/-- A 2-byte write of `CMD` stores both bytes and then executes, once, the command they hold: opcode in the high
byte, argument in the low byte (`44_register_window.md` R294, R300; `30_encoding.md` R111). -/
def Obligations.CommandWriteExecutes : Prop :=
  ∀ (s : State) (v : Word) (rest : List Input),
    Inv s → s.op.phase = .idle → s.inputs = .regWrite 0x08 .two v :: rest →
    ∃ t, exec (decodeCmd (v.extractLsb' 8 8) (v.extractLsb' 0 8))
        { s with inputs := rest, eng.cmd := v.extractLsb' 0 16, op := { phase := .command } } = .next t
      ∧ operate s = .next t

/-! ## Commands -/

/-- `44_register_window.md` R302: `LOAD_TX_RING` latches the TX ring from staging. -/
def Obligations.LoadTxRing : Prop :=
  ∀ (s : State) (arg : Byte), ∃ r : Cursor,
    exec (.loadTxRing arg) s = .next { s with eng := { s.eng with txr := r, txState := .idle, pf := {} }, op := {} }
    ∧ r.base.toNat = s.eng.txBaseHi.toNat * 2 ^ 32 + s.eng.txBaseLo.toNat ∧ r.cap = s.eng.txLen ∧ r.idx = 0

/-- `44_register_window.md` R303: `LOAD_RX_RING` latches the RX ring from staging and clears `rx_nores`. -/
def Obligations.LoadRxRing : Prop :=
  ∀ (s : State) (arg : Byte), ∃ r : Cursor,
    exec (.loadRxRing arg) s = .next { s with eng := { s.eng with rxr := r, rxNores := false }, op := {} }
    ∧ r.base.toNat = s.eng.rxBaseHi.toNat * 2 ^ 32 + s.eng.rxBaseLo.toNat ∧ r.cap = s.eng.rxLen ∧ r.idx = 0

/-- `44_register_window.md` R301: a reserved opcode changes nothing. -/
def Obligations.ReservedCommandIsNop : Prop :=
  ∀ (s : State) (op arg : Byte), exec (.cmdReserved op arg) s = .next { s with op := {} }

/-- `44_register_window.md` R306: `SOFT_RESET` gives every piece of the engine its reset value but the station
address, which is kept, and drops the line with one event if it was asserted; memory is not touched. -/
def Obligations.SoftReset : Prop :=
  ∀ (s : State) (arg : Byte),
    exec (.softReset arg) s
      = .next { s with eng := { macLo := s.eng.macLo, macHi := s.eng.macHi }, op := {},
                       events := s.events ++ if s.eng.irqLine then [.lineChange false] else [] }

/-- `HARD_RESET` gives every piece of the engine its reset value, the station address `MAC_RESET` included, and
drops the line with one event if it was asserted; memory is not touched; with the default parameters the engine
is the one after power-on (`44_register_window.md` R307; `70_reset_and_hazards.md` R380, R382). -/
def Obligations.HardReset : Prop :=
  ∀ (s : State) (arg : Byte), ∃ e : Engine,
    exec (.hardReset arg) s
      = .next { s with eng := e, op := {}, events := s.events ++ if s.eng.irqLine then [.lineChange false] else [] }
    ∧ e = { macLo := s.cfg.macResetLo, macHi := s.cfg.macResetHi }
    ∧ (s.cfg = Config.default → e = State.reset.eng)
    ∧ (∀ x, windowByte s.cfg e x
        = if x < 4 then s.cfg.idValue.extractLsb' (8 * x) 8
          else if 0x48 ≤ x ∧ x < 0x4C then s.cfg.macResetLo.extractLsb' (8 * (x - 0x48)) 8
          else if x = 0x4C ∨ x = 0x4D then s.cfg.macResetHi.extractLsb' (8 * (x - 0x4C)) 8
          else 0)

/-! ## The TX path -/

/-- `TXD.HOST` is not executed: the run ends `Idle`, the cursor stays, the pending frame and guest memory are
not touched, `TXDONE` is raised if the run has consumed a descriptor since it last was, and the line is evaluated
once. A faulting fetch does the same, with one report to the platform (`41_tx_path.md` R164, R174;
`40_ring_and_descriptor.md` R141, R142; `60_exceptions.md` R336). -/
def Obligations.TxNoDescriptorEndsRun : Prop :=
  (∀ (s : State) (ipcs l4cs tso : Bool) (d : TxFields),
    exec (.txdHost ipcs l4cs tso d) s = .next (afterRun s .idle []))
  ∧ (∀ (s : State) (r : Reply) (rest : List Reply), s.op.phase = .txRun → s.replies = r :: rest → r.answer = .fault →
      step s = .next (afterRun { s with replies := rest, mem := applyStores r.stores s.mem } .idle
        [.memRead (txSlot s) 32 false, .platformFault (txSlot s) 32 .read]))

/-- `41_tx_path.md` R163: a device-owned descriptor fetched when the run has consumed `txr.cap` of them is not
processed and not written; the run ends `Stalled` with `TXSTALL`. -/
def Obligations.TxBoundStalls : Prop :=
  ∀ (s : State) (ipcs l4cs tso : Bool) (d : TxFields), s.op.consumed = s.eng.txr.cap.toNat →
    exec (ownedTx ipcs l4cs tso d) s = .next (afterRun s .stalled [])

/-- `TXD.SEND`, `TXD.IPCS`, `TXD.L4CS`, `TXD.IPL4CS` and `TXD.TSO` complete, with guest memory as plain RAM and
the run below its bound, in simple and in chained mode, for every segment of a frame that is not rejected: the
buffer is read once unless it is empty and appended to the frame; a last segment hands the frame to `Emit` and
every frame it answers is sent, in order, and the pending frame is reset; a first segment that finds a frame
open discards it, counts it and shows `SEQERR`; the descriptor is written back `DONE` in word 0 and nowhere
else, and the cursor advances (`41_tx_path.md` R165, R166, R169, R171, R172, R173). -/
def Obligations.TxDescriptorCompletes : Prop :=
  ∀ (s : State) (ipcs l4cs tso : Bool) (d : TxFields) (sent : List (List Byte)),
    let fs := if s.eng.txChain then d.fs else true
    let ls := if s.eng.txChain then d.ls else true
    let before := if fs then [] else s.eng.pf.buf
    let frame := before ++ s.mem.readBytes d.buf.toNat d.len.toNat
    let discards := fs && s.eng.pf.isOpen
    s.replies = [] → s.op.consumed ≠ s.eng.txr.cap.toNat →
    (fs = false → s.eng.pf.isOpen = true ∧ s.eng.pf.err = none) →
    d.len.toNat ≤ s.cfg.maxFrame - before.length →
    (if ls then emit (offloadCtx ipcs l4cs tso d) frame = some sent else sent = []) →
    exec (ownedTx ipcs l4cs tso d) s
      = .next (afterTurn s d
          ((txWord0 true ipcs l4cs tso d &&& ~~~0x807C0000) ||| 0x00400000 ||| if discards then 0x00040000 else 0)
          ((if d.len = 0 then [] else [.memRead d.buf d.len.toNat true]) ++ sent.map Event.send)
          (if ls then {} else { isOpen := true, buf := frame, err := none })
          sent.length (if discards then 1 else 0))

/-- A frame `Emit` rejects is dropped at its last segment, with guest memory as plain RAM and the run below its
bound: nothing is sent, the descriptor is written back
`DONE|ERR|BADOFL`, the frame is counted as rejected and the pending frame reset (`41_tx_path.md` R171, R172;
`42_offload.md` R202). -/
def Obligations.TxBadOffloadRejected : Prop :=
  ∀ (s : State) (ipcs l4cs tso : Bool) (d : TxFields),
    let fs := if s.eng.txChain then d.fs else true
    let before := if fs then [] else s.eng.pf.buf
    let discards := fs && s.eng.pf.isOpen
    s.replies = [] → s.op.consumed ≠ s.eng.txr.cap.toNat → (s.eng.txChain = true → d.ls = true) →
    (fs = false → s.eng.pf.isOpen = true ∧ s.eng.pf.err = none) →
    d.len.toNat ≤ s.cfg.maxFrame - before.length →
    emit (offloadCtx ipcs l4cs tso d) (before ++ s.mem.readBytes d.buf.toNat d.len.toNat) = none →
    exec (ownedTx ipcs l4cs tso d) s
      = .next (afterTurn s d
          ((txWord0 true ipcs l4cs tso d &&& ~~~0x807C0000) ||| 0x00680000 ||| if discards then 0x00040000 else 0)
          (if d.len = 0 then [] else [.memRead d.buf d.len.toNat true]) {} 0 (if discards then 2 else 1))

/-- A declared length that would overflow `MAX_FRAME` rejects the whole frame before any byte is copied, with
guest memory as plain RAM and the run below its bound: no buffer read and nothing sent, the descriptor is
written back `DONE|ERR|OVERSIZE`; a last segment drops and counts the frame, any other leaves it open and marked
(`41_tx_path.md` R168, R171, R172). -/
def Obligations.TxOversizeRejected : Prop :=
  ∀ (s : State) (ipcs l4cs tso : Bool) (d : TxFields),
    let fs := if s.eng.txChain then d.fs else true
    let ls := if s.eng.txChain then d.ls else true
    let before := if fs then [] else s.eng.pf.buf
    let discards := fs && s.eng.pf.isOpen
    s.replies = [] → s.op.consumed ≠ s.eng.txr.cap.toNat →
    (fs = false → s.eng.pf.isOpen = true ∧ s.eng.pf.err = none) →
    s.cfg.maxFrame - before.length < d.len.toNat →
    exec (ownedTx ipcs l4cs tso d) s
      = .next (afterTurn s d
          ((txWord0 true ipcs l4cs tso d &&& ~~~0x807C0000) ||| 0x00700000 ||| if discards then 0x00040000 else 0)
          [] (if ls then {} else { isOpen := true, buf := before, err := some .oversize })
          0 ((if discards then 1 else 0) + (if ls then 1 else 0)))

/-- A segment that continues a frame in the rejected condition, or that continues with no frame open (which
opens one marked `SEQERR`), with guest memory as plain RAM and the run below its bound, is consumed without
reading its buffer and without sending, and written back `DONE|ERR|` the mark; a last segment drops and counts
the frame (`41_tx_path.md` R167, R169, R171, R172; `60_exceptions.md` R337). -/
def Obligations.TxRejectedFrameContinues : Prop :=
  ∀ (s : State) (ipcs l4cs tso : Bool) (d : TxFields) (m : ErrMark),
    s.replies = [] → s.op.consumed ≠ s.eng.txr.cap.toNat → s.eng.txChain = true → d.fs = false →
    (s.eng.pf.isOpen = true ∧ s.eng.pf.err = some m ∨ s.eng.pf.isOpen = false ∧ m = .seqErr) →
    exec (ownedTx ipcs l4cs tso d) s
      = .next (afterTurn s d
          ((txWord0 true ipcs l4cs tso d &&& ~~~0x807C0000) ||| 0x00600000
            ||| match m with | .oversize => 0x00100000 | .badOfl => 0x00080000 | .seqErr => 0x00040000)
          []
          (if d.ls then {}
            else if s.eng.pf.isOpen then s.eng.pf else { isOpen := true, buf := [], err := some .seqErr })
          0 (if d.ls then 1 else 0))

/-- `41_tx_path.md` R170: when the buffer read of a descriptor of a run below its bound faults, the fault is
reported, the pending frame and `CNT_TX_REJ` are as before the descriptor, no writeback is made, the cursor does
not move and the run ends `Idle`. -/
def Obligations.TxBufferFaultUndone : Prop :=
  ∀ (s : State) (ipcs l4cs tso : Bool) (d : TxFields) (r : Reply) (rest : List Reply),
    let fs := if s.eng.txChain then d.fs else true
    let before := if fs then [] else s.eng.pf.buf
    s.replies = r :: rest → r.answer = .fault → s.op.consumed ≠ s.eng.txr.cap.toNat →
    (fs = false → s.eng.pf.isOpen = true ∧ s.eng.pf.err = none) →
    d.len ≠ 0 → d.len.toNat ≤ s.cfg.maxFrame - before.length →
    exec (ownedTx ipcs l4cs tso d) s
      = .next (afterRun { s with replies := rest, mem := applyStores r.stores s.mem } .idle
          [.memRead d.buf d.len.toNat false, .platformFault d.buf d.len.toNat .read])

/-- A writeback that faults, of any descriptor of a run below its bound, in simple and in chained mode, stores
nothing: the descriptor stays device-owned and the cursor on it, no cause is raised for it, the run ends `Idle`, and
what was done before the writeback stands: (1) a segment of a good frame, its buffer read unless it is empty, a last
one with its frame sent and counted and the pending frame reset, any other with the frame left open, a first one
with the frame it discarded counted; (2) the last segment of a frame `Emit` rejects; (3) an oversize segment; (4) a
segment of a frame in the rejected condition (`40_ring_and_descriptor.md` R144; `41_tx_path.md` R165 to R169, R171,
R172; `60_exceptions.md` R336; `70_reset_and_hazards.md` R397). -/
def Obligations.TxWritebackFaultStands : Prop :=
  ∀ (s : State) (ipcs l4cs tso : Bool) (d : TxFields) (pre : List Reply) (r : Reply) (rest : List Reply),
    let fs := if s.eng.txChain then d.fs else true
    let ls := if s.eng.txChain then d.ls else true
    let before := if fs then [] else s.eng.pf.buf
    let frame := before ++ (driverStores pre s.mem).readBytes d.buf.toNat d.len.toNat
    let discards := fs && s.eng.pf.isOpen
    let w0 : Word → Word := fun st =>
      (txWord0 true ipcs l4cs tso d &&& ~~~0x807C0000) ||| st ||| if discards then 0x00040000 else 0
    let reads : List Event := if d.len = 0 then [] else [.memRead d.buf d.len.toNat true]
    let good := fs = false → s.eng.pf.isOpen = true ∧ s.eng.pf.err = none
    let fits := d.len.toNat ≤ s.cfg.maxFrame - before.length
    let answered := pre.map Reply.answer = if d.len = 0 then [] else [.plain]
    s.op.consumed ≠ s.eng.txr.cap.toNat → s.replies = pre ++ r :: rest → r.answer = .fault →
    (∀ sent, good → fits → answered →
        (if ls then emit (offloadCtx ipcs l4cs tso d) frame = some sent else sent = []) →
        exec (ownedTx ipcs l4cs tso d) s
          = .next (afterFaultedTurn s pre r rest (w0 0x00400000) (reads ++ sent.map Event.send)
              (if ls then {} else { isOpen := true, buf := frame, err := none })
              sent.length (if discards then 1 else 0)))
    ∧ (good → fits → answered → ls = true → emit (offloadCtx ipcs l4cs tso d) frame = none →
        exec (ownedTx ipcs l4cs tso d) s
          = .next (afterFaultedTurn s pre r rest (w0 0x00680000) reads {} 0 (if discards then 2 else 1)))
    ∧ (good → ¬fits → pre = [] →
        exec (ownedTx ipcs l4cs tso d) s
          = .next (afterFaultedTurn s pre r rest (w0 0x00700000) []
              (if ls then {} else { isOpen := true, buf := before, err := some .oversize })
              0 ((if discards then 1 else 0) + (if ls then 1 else 0))))
    ∧ (∀ m : ErrMark, fs = false → pre = [] →
        (s.eng.pf.isOpen = true ∧ s.eng.pf.err = some m ∨ s.eng.pf.isOpen = false ∧ m = .seqErr) →
        exec (ownedTx ipcs l4cs tso d) s
          = .next (afterFaultedTurn s pre r rest
              (w0 (0x00600000 ||| match m with
                | .oversize => 0x00100000 | .badOfl => 0x00080000 | .seqErr => 0x00040000))
              []
              (if ls then {}
                else if s.eng.pf.isOpen then s.eng.pf else { isOpen := true, buf := [], err := some .seqErr })
              0 (if ls then 1 else 0)))

/-- `40_ring_and_descriptor.md` R145: after a successful writeback of a TX or an RX status to plain RAM the word
reads back host-owned, the other bytes of the descriptor and of memory are untouched, and word 0 differs from the
fetched one only in the device-written bits. -/
def Obligations.WritebackFlipsOwnership : Prop :=
  ∀ (s : State) (a : Addr) (w0 st dev : Word),
    s.mem.wf = true → s.replies = [] → (dev = 0x807C0000 ∨ dev = 0xB0F3FFFF) →
    st &&& ~~~dev = 0 → st.getLsbD 31 = false →
    let w0' := if dev = 0x807C0000 then txWritebackWord w0 st else rxWritebackWord w0 st
    ∃ t, writeback a w0' s = (true, t) ∧ t.eng = s.eng ∧ t.op = s.op
      ∧ le32At (t.mem.readBytes a.toNat 4) 0 = w0' ∧ w0'.getLsbD 31 = false
      ∧ w0' &&& ~~~dev = w0 &&& ~~~dev ∧ w0' &&& dev = st
      ∧ (∀ x, ¬InRange a 4 x → t.mem.get x = s.mem.get x)

/-! ## The ring cursor -/

/-- `40_ring_and_descriptor.md` R146: `advance` is 0 after an end-of-ring flag and `(i + 1) mod cap` otherwise,
and always below the capacity. -/
def Obligations.AdvanceWraps : Prop :=
  ∀ (r : Cursor) (i : Half) (eor : Bool), r.cap ≠ 0 → i.toNat < r.cap.toNat →
    (advance r i eor).toNat = (if eor then 0 else (i.toNat + 1) % r.cap.toNat)
    ∧ (advance r i eor).toNat < r.cap.toNat

/-- `advance`, iterated `n` times without an end-of-ring flag, takes an index `start` of the ring to
`(start + n) mod cap` (a consequence of `40_ring_and_descriptor.md` R146). -/
def Obligations.AdvanceIterates : Prop :=
  ∀ (r : Cursor) (start : Half) (n : Nat), r.cap ≠ 0 → start.toNat < r.cap.toNat →
    ((fun i => advance r i false)^[n] start).toNat = (start.toNat + n) % r.cap.toNat

/-! ## The offload engine -/

/-- `csum` is 0xFFFF minus the end-around-carry sum of the 16-bit big-endian words, an odd last byte padded with
a zero byte: the sum 0 stays 0, any other sum becomes its representative modulo 0xFFFF between 1 and 0xFFFF
(`42_offload.md` R208). -/
def Obligations.ChecksumValue : Prop :=
  ∀ b : List Byte,
    let sum := ((List.range ((b.length + 1) / 2)).map
      fun i => (byteAt b (2 * i)).toNat * 256 + (byteAt b (2 * i + 1)).toNat).sum
    (csum b).toNat = 0xFFFF - (if sum = 0 then 0 else (sum - 1) % 0xFFFF + 1)

/-- `42_offload.md` R209: `IpCk` stores, big-endian, the checksum of `[IPSTART, L4START)` with the store position
taken as zero, and changes no other byte. -/
def Obligations.IpCkStores : Prop :=
  ∀ (g : List Byte) (ipStart l4Start ipCso : Nat),
    ipStart ≤ l4Start → l4Start ≤ g.length → ipCso + 2 ≤ g.length →
    let z := (List.range (l4Start - ipStart)).map fun k =>
      if ipStart + k = ipCso ∨ ipStart + k = ipCso + 1 then 0 else byteAt g (ipStart + k)
    let h := ipCk g ipStart l4Start ipCso
    h.length = g.length ∧ byteAt h ipCso ++ byteAt h (ipCso + 1) = csum z
      ∧ ∀ k, k ≠ ipCso → k ≠ ipCso + 1 → byteAt h k = byteAt g k

/-- `42_offload.md` R211: `L4Ck` stores, big-endian, the checksum of the pseudo-header (addresses, zero, protocol,
length modulo 2^16) followed by `[L4START, end)` with the store position taken as zero, and changes no other
byte. -/
def Obligations.L4CkStores : Prop :=
  ∀ (g : List Byte) (ipStart l4Start l4Cso : Nat),
    ipStart + 20 ≤ g.length → l4Start ≤ g.length → l4Cso + 2 ≤ g.length →
    let len := (g.length - l4Start) % 2 ^ 16
    let ps := ((List.range 8).map fun k => byteAt g (ipStart + 12 + k))
      ++ [0, byteAt g (ipStart + 9), BitVec.ofNat 8 (len / 256), BitVec.ofNat 8 (len % 256)]
    let z := (List.range (g.length - l4Start)).map fun k =>
      if l4Start + k = l4Cso ∨ l4Start + k = l4Cso + 1 then 0 else byteAt g (l4Start + k)
    let h := l4Ck g ipStart l4Start l4Cso
    h.length = g.length ∧ byteAt h l4Cso ++ byteAt h (l4Cso + 1) = csum (ps ++ z)
      ∧ ∀ k, k ≠ l4Cso → k ≠ l4Cso + 1 → byteAt h k = byteAt g k

/-- Recomputing changes nothing: `IpCk` on any frame; and the single-frame path when the L4 checksum is stored
inside the L4 part, behind the IP header and its checksum (`42_offload.md` R219; the general case of R219 does
not hold of R211, assumption log 20). -/
def Obligations.ChecksumIdempotent : Prop :=
  (∀ (g : List Byte) (ipStart l4Start ipCso : Nat),
    ipCk (ipCk g ipStart l4Start ipCso) ipStart l4Start ipCso = ipCk g ipStart l4Start ipCso)
  ∧ (∀ (oc : OffloadCtx) (f : List Byte),
    oc.ipStart + 20 ≤ oc.l4Start → oc.ipCso + 2 ≤ oc.l4Start → oc.l4Start ≤ oc.l4Cso →
    singleFrame oc (singleFrame oc f) = singleFrame oc f)

/-- `Emit` rejects a non-empty frame exactly when a validity condition that applies fails (`42_offload.md` R202 to
R206, R210); an empty frame is accepted and nothing is sent (R207). -/
def Obligations.EmitRejectsExactly : Prop :=
  ∀ (oc : OffloadCtx) (f : List Byte),
    (f = [] → emit oc f = some [])
    ∧ (f ≠ [] → (emit oc f = none ↔
        (oc.vlan = true ∧ f.length < 12)
        ∨ (oc.tso = true ∧ ¬(1 ≤ oc.mss ∧ oc.ipStart + 20 ≤ oc.l4Start ∧ oc.l4Start + 20 ≤ oc.hdrLen
            ∧ oc.hdrLen ≤ f.length ∧ oc.ipCso + 2 ≤ oc.hdrLen ∧ oc.l4Cso + 2 ≤ oc.hdrLen
            ∧ byteAt f (oc.ipStart + 9) = 6))
        ∨ (oc.tso = false ∧ oc.ipcs = true
            ∧ ¬(oc.ipStart ≤ oc.l4Start ∧ oc.l4Start ≤ f.length ∧ oc.ipCso + 2 ≤ f.length))
        ∨ (oc.tso = false ∧ oc.l4cs = true
            ∧ ¬(oc.ipStart + 20 ≤ f.length ∧ oc.l4Start ≤ f.length ∧ oc.l4Cso + 2 ≤ f.length))))

/-- What `Emit` sends without segmentation: exactly one frame, verbatim without a request; with the IP checksum
inserted first and the L4 checksum second where requested; with the tag `81 00 TCI` after byte 12 where `VLAN` is
set, inserted last (`42_offload.md` R201, R212, R221). -/
def Obligations.EmitSingleFrame : Prop :=
  ∀ (oc : OffloadCtx) (f : List Byte) (sent : List (List Byte)),
    f ≠ [] → oc.tso = false → emit oc f = some sent →
    ∃ g wire, sent = [wire]
      ∧ (oc.ipcs = false → oc.l4cs = false → g = f)
      ∧ (oc.ipcs = true → oc.l4cs = false → g = ipCk f oc.ipStart oc.l4Start oc.ipCso)
      ∧ (oc.ipcs = false → oc.l4cs = true → g = l4Ck f oc.ipStart oc.l4Start oc.l4Cso)
      ∧ (oc.ipcs = true → oc.l4cs = true →
          g = l4Ck (ipCk f oc.ipStart oc.l4Start oc.ipCso) oc.ipStart oc.l4Start oc.l4Cso)
      ∧ g.length = f.length
      ∧ (oc.vlan = false → wire = g)
      ∧ (oc.vlan = true → 12 ≤ g.length ∧ wire.length = g.length + 4 ∧ wire.take 12 = g.take 12
          ∧ (wire.drop 12).take 4 = [0x81, 0x00, oc.tci.extractLsb' 8 8, oc.tci.extractLsb' 0 8]
          ∧ wire.drop 16 = g.drop 12)

/-- Segmentation sends `ceil(L / MSS)` frames; before the tag, segment `k` is `HDRLEN` header bytes and the next
`min(MSS, remaining)` payload bytes, so all chunks but the last are exactly `MSS` bytes, none is empty, and the
payloads concatenate to the original (`42_offload.md` R213, R214, R221). -/
def Obligations.TsoPayload : Prop :=
  ∀ (oc : OffloadCtx) (f : List Byte) (sent : List (List Byte)),
    f ≠ [] → oc.tso = true → emit oc f = some sent →
    let n := (f.length - oc.hdrLen + oc.mss - 1) / oc.mss
    ∃ segs : List (List Byte), sent = segs.map (wireFrame oc) ∧ segs.length = n
      ∧ (segs.map fun g => g.drop oc.hdrLen).flatten = f.drop oc.hdrLen
      ∧ ∀ k g, segs[k]? = some g →
          (k + 1 < n → g.length = oc.hdrLen + oc.mss)
          ∧ (k + 1 = n → g.length = oc.hdrLen + (f.length - oc.hdrLen - k * oc.mss))
          ∧ oc.hdrLen < g.length ∧ g.length ≤ oc.hdrLen + oc.mss

/-- The header of a segment, with the checksums at the places the IPv4 and TCP headers give them: total length,
identification and sequence number rewritten, `PSH` and `FIN` cleared in every segment but the last, every other
byte but the two checksums as in the template (`42_offload.md` R215, R216). -/
def Obligations.TsoHeader : Prop :=
  ∀ (oc : OffloadCtx) (f : List Byte) (k : Nat),
    tsoValid oc f = true → k < segCount oc f → oc.ipCso = oc.ipStart + 10 → oc.l4Cso = oc.l4Start + 16 →
    let g := segment oc f k
    let last := k + 1 = (f.length - oc.hdrLen + oc.mss - 1) / oc.mss
    (be16At g (oc.ipStart + 2)).toNat = (oc.hdrLen - oc.ipStart + min oc.mss (f.length - oc.hdrLen - k * oc.mss)) % 2 ^ 16
    ∧ (be16At g (oc.ipStart + 4)).toNat = ((be16At f (oc.ipStart + 4)).toNat + k) % 2 ^ 16
    ∧ (be32At g (oc.l4Start + 4)).toNat = ((be32At f (oc.l4Start + 4)).toNat + k * oc.mss) % 2 ^ 32
    ∧ (last → byteAt g (oc.l4Start + 13) = byteAt f (oc.l4Start + 13))
    ∧ (¬last → byteAt g (oc.l4Start + 13) = byteAt f (oc.l4Start + 13) &&& 0xF6)
    ∧ ∀ j < oc.hdrLen, ¬(oc.ipStart + 2 ≤ j ∧ j < oc.ipStart + 6) → ¬(oc.l4Start + 4 ≤ j ∧ j < oc.l4Start + 8) →
        j ≠ oc.l4Start + 13 → ¬(oc.ipCso ≤ j ∧ j < oc.ipCso + 2) → ¬(oc.l4Cso ≤ j ∧ j < oc.l4Cso + 2) →
        byteAt g j = byteAt f j

/-- `42_offload.md` R220: both checksums of a segment verify. With `IPCSO` and `L4CSO` at the real checksum
positions, the checksum of the segment's IP header is 0, and so is that of its pseudo-header and TCP part. -/
def Obligations.TsoChecksumsVerify : Prop :=
  ∀ (oc : OffloadCtx) (f : List Byte) (k : Nat),
    tsoValid oc f = true → k < segCount oc f → oc.ipCso = oc.ipStart + 10 → oc.l4Cso = oc.l4Start + 16 →
    let g := segment oc f k
    csum (slice g oc.ipStart oc.l4Start) = 0
    ∧ csum (pseudoHeader g oc.ipStart oc.l4Start ++ slice g oc.l4Start g.length) = 0

/-! ## The RX path -/

/-- What `classify` accepts, and as what: each address class is tested by its own flag only, `promiscuous` is the
answer only when that test did not accept, and a frame without a destination is rejected (`43_rx_filter.md` R243,
R244, R246 to R250). -/
def Obligations.ClassifyByClass : Prop :=
  ∀ (e : Engine) (f : List Byte),
    let dst := f.take 6
    let allOnes := dst = [0xFF, 0xFF, 0xFF, 0xFF, 0xFF, 0xFF]
    let group := (byteAt f 0).getLsbD 0 = true
    let bit := if (mhashIndex dst).toNat < 32 then e.mhashLo.getLsbD (mhashIndex dst).toNat
      else e.mhashHi.getLsbD ((mhashIndex dst).toNat - 32)
    let mac := [e.macLo.extractLsb' 0 8, e.macLo.extractLsb' 8 8, e.macLo.extractLsb' 16 8,
      e.macLo.extractLsb' 24 8, e.macHi.extractLsb' 0 8, e.macHi.extractLsb' 8 8]
    (f.length < 6 → classify e f = none)
    ∧ (6 ≤ f.length →
        (classify e f = some .broadcast ↔ allOnes ∧ e.rxFilter.getLsbD 1 = true)
        ∧ (classify e f = some .multicast ↔ group ∧ ¬allOnes ∧ e.rxFilter.getLsbD 2 = true ∧ bit = true)
        ∧ (classify e f = some .unicast ↔ ¬group ∧ e.rxFilter.getLsbD 0 = true ∧ dst = mac)
        ∧ (e.rxFilter.getLsbD 3 = true → classify e f ≠ none)
        ∧ (e.rxFilter.getLsbD 3 = false → classify e f ≠ some .promiscuous)
        ∧ (e.rxFilter = 0 → classify e f = none))

/-- A `receive` call before its first fetch: dropped without a trace with `RX_EN = 0` or when the filter rejects;
an overrun without any memory access when no ring is configured; else the delivery starts at the RX cursor with
the frame and its CRC tail (`43_rx_filter.md` R241, R251, R252, R261, R262, R263). `can_receive` answers
`CTRL.RX_EN` and changes nothing (R240). -/
def Obligations.TransportCalls : Prop :=
  (∀ (s : State) (rest : List Input), s.op = {} → s.inputs = .canReceive :: rest →
    step s = .next { s with inputs := rest, events := s.events ++ [.canReceiveData (s.eng.ctrl.getLsbD 1)] })
  ∧ ∀ (s : State) (f : List Byte) (rest : List Input),
    s.op = {} → s.inputs = .receive f :: rest →
    ((s.eng.ctrl.getLsbD 1 = false ∨ classify s.eng f = none) → step s = .next { s with inputs := rest })
    ∧ (∀ m, s.eng.ctrl.getLsbD 1 = true → classify s.eng f = some m →
        (s.eng.rxr.cap = 0 → step s = .next (afterOverrun { s with inputs := rest } []))
        ∧ (s.eng.rxr.cap ≠ 0 → step s = .next { s with inputs := rest, op := { phase := .rxScan, rx :=
            { kind := m, vl := decide (14 ≤ f.length ∧ byteAt f 12 = 0x81 ∧ byteAt f 13 = 0x00),
              data := if s.eng.ctrl.getLsbD 4 then f ++ le32 (crc32 f) else f, chain := [],
              next := s.eng.rxr.idx } } }))

/-- Published values of the two CRCs: the frame check sequence of the nine ASCII digits and its tail
(`43_rx_filter.md` R261), and the multicast hash of three addresses (R245). -/
def Obligations.CrcValues : Prop :=
  crc32 [0x31, 0x32, 0x33, 0x34, 0x35, 0x36, 0x37, 0x38, 0x39] = 0xCBF43926
  ∧ le32 (crc32 [0x31, 0x32, 0x33, 0x34, 0x35, 0x36, 0x37, 0x38, 0x39]) = [0x26, 0x39, 0xF4, 0xCB]
  ∧ hashCrc [0x01, 0x00, 0x5E, 0x00, 0x00, 0x01] = 0x7FA32D9B ∧ mhashIndex [0x01, 0x00, 0x5E, 0x00, 0x00, 0x01] = 31
  ∧ hashCrc [0x33, 0x33, 0x00, 0x00, 0x00, 0x01] = 0xF99BAABA ∧ mhashIndex [0x33, 0x33, 0x00, 0x00, 0x00, 0x01] = 62
  ∧ hashCrc [0x01, 0x80, 0xC2, 0x00, 0x00, 0x00] = 0x67D8C317 ∧ mhashIndex [0x01, 0x80, 0xC2, 0x00, 0x00, 0x00] = 25

/-- `RXD.HOST`, and a faulting fetch with one report more, are an overrun: the frame is dropped, exactly `RXOVR`
is raised, the missed frame is counted, `rx_nores` is set, the RX cursor stays and nothing is written to guest
memory (`43_rx_filter.md` R263; `40_ring_and_descriptor.md` R141). -/
def Obligations.RxNoDescriptorOverruns : Prop :=
  (∀ (s : State) (d : RxFields), exec (.rxdHost d) s = .next (afterOverrun s []))
  ∧ (∀ (s : State) (r : Reply) (rest : List Reply), s.op.phase = .rxScan → s.replies = r :: rest → r.answer = .fault →
      step s = .next (afterOverrun { s with replies := rest, mem := applyStores r.stores s.mem }
        [.memRead (slotAddr s.eng.rxr s.op.rx.next) 32 false,
         .platformFault (slotAddr s.eng.rxr s.op.rx.next) 32 .read]))

/-- `RXD.FREE` whose buffer holds the whole frame, with guest memory as plain RAM: the bytes go into the buffer,
then word 0 is written back `FS|LS|DONE` with the VLAN indication, the match type and the byte count, the cursor
advances, the frame is counted and `RXDONE` raised (`43_rx_filter.md` R267, R268). -/
def Obligations.RxSingleDelivery : Prop :=
  ∀ (s : State) (d : RxFields),
    let need := s.op.rx.data.length
    let w0' := (rxWord0 true d &&& ~~~0xB0F3FFFF) ||| 0x30400000 ||| (if s.op.rx.vl then 0x00800000 else 0)
      ||| (match s.op.rx.kind with | .unicast => 0 | .broadcast => 0x10000 | .multicast => 0x20000 | .promiscuous => 0x30000)
      ||| BitVec.ofNat 32 need
    s.replies = [] → s.op.rx.chain = [] → s.op.rx.data ≠ [] → need ≤ s.cfg.maxFrame → need ≤ d.len.toNat →
    exec (.rxdFree d) s
      = .next (afterDelivery s
          [(d.buf, s.op.rx.data), (slotAddr s.eng.rxr s.op.rx.next, le32 w0')]
          (advance s.eng.rxr s.op.rx.next d.eor) true)

/-- The oversize drop: a frame larger than `MAX_FRAME`, or in drop mode larger than the first buffer, is dropped
with an error status in one descriptor, which is consumed; no buffer write; counted as an error; `RXDONE` raised;
here with guest memory as plain RAM. If the writeback faults, the fault is reported and nothing more happens
(`43_rx_filter.md` R264). -/
def Obligations.RxOversizeDrop : Prop :=
  ∀ (s : State) (d : RxFields),
    let need := s.op.rx.data.length
    let w0' := (rxWord0 true d &&& ~~~0xB0F3FFFF) ||| 0x30700000 ||| (if s.op.rx.vl then 0x00800000 else 0)
      ||| (match s.op.rx.kind with | .unicast => 0 | .broadcast => 0x10000 | .multicast => 0x20000 | .promiscuous => 0x30000)
    s.op.rx.chain = [] →
    (s.cfg.maxFrame < need ∨ s.eng.ctrl.getLsbD 3 = false ∧ d.len.toNat < need) →
    (s.replies = [] → exec (.rxdFree d) s
      = .next (afterDelivery s [(slotAddr s.eng.rxr s.op.rx.next, le32 w0')]
          (advance s.eng.rxr s.op.rx.next d.eor) false))
    ∧ (∀ r rest, s.replies = r :: rest → r.answer = .fault → exec (.rxdFree d) s
      = .next { s with replies := rest, mem := applyStores r.stores s.mem, op := {},
                       events := s.events ++ [.memWrite (slotAddr s.eng.rxr s.op.rx.next) (le32 w0') false,
                         .platformFault (slotAddr s.eng.rxr s.op.rx.next) 4 .write] })

/-- The pre-scan of chained mode with a descriptor that leaves the chain too short: the next slot is fetched
unless it is already in the chain, and then the scan has lapped the ring and the frame is an overrun; nothing is
written either way (`43_rx_filter.md` R266). -/
def Obligations.RxPreScan : Prop :=
  ∀ (s : State) (d : RxFields),
    let next := advance s.eng.rxr s.op.rx.next d.eor
    s.eng.ctrl.getLsbD 3 = true → s.op.rx.data.length ≤ s.cfg.maxFrame →
    chainCap s.op.rx.chain + d.len.toNat < s.op.rx.data.length →
    ((∀ sl ∈ fetchedChain s d, sl.idx ≠ next) → exec (.rxdFree d) s
      = .next { s with op := { s.op with phase := .rxScan,
                                         rx := { s.op.rx with chain := fetchedChain s d, next := next } } })
    ∧ ((∃ sl ∈ fetchedChain s d, sl.idx = next) → exec (.rxdFree d) s = .next (afterOverrun s []))

/-- The write phase over a whole chain, with guest memory as plain RAM: every descriptor in ring order gets its
share of the data in its buffer and then its writeback, all but the last filled to their `LEN`; the shares
concatenate to the data; `FS` stands in the first and `LS` in the last; then the cursor is behind the chain, the
frame is counted once and `RXDONE` raised once. The write phase belongs to the step of the last descriptor fetched:
the model's choice (assumption log 16) (`43_rx_filter.md` R266, R267, R268). -/
def Obligations.RxChainDelivery : Prop :=
  ∀ (s : State) (d : RxFields),
    let chain := fetchedChain s d
    s.replies = [] → s.eng.ctrl.getLsbD 3 = true → s.op.rx.data.length ≤ s.cfg.maxFrame →
    chainCap s.op.rx.chain < s.op.rx.data.length → s.op.rx.data.length ≤ chainCap chain →
    exec (.rxdFree d) s
      = .next (afterDelivery s (rxWrites s.op.rx chain) (advance s.eng.rxr s.op.rx.next d.eor) true)
    ∧ ((List.range chain.length).map (rxShare s.op.rx.data chain)).flatten = s.op.rx.data
    ∧ ∀ k sl, chain[k]? = some sl → k + 1 < chain.length →
        (rxShare s.op.rx.data chain k).length = sl.d.len.toNat

/-- A fault in the write phase of a delivery into one descriptor or a chain, at the write `j` (the buffer, unless
its share is empty, then the writeback) of element `k`: the elements before `k` have their shares and their
host-owned words, each write one call in order, and the cursor is behind them; of element `k` the writes before `j`
are made; the faulting write stores nothing and is reported, so the descriptor of element `k` and those behind it
stay device-owned; the call returns, no cause is raised and no counter moves. The write phase belongs to the step of
the last descriptor fetched: the model's choice (assumption log 16) (`43_rx_filter.md` R267; `60_exceptions.md`
R336). -/
def Obligations.RxWriteFaultStops : Prop :=
  ∀ (s : State) (d : RxFields) (k j : Nat) (w : Addr × List Byte) (pre : List Reply) (r : Reply) (rest : List Reply),
    let chain := fetchedChain s d
    let made := (List.range k).flatMap (rxSlotWrites s.op.rx chain) ++ (rxSlotWrites s.op.rx chain k).take j
    s.op.rx.data.length ≤ s.cfg.maxFrame → s.op.rx.data.length ≤ chainCap chain →
    (rxSlotWrites s.op.rx chain k)[j]? = some w →
    s.replies = pre ++ r :: rest → pre.map Reply.answer = List.replicate made.length .plain → r.answer = .fault →
    exec (.rxdFree d) s
      = .next (afterFaultedWrite s pre made r rest w (rxIdxBefore s.eng.rxr chain k))
    ∧ ∀ i < k, ∀ sl, chain[i]? = some sl →
        ∃ w0' : Word, (rxSlotWrites s.op.rx chain i).getLast? = some (sl.addr, le32 w0') ∧ w0'.getLsbD 31 = false

/-! ## The whole machine -/

/-- Apart from the driver's own stores, guest memory changes only in word 0 of the descriptor a device-owned TX
row was fetched from, and in word 0 and in the first `LEN` buffer bytes of the descriptors a delivery fetched
device-owned (`20_memory.md` R93; `40_ring_and_descriptor.md` R142, R143). -/
def Obligations.EngineWritesOnlyWhatItOwns : Prop :=
  ∀ (i : Instr) (s t : State) (x : Nat), exec i s = .next t → t.mem.get x ≠ s.mem.get x →
    DriverTouches s x
    ∨ (∃ ipcs l4cs tso d, i = ownedTx ipcs l4cs tso d ∧ InRange (txSlot s) 4 x)
    ∨ (∃ d sl, i = .rxdFree d ∧ sl ∈ fetchedChain s d ∧ (InRange sl.addr 4 x ∨ InRange sl.d.buf sl.d.len.toNat x))

/-- `base` and `cap` of a ring are written only by its load command and by the resets, and by those `idx` is set
to 0; otherwise the TX index changes only with a device-owned TX descriptor, to the advance of the cursor, and the RX
index only with a device-owned RX descriptor, to the advance of a slot the delivery has fetched (`10_state.md` R21;
`40_ring_and_descriptor.md` R148). -/
def Obligations.RingsChangeOnlyByTheirRows : Prop :=
  ∀ (i : Instr) (s t : State), exec i s = .next t →
    (t.eng.txr = s.eng.txr
      ∨ ((∃ arg, i = .loadTxRing arg ∨ i = .softReset arg ∨ i = .hardReset arg) ∧ t.eng.txr.idx = 0)
      ∨ (∃ ipcs l4cs tso d, i = ownedTx ipcs l4cs tso d
          ∧ t.eng.txr = { s.eng.txr with idx := advance s.eng.txr s.eng.txr.idx d.eor }))
    ∧ (t.eng.rxr = s.eng.rxr
      ∨ ((∃ arg, i = .loadRxRing arg ∨ i = .softReset arg ∨ i = .hardReset arg) ∧ t.eng.rxr.idx = 0)
      ∨ (∃ d sl, i = .rxdFree d ∧ sl ∈ fetchedChain s d
          ∧ t.eng.rxr = { s.eng.rxr with idx := advance s.eng.rxr sl.idx sl.d.eor }))

/-- The station address changes only by `FILTER.W` and by a hard reset, the parameters by nothing, and a set cause
is cleared only by `ICAUSE.ACK` and the resets (`10_state.md` R29, R35, R45; `44_register_window.md` R306,
R307). -/
def Obligations.ProtectedRegisters : Prop :=
  ∀ (i : Instr) (s t : State), exec i s = .next t →
    t.cfg = s.cfg
    ∧ ((t.eng.macLo ≠ s.eng.macLo ∨ t.eng.macHi ≠ s.eng.macHi) →
        (∃ l v, i = .filterWMac l v) ∨ ∃ arg, i = .hardReset arg)
    ∧ (s.eng.icause &&& ~~~t.eng.icause ≠ 0 →
        (∃ l v, i = .icauseAck l v) ∨ ∃ arg, i = .softReset arg ∨ i = .hardReset arg)

/-- `41_tx_path.md` R160: how `tx_state` moves, over every step of a sound state. `Draining` is entered only by a
write that covers the TX doorbell, with `TX_EN = 1` and a ring. From `Draining` a step goes on, ends `Idle`, and then
the fetched descriptor was host-owned or a memory access faulted, or ends `Stalled` with `TXSTALL` raised, and then
the run had consumed `txr.cap` descriptors. Into `Stalled` from elsewhere only by a write that covers the TX
doorbell, with `TX_EN = 1` and no ring, `TXSTALL` raised. From `Stalled` to `Idle` only by `LOAD_TX_RING`,
`SOFT_RESET` or `HARD_RESET`. -/
def Obligations.TxStateMoves : Prop :=
  ∀ s t : State, Inv s → step s = .next t → t.eng.txState ≠ s.eng.txState →
    match s.eng.txState, t.eng.txState with
    | _, .draining => s.op.phase = .lanes ∧ s.op.Mentions .txDoorbell ∧ t.eng.txEn = true ∧ t.eng.txr.cap ≠ 0
    | .draining, .stalled => s.op.phase = .txRun ∧ s.op.consumed = s.eng.txr.cap.toNat ∧ t.eng.icause.getLsbD 3 = true
    | _, .stalled => s.op.phase = .lanes ∧ s.op.Mentions .txDoorbell ∧ t.eng.txEn = true ∧ t.eng.txr.cap = 0
        ∧ t.eng.icause.getLsbD 3 = true
    | .draining, .idle => s.op.phase = .txRun
        ∧ ((∃ bs u ipcs l4cs tso d, memRead (txSlot s) 32 s = (some bs, u)
              ∧ decode .txd bs = .ok (.txdHost ipcs l4cs tso d))
          ∨ ∃ es a n dir, t.events = s.events ++ es ∧ .platformFault a n dir ∈ es)
    | _, .idle => s.op.phase = .command
        ∧ ∃ arg, decode .cmd16 (le16 s.eng.cmd) = .ok (.loadTxRing arg)
          ∨ decode .cmd16 (le16 s.eng.cmd) = .ok (.softReset arg)
          ∨ decode .cmd16 (le16 s.eng.cmd) = .ok (.hardReset arg)
end

