-- ==== Sys2Proof/Laws/Codec.lean ====
section
/-!
SUPPORT. The byte-order helpers of the decoder and the encoder undo each other, lane by lane and word by word.
-/

namespace Sys2Proof

@[simp] theorem length_le32 (w : Word) : (le32 w).length = 4 := rfl
@[simp] theorem length_le16 (h : Half) : (le16 h).length = 2 := rfl

/-- The four bytes of a word, put together again, are the word. -/
theorem word_of_bytes (w : Word) :
    w.extractLsb' 24 8 ++ w.extractLsb' 16 8 ++ w.extractLsb' 8 8 ++ w.extractLsb' 0 8 = w := by
  apply BitVec.eq_of_getLsbD_eq
  intro i hi
  simp only [BitVec.getLsbD_append, BitVec.getLsbD_extractLsb']
  interval_cases i <;> simp

/-- `LE32` undoes `le32` (`00_scope.md` R10). -/
@[simp] theorem le32At_le32 (w : Word) (rest : List Byte) : le32At (le32 w ++ rest) 0 = w := by
  simpa [le32At, byteAt, le32] using word_of_bytes w

/-- `LE32` past the first word of a byte sequence. -/
@[simp] theorem le32At_skip (w : Word) (rest : List Byte) (k : Nat) :
    le32At (le32 w ++ rest) (k + 4) = le32At rest k := by
  simp [le32At, byteAt, le32, List.getD]

@[simp] theorem length_tableBytes (n w : Nat) : (tableBytes n w).length = n := by simp [tableBytes]

/-- The encodings of the two descriptor formats have 32 bytes (`30_encoding.md` R100). -/
@[simp] theorem length_encodeTx (own ipcs l4cs tso : Bool) (d : TxFields) :
    (encodeTx own ipcs l4cs tso d).length = 32 := rfl
@[simp] theorem length_encodeRx (own : Bool) (d : RxFields) : (encodeRx own d).length = 32 := rfl

/-- A lane written is the lane read (`44_register_window.md` R292). -/
theorem laneOf_setLane_same (w : Word) (k : BitVec 2) (v : Byte) : laneOf (setLane w k v) k = v := by
  have h : k.toNat < 4 := k.isLt
  apply BitVec.eq_of_getLsbD_eq
  intro i hi
  unfold laneOf setLane
  generalize hk : k.toNat = n at *
  interval_cases n <;>
    simp only [BitVec.getLsbD_extractLsb', BitVec.getLsbD_append] <;>
    split_ifs <;> simp <;> omega

end Sys2Proof
end

