-- ==== Sys2Proof/Laws/Memory.lean ====
section
/-!
SUPPORT. The laws of guest memory: a read after a write, the frame of a write, and that every memory operation
keeps the canonical form, which the reset memory has.
-/

namespace Sys2Proof.Machine

/-! ## One byte -/

/-- Reading the byte just written. -/
theorem Memory.get_set_same (m : Memory) (a : Nat) (b : Byte) (lo : Nat) (h : Memory.wfFrom lo m = true) :
    (m.set a b).get a = b := by
  induction m generalizing lo with
  | nil =>
    by_cases hb : b = unlistedByte <;> simp [Memory.set, Memory.get, hb]
  | cons c rest ih =>
    obtain ⟨k, v⟩ := c
    simp only [Memory.wfFrom, Bool.and_eq_true, decide_eq_true_eq] at h
    obtain ⟨⟨⟨hlo, hk⟩, hv⟩, hrest⟩ := h
    have unlisted : ∀ (m : Memory) (lo : Nat), Memory.wfFrom lo m = true → a < lo → m.get a = unlistedByte := by
      intro m
      induction m with
      | nil => intros; rfl
      | cons c rest ih2 =>
        intro lo hw hlt
        obtain ⟨k2, v2⟩ := c
        simp only [Memory.wfFrom, Bool.and_eq_true, decide_eq_true_eq] at hw
        obtain ⟨⟨⟨h1, _⟩, _⟩, h4⟩ := hw
        have : k2 ≠ a := by omega
        simp only [Memory.get, this, if_false]
        exact ih2 (k2 + 1) h4 (by omega)
    unfold Memory.set
    by_cases h1 : k < a
    · have : k ≠ a := by omega
      simp only [h1, if_true, Memory.get, this, if_false]
      exact ih (k + 1) hrest
    · by_cases h2 : k = a
      · subst h2
        by_cases hb : b = unlistedByte
        · simp only [lt_irrefl, if_false, if_true, hb]
          rw [unlisted rest (k + 1) hrest (by omega)]
        · simp [hb, Memory.get]
      · by_cases hb : b = unlistedByte
        · simp only [h1, h2, if_false, if_true, hb, Memory.get]
          exact unlisted rest (k + 1) hrest (by omega)
        · simp [h1, h2, hb, Memory.get]

/-- A write leaves every other byte alone. -/
theorem Memory.get_set_other (m : Memory) (a a' : Nat) (b : Byte) (h : a' ≠ a) : (m.set a b).get a' = m.get a' := by
  induction m with
  | nil =>
    by_cases hb : b = unlistedByte
    · simp [Memory.set, hb]
    · simp [Memory.set, hb, Memory.get, Ne.symm h]
  | cons c rest ih =>
    obtain ⟨k, v⟩ := c
    unfold Memory.set
    split
    · simp only [Memory.get, ih]
    · split
      · next hk =>
        subst hk
        split <;> simp [Memory.get, Ne.symm h]
      · split
        · rfl
        · simp [Memory.get, Ne.symm h]

/-- The canonical form from a lower address on. -/
theorem Memory.wfFrom_mono (m : Memory) (lo lo' : Nat) (hle : lo' ≤ lo) (h : Memory.wfFrom lo m = true) :
    Memory.wfFrom lo' m = true := by
  cases m with
  | nil => rfl
  | cons c rest =>
    obtain ⟨k, v⟩ := c
    simp only [Memory.wfFrom, Bool.and_eq_true, decide_eq_true_eq] at h ⊢
    exact ⟨⟨⟨by omega, h.1.1.2⟩, h.1.2⟩, h.2⟩

/-- A write of one byte keeps the canonical form. -/
theorem Memory.wfFrom_set (m : Memory) (lo a : Nat) (b : Byte) (hlo : lo ≤ a) (ha : a < gpaSpace)
    (h : Memory.wfFrom lo m = true) : Memory.wfFrom lo (m.set a b) = true := by
  induction m generalizing lo with
  | nil =>
    by_cases hb : b = unlistedByte
    · simp [Memory.set, hb, Memory.wfFrom]
    · simp [Memory.set, hb, Memory.wfFrom, hlo, ha]
  | cons c rest ih =>
    obtain ⟨k, v⟩ := c
    simp only [Memory.wfFrom, Bool.and_eq_true, decide_eq_true_eq] at h
    obtain ⟨⟨⟨h1, h2⟩, h3⟩, h4⟩ := h
    unfold Memory.set
    split
    · next hk =>
      simp only [Memory.wfFrom, Bool.and_eq_true, decide_eq_true_eq]
      exact ⟨⟨⟨h1, h2⟩, h3⟩, ih (k + 1) (by omega) h4⟩
    · split
      · next hk =>
        subst hk
        split
        · exact Memory.wfFrom_mono rest (k + 1) lo (by omega) h4
        · next hb =>
          simp only [Memory.wfFrom, Bool.and_eq_true, decide_eq_true_eq]
          exact ⟨⟨⟨hlo, ha⟩, hb⟩, h4⟩
      · split
        · simp only [Memory.wfFrom, Bool.and_eq_true, decide_eq_true_eq]
          exact ⟨⟨⟨h1, h2⟩, h3⟩, h4⟩
        · next hb =>
          simp only [Memory.wfFrom, Bool.and_eq_true, decide_eq_true_eq]
          exact ⟨⟨⟨hlo, ha⟩, hb⟩, ⟨⟨by omega, h2⟩, h3⟩, h4⟩

/-- A write of one byte keeps the canonical form. -/
theorem Memory.wf_set (m : Memory) (a : Nat) (b : Byte) (ha : a < gpaSpace) (h : m.wf = true) :
    (m.set a b).wf = true := Memory.wfFrom_set m 0 a b (Nat.zero_le _) ha h

/-! ## Byte sequences -/

/-- A write of a byte sequence keeps the canonical form. -/
theorem Memory.wf_writeBytes (m : Memory) (a : Nat) (bs : List Byte) (h : m.wf = true) :
    (m.writeBytes a bs).wf = true := by
  induction bs generalizing m a with
  | nil => exact h
  | cons b bs ih =>
    exact ih _ _ (Memory.wf_set m _ b (Nat.mod_lt _ (by simp [gpaSpace])) h)

/-- A read of `n` bytes gives `n` bytes. -/
@[simp] theorem Memory.length_readBytes (m : Memory) (a n : Nat) : (m.readBytes a n).length = n := by
  induction n generalizing a with
  | zero => rfl
  | succ n ih => simp [Memory.readBytes, ih]

/-- A write of a byte sequence leaves every byte outside it alone: byte `i` of it is at `(a + i) mod 2^64`. -/
theorem Memory.get_writeBytes_other (m : Memory) (a x : Nat) (bs : List Byte)
    (h : ∀ i < bs.length, (a + i) % gpaSpace ≠ x) : (m.writeBytes a bs).get x = m.get x := by
  induction bs generalizing m a with
  | nil => rfl
  | cons b bs ih =>
    have h0 : a % gpaSpace ≠ x := by simpa using h 0 (by simp)
    have hs : ∀ i < bs.length, (a + 1 + i) % gpaSpace ≠ x := by
      intro i hi
      have := h (i + 1) (by simpa using hi)
      simpa [Nat.add_assoc, Nat.add_comm 1 i] using this
    simp only [Memory.writeBytes]
    rw [ih _ _ hs, Memory.get_set_other _ _ _ _ (Ne.symm h0)]

/-- What a write of a byte sequence stores: byte `i` is read back at `(a + i) mod 2^64`, when the sequence is
no longer than the address space. -/
theorem Memory.get_writeBytes (m : Memory) (a i : Nat) (bs : List Byte) (hi : i < bs.length)
    (hlen : bs.length ≤ gpaSpace) (h : m.wf = true) :
    (m.writeBytes a bs).get ((a + i) % gpaSpace) = bs[i] := by
  have hpos : 0 < gpaSpace := by simp [gpaSpace]
  induction bs generalizing m a i with
  | nil => simp at hi
  | cons b bs ih =>
    simp only [Memory.writeBytes]
    have hw := Memory.wf_set m (a % gpaSpace) b (Nat.mod_lt _ hpos) h
    cases i with
    | zero =>
      rw [Memory.get_writeBytes_other]
      · simpa using Memory.get_set_same m (a % gpaSpace) b 0 h
      · intro j hj he
        simp only [List.length_cons] at hlen
        simp only [gpaSpace] at he hlen
        omega
    | succ i =>
      have := ih (m.set (a % gpaSpace) b) (a + 1) i (by simpa using hi) (by simp at hlen; omega) hw
      simpa [Nat.add_assoc, Nat.add_comm 1 i] using this

/-- Reading back what was written. -/
theorem Memory.readBytes_writeBytes (m : Memory) (a : Nat) (bs : List Byte) (hlen : bs.length ≤ gpaSpace)
    (h : m.wf = true) : (m.writeBytes a bs).readBytes a bs.length = bs := by
  have key : ∀ (m' : Memory) (n a' : Nat), m'.readBytes a' n = (List.range n).map fun i => m'.get ((a' + i) % gpaSpace) := by
    intro m' n
    induction n with
    | zero => intro a'; rfl
    | succ n ih =>
      intro a'
      simp [Memory.readBytes, ih, List.range_succ_eq_map, Nat.add_assoc, Nat.add_comm 1]
  rw [key]
  apply List.ext_getElem
  · simp
  · intro i h1 h2
    simp only [List.getElem_map, List.getElem_range]
    exact Memory.get_writeBytes m a i bs h2 hlen h

/-- A byte sequence read is the bytes at the addresses it spans. -/
theorem Memory.getElem_readBytes (m : Memory) (a n i : Nat) (h : i < (m.readBytes a n).length) :
    (m.readBytes a n)[i] = m.get ((a + i) % gpaSpace) := by
  induction n generalizing a i with
  | zero => simp at h
  | succ n ih =>
    cases i with
    | zero => rfl
    | succ i =>
      simp only [Memory.readBytes, List.getElem_cons_succ]
      rw [ih]
      rw [Nat.add_assoc, Nat.add_comm 1 i]

/-- The driver's stores keep the canonical form. -/
theorem applyStores_wf (sts : List Store) (m : Memory) (h : m.wf = true) : (applyStores sts m).wf = true := by
  induction sts generalizing m with
  | nil => exact h
  | cons st sts ih => exact ih _ (Memory.wf_writeBytes m _ _ h)

/-- The reset memory is in canonical form. -/
theorem reset_mem_wf : State.reset.mem.wf = true := rfl

end Sys2Proof.Machine
end

