-- ==== Sys2Proof/Laws/Offload.lean ====
section
/-!
SUPPORT. The small lemmas of frames as byte sequences: what a replaced byte, halfword or word and a slice read as,
how long they are, and what the checksum fields and segments of the offload engine keep.
-/

namespace Sys2Proof.Machine

/-! ## Reading a frame -/

theorem byteAt_eq (f : List Byte) (k : Nat) : byteAt f k = f.getD k 0 := rfl

theorem byteAt_getElem (f : List Byte) (k : Nat) (h : k < f.length) : byteAt f k = f[k] := by
  simp [byteAt, List.getD, h]

theorem byteAt_beyond (f : List Byte) (k : Nat) (h : f.length ≤ k) : byteAt f k = 0 := by
  simp [byteAt, List.getD, List.getElem?_eq_none h]

/-- Frames of one length that read alike are the same. -/
theorem ext_byteAt (f g : List Byte) (hl : f.length = g.length) (h : ∀ k < f.length, byteAt f k = byteAt g k) :
    f = g := by
  apply List.ext_getElem hl
  intro k h1 h2
  rw [← byteAt_getElem f k h1, ← byteAt_getElem g k h2]
  exact h k h1

theorem byteAt_append_left (f g : List Byte) (k : Nat) (h : k < f.length) : byteAt (f ++ g) k = byteAt f k := by
  simp [byteAt, List.getD, List.getElem?_append_left h]

theorem byteAt_append_right (f g : List Byte) (k : Nat) (h : f.length ≤ k) :
    byteAt (f ++ g) k = byteAt g (k - f.length) := by
  simp [byteAt, List.getD, List.getElem?_append_right h]

/-- A frame given byte by byte. -/
theorem byteAt_map_range (F : Nat → Byte) (n k : Nat) (h : k < n) : byteAt ((List.range n).map F) k = F k := by
  rw [byteAt_getElem _ _ (by simpa using h)]; simp

@[simp] theorem length_slice (f : List Byte) (i j : Nat) : (slice f i j).length = min (j - i) (f.length - i) := by
  simp [slice]

/-- A slice reads what the frame reads at its place. -/
theorem byteAt_slice (f : List Byte) (i j k : Nat) (h : k < j - i) : byteAt (slice f i j) k = byteAt f (i + k) := by
  simp [byteAt, List.getD, slice, h]

/-! ## Replaced bytes -/

@[simp] theorem length_putByte (f : List Byte) (k : Nat) (b : Byte) : (putByte f k b).length = f.length := by
  simp [putByte]

theorem byteAt_putByte (f : List Byte) (k j : Nat) (b : Byte) :
    byteAt (putByte f k b) j = if k = j ∧ j < f.length then b else byteAt f j := by
  simp only [byteAt, putByte, List.getD, List.getElem?_set]
  by_cases h : k = j
  · subst h
    by_cases hk : k < f.length
    · simp [hk]
    · simp [hk]
  · simp [h]

@[simp] theorem length_putBe16 (f : List Byte) (k : Nat) (h : Half) : (putBe16 f k h).length = f.length := by
  simp [putBe16]

/-- What a frame with a halfword replaced reads as. -/
theorem byteAt_putBe16 (f : List Byte) (k j : Nat) (h : Half) (hk : k + 2 ≤ f.length) :
    byteAt (putBe16 f k h) j
      = if j = k then h.extractLsb' 8 8 else if j = k + 1 then h.extractLsb' 0 8 else byteAt f j := by
  unfold putBe16
  rw [byteAt_putByte, byteAt_putByte]
  simp only [length_putByte]
  by_cases h1 : j = k
  · rw [if_neg (by omega), if_pos (by omega), if_pos h1]
  · rw [if_neg h1]
    by_cases h2 : j = k + 1
    · rw [if_pos (by omega), if_pos h2]
    · rw [if_neg (by omega), if_neg (by omega), if_neg h2]

@[simp] theorem length_putBe32 (f : List Byte) (k : Nat) (w : Word) : (putBe32 f k w).length = f.length := by
  simp [putBe32]

/-- A halfword put together from its two bytes. -/
theorem half_of_bytes (h : Half) : h.extractLsb' 8 8 ++ h.extractLsb' 0 8 = h := by
  apply BitVec.eq_of_getLsbD_eq
  intro i hi
  simp only [BitVec.getLsbD_append, BitVec.getLsbD_extractLsb']
  interval_cases i <;> simp

/-- A halfword just replaced reads back. -/
theorem be16At_putBe16 (f : List Byte) (k : Nat) (h : Half) (hk : k + 2 ≤ f.length) :
    be16At (putBe16 f k h) k = h := by
  unfold be16At
  rw [byteAt_putBe16 _ _ _ _ hk, byteAt_putBe16 _ _ _ _ hk, if_pos rfl, if_neg (by omega), if_pos rfl]
  exact half_of_bytes h

/-- The second of two halfwords put at the same place is the one that stays. -/
theorem putBe16_putBe16 (f : List Byte) (k : Nat) (a b : Half) : putBe16 (putBe16 f k a) k b = putBe16 f k b := by
  unfold putBe16 putByte
  simp [List.set_comm]

/-! ## Lengths of what the offload engine makes -/

@[simp] theorem length_zeroStore (g : List Byte) (pos : Nat) : (zeroStore g pos).length = g.length := by
  simp [zeroStore]
@[simp] theorem length_ipCk (g : List Byte) (a b c : Nat) : (ipCk g a b c).length = g.length := by simp [ipCk]
@[simp] theorem length_l4Ck (g : List Byte) (a b c : Nat) : (l4Ck g a b c).length = g.length := by simp [l4Ck]

theorem length_singleFrame (oc : OffloadCtx) (f : List Byte) : (singleFrame oc f).length = f.length := by
  unfold singleFrame
  simp only
  split <;> split <;> simp

@[simp] theorem length_rewriteFields (oc : OffloadCtx) (f : List Byte) (k : Nat) (seg : List Byte) :
    (rewriteFields oc f k seg).length = seg.length := by simp [rewriteFields]

@[simp] theorem length_clearPshFin (oc : OffloadCtx) (f : List Byte) (k : Nat) (seg : List Byte) :
    (clearPshFin oc f k seg).length = seg.length := by unfold clearPshFin; split <;> simp

@[simp] theorem length_segment (oc : OffloadCtx) (f : List Byte) (k : Nat) :
    (segment oc f k).length = (rawSegment oc f k).length := by simp [segment]

end Sys2Proof.Machine
end

