-- ==== Sys2Proof/Laws/State.lean ====
section
/-!
SUPPORT. One lemma per field per small update of State, each true by unfolding the update once: what
`logEvent`, `endOp`, `raiseCause`, `irqEval`, `countTxRej`, `sendFrame`, `resetPf` and `noteTrigger` leave.
-/

namespace Sys2Proof.Machine

/-! ## `logEvent` -/

@[simp] theorem logEvent_cfg (e : Event) (s : State) : (logEvent e s).cfg = s.cfg := rfl
@[simp] theorem logEvent_eng (e : Event) (s : State) : (logEvent e s).eng = s.eng := rfl
@[simp] theorem logEvent_op (e : Event) (s : State) : (logEvent e s).op = s.op := rfl
@[simp] theorem logEvent_mem (e : Event) (s : State) : (logEvent e s).mem = s.mem := rfl
@[simp] theorem logEvent_replies (e : Event) (s : State) : (logEvent e s).replies = s.replies := rfl
@[simp] theorem logEvent_inputs (e : Event) (s : State) : (logEvent e s).inputs = s.inputs := rfl
@[simp] theorem logEvent_events (e : Event) (s : State) : (logEvent e s).events = s.events ++ [e] := rfl

/-! ## `platformFault` -/

@[simp] theorem platformFault_cfg (a : Addr) (n : Nat) (d : Dir) (s : State) : (platformFault a n d s).cfg = s.cfg := rfl
@[simp] theorem platformFault_eng (a : Addr) (n : Nat) (d : Dir) (s : State) : (platformFault a n d s).eng = s.eng := rfl
@[simp] theorem platformFault_op (a : Addr) (n : Nat) (d : Dir) (s : State) : (platformFault a n d s).op = s.op := rfl
@[simp] theorem platformFault_mem (a : Addr) (n : Nat) (d : Dir) (s : State) : (platformFault a n d s).mem = s.mem := rfl
@[simp] theorem platformFault_replies (a : Addr) (n : Nat) (d : Dir) (s : State) :
    (platformFault a n d s).replies = s.replies := rfl
@[simp] theorem platformFault_inputs (a : Addr) (n : Nat) (d : Dir) (s : State) :
    (platformFault a n d s).inputs = s.inputs := rfl
@[simp] theorem platformFault_events (a : Addr) (n : Nat) (d : Dir) (s : State) :
    (platformFault a n d s).events = s.events ++ [.platformFault a n d] := rfl

/-! ## `endOp` -/

@[simp] theorem endOp_cfg (s : State) : (endOp s).cfg = s.cfg := rfl
@[simp] theorem endOp_eng (s : State) : (endOp s).eng = s.eng := rfl
@[simp] theorem endOp_op (s : State) : (endOp s).op = {} := rfl
@[simp] theorem endOp_mem (s : State) : (endOp s).mem = s.mem := rfl
@[simp] theorem endOp_replies (s : State) : (endOp s).replies = s.replies := rfl
@[simp] theorem endOp_inputs (s : State) : (endOp s).inputs = s.inputs := rfl
@[simp] theorem endOp_events (s : State) : (endOp s).events = s.events := rfl

/-! ## `raiseCause` -/

@[simp] theorem raiseCause_cfg (b : BitVec 4) (s : State) : (raiseCause b s).cfg = s.cfg := rfl
@[simp] theorem raiseCause_eng (b : BitVec 4) (s : State) :
    (raiseCause b s).eng = { s.eng with icause := s.eng.icause ||| b } := rfl
@[simp] theorem raiseCause_op (b : BitVec 4) (s : State) : (raiseCause b s).op = s.op := rfl
@[simp] theorem raiseCause_mem (b : BitVec 4) (s : State) : (raiseCause b s).mem = s.mem := rfl
@[simp] theorem raiseCause_replies (b : BitVec 4) (s : State) : (raiseCause b s).replies = s.replies := rfl
@[simp] theorem raiseCause_inputs (b : BitVec 4) (s : State) : (raiseCause b s).inputs = s.inputs := rfl
@[simp] theorem raiseCause_events (b : BitVec 4) (s : State) : (raiseCause b s).events = s.events := rfl

/-! ## `irqEval` -/

@[simp] theorem irqEval_cfg (s : State) : (irqEval s).cfg = s.cfg := by unfold irqEval; split <;> rfl
@[simp] theorem irqEval_op (s : State) : (irqEval s).op = s.op := by unfold irqEval; split <;> rfl
@[simp] theorem irqEval_mem (s : State) : (irqEval s).mem = s.mem := by unfold irqEval; split <;> rfl
@[simp] theorem irqEval_replies (s : State) : (irqEval s).replies = s.replies := by unfold irqEval; split <;> rfl
@[simp] theorem irqEval_inputs (s : State) : (irqEval s).inputs = s.inputs := by unfold irqEval; split <;> rfl
/-- After `IrqEval` the line has the wanted level and nothing else of the engine has changed. -/
@[simp] theorem irqEval_eng (s : State) : (irqEval s).eng = { s.eng with irqLine := s.eng.lineWanted } := by
  unfold irqEval
  split
  · next h => rw [h]
  · rfl
/-- `IrqEval` puts out one event when the level changes and none otherwise (`60_exceptions.md` R341). -/
theorem irqEval_events (s : State) :
    (irqEval s).events
      = s.events ++ (if s.eng.lineWanted = s.eng.irqLine then [] else [.lineChange s.eng.lineWanted]) := by
  unfold irqEval
  split <;> simp_all

/-- The wanted level does not depend on the level driven. -/
@[simp] theorem lineWanted_irqLine (e : Engine) (b : Bool) : ({ e with irqLine := b } : Engine).lineWanted = e.lineWanted := rfl

/-! ## `countTxRej`, `sendFrame`, `sendAll`, `resetPf`, `noteTrigger` -/

@[simp] theorem countTxRej_cfg (s : State) : (countTxRej s).cfg = s.cfg := rfl
@[simp] theorem countTxRej_eng (s : State) : (countTxRej s).eng = { s.eng with cntTxRej := s.eng.cntTxRej + 1 } := rfl
@[simp] theorem countTxRej_op (s : State) : (countTxRej s).op = s.op := rfl
@[simp] theorem countTxRej_mem (s : State) : (countTxRej s).mem = s.mem := rfl
@[simp] theorem countTxRej_replies (s : State) : (countTxRej s).replies = s.replies := rfl
@[simp] theorem countTxRej_inputs (s : State) : (countTxRej s).inputs = s.inputs := rfl
@[simp] theorem countTxRej_events (s : State) : (countTxRej s).events = s.events := rfl

@[simp] theorem sendFrame_cfg (w : List Byte) (s : State) : (sendFrame w s).cfg = s.cfg := rfl
@[simp] theorem sendFrame_eng (w : List Byte) (s : State) :
    (sendFrame w s).eng = { s.eng with cntTxFrames := s.eng.cntTxFrames + 1 } := rfl
@[simp] theorem sendFrame_op (w : List Byte) (s : State) : (sendFrame w s).op = s.op := rfl
@[simp] theorem sendFrame_mem (w : List Byte) (s : State) : (sendFrame w s).mem = s.mem := rfl
@[simp] theorem sendFrame_replies (w : List Byte) (s : State) : (sendFrame w s).replies = s.replies := rfl
@[simp] theorem sendFrame_inputs (w : List Byte) (s : State) : (sendFrame w s).inputs = s.inputs := rfl
@[simp] theorem sendFrame_events (w : List Byte) (s : State) : (sendFrame w s).events = s.events ++ [.send w] := rfl

/-- Everything the `Send` calls of one `Emit` do: one event and one count per frame, in order. -/
theorem sendAll_eq (ws : List (List Byte)) (s : State) :
    sendAll ws s = { s with eng.cntTxFrames := s.eng.cntTxFrames + BitVec.ofNat 32 ws.length,
                            events := s.events ++ ws.map Event.send } := by
  induction ws generalizing s with
  | nil => simp [sendAll]
  | cons w ws ih =>
    simp only [sendAll, ih, sendFrame_eng, sendFrame_events, List.length_cons, List.map_cons, List.append_assoc,
      List.singleton_append]
    have h : s.eng.cntTxFrames + 1 + BitVec.ofNat 32 ws.length
        = s.eng.cntTxFrames + BitVec.ofNat 32 (ws.length + 1) := by
      rw [BitVec.add_assoc, Nat.add_comm, BitVec.ofNat_add]
      rfl
    rw [h]
    rfl

@[simp] theorem resetPf_cfg (s : State) : (resetPf s).cfg = s.cfg := rfl
@[simp] theorem resetPf_eng (s : State) : (resetPf s).eng = { s.eng with pf := {} } := rfl
@[simp] theorem resetPf_op (s : State) : (resetPf s).op = s.op := rfl
@[simp] theorem resetPf_mem (s : State) : (resetPf s).mem = s.mem := rfl
@[simp] theorem resetPf_replies (s : State) : (resetPf s).replies = s.replies := rfl
@[simp] theorem resetPf_inputs (s : State) : (resetPf s).inputs = s.inputs := rfl
@[simp] theorem resetPf_events (s : State) : (resetPf s).events = s.events := rfl

@[simp] theorem noteTrigger_cfg (t : Trigger) (s : State) : (noteTrigger t s).cfg = s.cfg := rfl
@[simp] theorem noteTrigger_eng (t : Trigger) (s : State) : (noteTrigger t s).eng = s.eng := rfl
@[simp] theorem noteTrigger_op (t : Trigger) (s : State) : (noteTrigger t s).op = { s.op with trig := some t } := rfl
@[simp] theorem noteTrigger_mem (t : Trigger) (s : State) : (noteTrigger t s).mem = s.mem := rfl
@[simp] theorem noteTrigger_replies (t : Trigger) (s : State) : (noteTrigger t s).replies = s.replies := rfl
@[simp] theorem noteTrigger_inputs (t : Trigger) (s : State) : (noteTrigger t s).inputs = s.inputs := rfl
@[simp] theorem noteTrigger_events (t : Trigger) (s : State) : (noteTrigger t s).events = s.events := rfl

end Sys2Proof.Machine
end

