-- ==== Sys2Proof/Laws/Ops.lean ====
section
/-!
SUPPORT. Once for each shared operation, everything it can do: the collaborator's calls, the ring cursor
arithmetic and the interrupt evaluation.
-/

namespace Sys2Proof.Machine

/-! ## The collaborator -/

@[simp] theorem takeReply_cfg (s : State) : (takeReply s).2.cfg = s.cfg := by unfold takeReply; split <;> rfl
@[simp] theorem takeReply_eng (s : State) : (takeReply s).2.eng = s.eng := by unfold takeReply; split <;> rfl
@[simp] theorem takeReply_op (s : State) : (takeReply s).2.op = s.op := by unfold takeReply; split <;> rfl
@[simp] theorem takeReply_inputs (s : State) : (takeReply s).2.inputs = s.inputs := by unfold takeReply; split <;> rfl
@[simp] theorem takeReply_events (s : State) : (takeReply s).2.events = s.events := by unfold takeReply; split <;> rfl
@[simp] theorem takeReply_replies (s : State) : (takeReply s).2.replies = s.replies.tail := by
  unfold takeReply; split <;> simp_all

/-- Guest memory when a collaborator call is made: the driver stores that land before it are in it. -/
def memAtCall (rs : List Reply) (m : Memory) : Memory :=
  match rs with
  | [] => m
  | r :: _ => applyStores r.stores m

@[simp] theorem takeReply_mem (s : State) : (takeReply s).2.mem = memAtCall s.replies s.mem := by
  unfold takeReply memAtCall; split <;> simp_all

/-- With no answer left the collaborator is plain RAM (assumption log 2). -/
theorem takeReply_plain (s : State) (h : s.replies = []) : takeReply s = (.plain, s) := by
  simp [takeReply, h]

/-- With no driver store waiting, a call alone changes no memory. -/
theorem memAtCall_noDriver (rs : List Reply) (m : Memory) (h : ∀ r ∈ rs, r.stores = []) : memAtCall rs m = m := by
  cases rs with
  | nil => rfl
  | cons r rest => simp [memAtCall, h r (by simp), applyStores]

theorem memAtCall_wf (rs : List Reply) (m : Memory) (h : m.wf = true) : (memAtCall rs m).wf = true := by
  cases rs with
  | nil => exact h
  | cons r rest => exact applyStores_wf _ _ h

/-- A state after a collaborator call that only took its reply and recorded these events. -/
def afterCall (es : List Event) (s : State) : State :=
  { s with mem := memAtCall s.replies s.mem, replies := s.replies.tail, events := s.events ++ es }

@[simp] theorem afterCall_cfg (es : List Event) (s : State) : (afterCall es s).cfg = s.cfg := rfl
@[simp] theorem afterCall_eng (es : List Event) (s : State) : (afterCall es s).eng = s.eng := rfl
@[simp] theorem afterCall_op (es : List Event) (s : State) : (afterCall es s).op = s.op := rfl
@[simp] theorem afterCall_mem (es : List Event) (s : State) : (afterCall es s).mem = memAtCall s.replies s.mem := rfl
@[simp] theorem afterCall_replies (es : List Event) (s : State) : (afterCall es s).replies = s.replies.tail := rfl
@[simp] theorem afterCall_inputs (es : List Event) (s : State) : (afterCall es s).inputs = s.inputs := rfl
@[simp] theorem afterCall_events (es : List Event) (s : State) : (afterCall es s).events = s.events ++ es := rfl

@[simp] theorem length_fitBytes (n : Nat) (bs : List Byte) : (fitBytes n bs).length = n := by simp [fitBytes]

/-- Everything `MemRead` can do. -/
theorem memRead_cases (a : Addr) (n : Nat) (s : State) :
    (∃ bs, bs.length = n ∧ memRead a n s = (some bs, afterCall [.memRead a n true] s))
      ∨ memRead a n s = (none, afterCall [.memRead a n false, .platformFault a n .read] s) := by
  obtain ⟨c, e, o, m, rs, ins, evs⟩ := s
  cases rs with
  | nil => exact .inl ⟨_, Memory.length_readBytes _ _ _, rfl⟩
  | cons r rest =>
    obtain ⟨sts, ans⟩ := r
    cases ans with
    | plain => exact .inl ⟨_, Memory.length_readBytes _ _ _, rfl⟩
    | other bs => exact .inl ⟨_, length_fitBytes _ _, rfl⟩
    | fault => exact .inr (by simp [memRead, takeReply, afterCall, memAtCall, logEvent, platformFault])

/-- `MemRead` of plain RAM. -/
theorem memRead_plain (a : Addr) (n : Nat) (s : State) (h : s.replies = []) :
    memRead a n s = (some (s.mem.readBytes a.toNat n), logEvent (.memRead a n true) s) := by
  simp [memRead, takeReply_plain s h]

/-- Everything `MemWrite` can do: the bytes stored, an `ok` that does not stick, a fault. -/
theorem memWrite_cases (a : Addr) (bs : List Byte) (s : State) :
    memWrite a bs s = (true, { afterCall [.memWrite a bs true] s with
                                 mem := (memAtCall s.replies s.mem).writeBytes a.toNat bs })
      ∨ memWrite a bs s = (true, afterCall [.memWrite a bs true] s)
      ∨ memWrite a bs s
          = (false, afterCall [.memWrite a bs false, .platformFault a bs.length .write] s) := by
  obtain ⟨c, e, o, m, rs, ins, evs⟩ := s
  cases rs with
  | nil => exact .inl rfl
  | cons r rest =>
    obtain ⟨sts, ans⟩ := r
    cases ans with
    | plain => exact .inl rfl
    | other bs => exact .inr (.inl rfl)
    | fault => exact .inr (.inr (by simp [memWrite, takeReply, afterCall, memAtCall, logEvent, platformFault]))

/-- `MemWrite` to plain RAM. -/
theorem memWrite_plain (a : Addr) (bs : List Byte) (s : State) (h : s.replies = []) :
    memWrite a bs s = (true, logEvent (.memWrite a bs true) { s with mem := s.mem.writeBytes a.toNat bs }) := by
  simp [memWrite, takeReply_plain s h]

/-! What a call leaves alone, and what it keeps. -/

@[simp] theorem memRead_cfg (a : Addr) (n : Nat) (s : State) : (memRead a n s).2.cfg = s.cfg := by
  obtain ⟨_, _, h⟩ | h := memRead_cases a n s <;> simp [h]
@[simp] theorem memRead_eng (a : Addr) (n : Nat) (s : State) : (memRead a n s).2.eng = s.eng := by
  obtain ⟨_, _, h⟩ | h := memRead_cases a n s <;> simp [h]
@[simp] theorem memRead_op (a : Addr) (n : Nat) (s : State) : (memRead a n s).2.op = s.op := by
  obtain ⟨_, _, h⟩ | h := memRead_cases a n s <;> simp [h]
@[simp] theorem memRead_inputs (a : Addr) (n : Nat) (s : State) : (memRead a n s).2.inputs = s.inputs := by
  obtain ⟨_, _, h⟩ | h := memRead_cases a n s <;> simp [h]
@[simp] theorem memRead_replies (a : Addr) (n : Nat) (s : State) : (memRead a n s).2.replies = s.replies.tail := by
  obtain ⟨_, _, h⟩ | h := memRead_cases a n s <;> simp [h]
@[simp] theorem memRead_mem (a : Addr) (n : Nat) (s : State) : (memRead a n s).2.mem = memAtCall s.replies s.mem := by
  obtain ⟨_, _, h⟩ | h := memRead_cases a n s <;> simp [h]
/-- The length of what a read returns. -/
theorem memRead_length (a : Addr) (n : Nat) (s : State) (bs : List Byte) (h : (memRead a n s).1 = some bs) :
    bs.length = n := by
  obtain ⟨_, hl, h'⟩ | h' := memRead_cases a n s
  · rw [h'] at h; simp_all
  · rw [h'] at h; simp_all

@[simp] theorem memWrite_cfg (a : Addr) (bs : List Byte) (s : State) : (memWrite a bs s).2.cfg = s.cfg := by
  obtain h | h | h := memWrite_cases a bs s <;> simp [h]
@[simp] theorem memWrite_eng (a : Addr) (bs : List Byte) (s : State) : (memWrite a bs s).2.eng = s.eng := by
  obtain h | h | h := memWrite_cases a bs s <;> simp [h]
@[simp] theorem memWrite_op (a : Addr) (bs : List Byte) (s : State) : (memWrite a bs s).2.op = s.op := by
  obtain h | h | h := memWrite_cases a bs s <;> simp [h]
@[simp] theorem memWrite_inputs (a : Addr) (bs : List Byte) (s : State) : (memWrite a bs s).2.inputs = s.inputs := by
  obtain h | h | h := memWrite_cases a bs s <;> simp [h]
@[simp] theorem memWrite_replies (a : Addr) (bs : List Byte) (s : State) :
    (memWrite a bs s).2.replies = s.replies.tail := by
  obtain h | h | h := memWrite_cases a bs s <;> simp [h]

/-- The calls keep the canonical form of memory. -/
theorem memRead_wf (a : Addr) (n : Nat) (s : State) (h : s.mem.wf = true) : (memRead a n s).2.mem.wf = true := by
  simpa using memAtCall_wf s.replies s.mem h
theorem memWrite_wf (a : Addr) (bs : List Byte) (s : State) (h : s.mem.wf = true) :
    (memWrite a bs s).2.mem.wf = true := by
  have hw := memAtCall_wf s.replies s.mem h
  obtain h' | h' | h' := memWrite_cases a bs s <;> simp [h', hw, Memory.wf_writeBytes]

/-- A write changes no byte outside the bytes it names, but for what the driver stores before it. -/
theorem memWrite_other (a : Addr) (bs : List Byte) (s : State) (x : Nat)
    (hx : ∀ i < bs.length, (a.toNat + i) % gpaSpace ≠ x) :
    (memWrite a bs s).2.mem.get x = (memAtCall s.replies s.mem).get x := by
  obtain h' | h' | h' := memWrite_cases a bs s <;> simp [h', Memory.get_writeBytes_other _ _ _ _ hx]

/-! ## What every piece of an operation carries along -/

/-- `u` comes after `s` with the parameters and the inputs untouched, memory kept in canonical form, answers of
the collaborator only used up, and events only added. -/
structure Carried (s u : State) : Prop where
  cfg : u.cfg = s.cfg
  inputs : u.inputs = s.inputs
  wf : s.mem.wf = true → u.mem.wf = true
  replies : u.replies <:+ s.replies
  events : ∃ es, u.events = s.events ++ es

theorem Carried.refl (s : State) : Carried s s := ⟨rfl, rfl, id, List.suffix_rfl, [], by simp⟩

theorem Carried.trans {s t u : State} (h1 : Carried s t) (h2 : Carried t u) : Carried s u := by
  obtain ⟨es, he⟩ := h1.events
  obtain ⟨es', he'⟩ := h2.events
  exact ⟨h2.cfg.trans h1.cfg, h2.inputs.trans h1.inputs, fun h => h2.wf (h1.wf h), h2.replies.trans h1.replies,
    es ++ es', by simp [he', he]⟩

/-- A change of engine or of run-locals carries the surroundings along. -/
theorem Carried.engine {s u : State} (h : Carried s u) (e : Engine) (o : Op) :
    Carried s { u with eng := e, op := o } := ⟨h.cfg, h.inputs, h.wf, h.replies, h.events⟩

theorem Carried.logEvent {s u : State} (h : Carried s u) (e : Event) : Carried s (logEvent e u) :=
  h.trans ⟨rfl, rfl, id, List.suffix_rfl, [e], rfl⟩

theorem carried_afterCall (es : List Event) (s : State) : Carried s (afterCall es s) :=
  ⟨rfl, rfl, memAtCall_wf _ _, List.tail_suffix _, es, rfl⟩

theorem carried_memRead (a : Addr) (n : Nat) (s : State) : Carried s (memRead a n s).2 := by
  obtain ⟨_, _, h⟩ | h := memRead_cases a n s <;> rw [h] <;> exact carried_afterCall _ _

theorem carried_memWrite (a : Addr) (bs : List Byte) (s : State) : Carried s (memWrite a bs s).2 := by
  refine ⟨by simp, by simp, memWrite_wf a bs s, by simpa using List.tail_suffix _, ?_⟩
  obtain h | h | h := memWrite_cases a bs s <;> rw [h] <;> exact ⟨_, rfl⟩

theorem carried_irqEval (s : State) : Carried s (irqEval s) :=
  ⟨by simp, by simp, by simp, by simp, _, irqEval_events s⟩

/-! ## Cursor arithmetic -/

/-- `advance` stays inside the ring (`40_ring_and_descriptor.md` R146). -/
theorem advance_lt (r : Cursor) (i : Half) (eor : Bool) (h : r.cap ≠ 0) :
    (advance r i eor).toNat < r.cap.toNat := by
  have hp : 0 < r.cap.toNat := Nat.pos_of_ne_zero fun h0 => h (BitVec.eq_of_toNat_eq (by simpa using h0))
  unfold advance
  split
  · simpa using hp
  · have h1 := Nat.mod_lt (i.toNat + 1) hp
    have h2 := r.cap.isLt
    rw [BitVec.toNat_ofNat, Nat.mod_eq_of_lt (by omega)]
    exact h1

/-- `advance` without an end-of-ring flag, as a number. -/
theorem advance_toNat (r : Cursor) (i : Half) (h : r.cap ≠ 0) :
    (advance r i false).toNat = (i.toNat + 1) % r.cap.toNat := by
  have hp : 0 < r.cap.toNat := Nat.pos_of_ne_zero fun h0 => h (BitVec.eq_of_toNat_eq (by simpa using h0))
  have h1 := Nat.mod_lt (i.toNat + 1) hp
  have h2 := r.cap.isLt
  simp only [advance, Bool.false_eq_true, if_false]
  rw [BitVec.toNat_ofNat, Nat.mod_eq_of_lt (by omega)]

/-! ## The interrupt controller -/

/-- `IrqEval` as one update. -/
theorem irqEval_eq (s : State) :
    irqEval s = { s with eng := s.eng.withCauses s.eng.icause,
                         events := s.events ++ lineEvents s.eng s.eng.icause } := by
  unfold irqEval lineEvents
  split
  · next h =>
    have h' : ((s.eng.icause &&& s.eng.imask) != 0) = s.eng.irqLine := h
    rw [if_pos h', List.append_nil, Engine.withCauses, h']
  · next h =>
    have h' : ¬((s.eng.icause &&& s.eng.imask) != 0) = s.eng.irqLine := h
    rw [if_neg h']; rfl

/-- `RaiseCause` and then `IrqEval`, as one update. -/
theorem irqEval_raiseCause (b : BitVec 4) (s : State) :
    irqEval (raiseCause b s)
      = { s with eng := s.eng.withCauses (s.eng.icause ||| b),
                 events := s.events ++ lineEvents s.eng (s.eng.icause ||| b) } := by
  rw [irqEval_eq]; rfl

/-- The line after an evaluation has the wanted level (`10_state.md` R27). -/
@[simp] theorem withCauses_lineWanted (e : Engine) (c : BitVec 4) :
    (e.withCauses c).lineWanted = (e.withCauses c).irqLine := rfl

end Sys2Proof.Machine
end

