-- ==== Sys2Proof/Laws/PerInstr.lean ====
section
/-!
SUPPORT. Statements about every instruction, one lemma per constructor. Family `EncodedLength`: an encoding has
the length of its format (`spec/30_encoding.md` R100: all formats have fixed length).
-/

namespace Sys2Proof.Laws

/-- The encoding of `i` has the number of bytes of its format. -/
def EncodedLength.Statement (i : Instr) : Prop := (encode i).length = formatBytes i.format

theorem EncodedLength.txdHost (ipcs l4cs tso : Bool) (d : TxFields) : EncodedLength.Statement (.txdHost ipcs l4cs tso d) := rfl
theorem EncodedLength.txdSend (d : TxFields) : EncodedLength.Statement (.txdSend d) := rfl
theorem EncodedLength.txdIpcs (d : TxFields) : EncodedLength.Statement (.txdIpcs d) := rfl
theorem EncodedLength.txdL4cs (d : TxFields) : EncodedLength.Statement (.txdL4cs d) := rfl
theorem EncodedLength.txdIpl4cs (d : TxFields) : EncodedLength.Statement (.txdIpl4cs d) := rfl
theorem EncodedLength.txdTso (ipcs l4cs : Bool) (d : TxFields) : EncodedLength.Statement (.txdTso ipcs l4cs d) := rfl
theorem EncodedLength.rxdHost (d : RxFields) : EncodedLength.Statement (.rxdHost d) := rfl
theorem EncodedLength.rxdFree (d : RxFields) : EncodedLength.Statement (.rxdFree d) := rfl
theorem EncodedLength.softReset (arg : Byte) : EncodedLength.Statement (.softReset arg) := rfl
theorem EncodedLength.hardReset (arg : Byte) : EncodedLength.Statement (.hardReset arg) := rfl
theorem EncodedLength.loadTxRing (arg : Byte) : EncodedLength.Statement (.loadTxRing arg) := rfl
theorem EncodedLength.loadRxRing (arg : Byte) : EncodedLength.Statement (.loadRxRing arg) := rfl
theorem EncodedLength.cmdReserved (op arg : Byte) : EncodedLength.Statement (.cmdReserved op arg) := rfl
theorem EncodedLength.ctrlW (lane : BitVec 2) (v : Byte) : EncodedLength.Statement (.ctrlW lane v) := rfl
theorem EncodedLength.cmdStore (v : Byte) : EncodedLength.Statement (.cmdStore v) := rfl
theorem EncodedLength.cmdX (v : Byte) : EncodedLength.Statement (.cmdX v) := rfl
theorem EncodedLength.icauseAck (lane : BitVec 2) (v : Byte) : EncodedLength.Statement (.icauseAck lane v) := rfl
theorem EncodedLength.imaskW (lane : BitVec 2) (v : Byte) : EncodedLength.Statement (.imaskW lane v) := rfl
theorem EncodedLength.ringStageTxBase (lane : BitVec 3) (v : Byte) : EncodedLength.Statement (.ringStageTxBase lane v) := rfl
theorem EncodedLength.ringStageTxLen (lane : BitVec 2) (v : Byte) : EncodedLength.Statement (.ringStageTxLen lane v) := rfl
theorem EncodedLength.ringStageRxBase (lane : BitVec 3) (v : Byte) : EncodedLength.Statement (.ringStageRxBase lane v) := rfl
theorem EncodedLength.ringStageRxLen (lane : BitVec 2) (v : Byte) : EncodedLength.Statement (.ringStageRxLen lane v) := rfl
theorem EncodedLength.txDbW (v : Byte) : EncodedLength.Statement (.txDbW v) := rfl
theorem EncodedLength.rxDbW (v : Byte) : EncodedLength.Statement (.rxDbW v) := rfl
theorem EncodedLength.filterWMac (lane : BitVec 3) (v : Byte) : EncodedLength.Statement (.filterWMac lane v) := rfl
theorem EncodedLength.filterWMhash (lane : BitVec 3) (v : Byte) : EncodedLength.Statement (.filterWMhash lane v) := rfl
theorem EncodedLength.filterWRxFilter (lane : BitVec 2) (v : Byte) : EncodedLength.Statement (.filterWRxFilter lane v) := rfl
theorem EncodedLength.regwNone (off : Byte) (v : Byte) : EncodedLength.Statement (.regwNone off v) := rfl
theorem EncodedLength.regR (off : Byte) (n : AccessSize) : EncodedLength.Statement (.regR off n) := rfl

end Sys2Proof.Laws
end

