-- ==== Sys2Proof/Laws/RegWrite.lean ====
section
/-!
SUPPORT. Once for each piece of a register write, everything it can do: the lane that is not the last, and the
trigger the last lane fires.
-/

namespace Sys2Proof.Machine

/-! ## The TX doorbell -/

/-- `41_tx_path.md` R161: with `TX_EN = 0` the doorbell is ignored. -/
theorem txStart_disabled (s : State) (h : s.eng.txEn = false) : txStart s = endOp s := by
  unfold txStart; rw [h]; rfl

/-- `41_tx_path.md` R162: with no ring the path is `Stalled` at once. -/
theorem txStart_noRing (s : State) (h : s.eng.txEn = true) (hc : s.eng.txr.cap = 0) :
    txStart s = { s with eng := { s.eng.withCauses (s.eng.icause ||| causeTxStall) with txState := .stalled }, op := {},
                         events := s.events ++ lineEvents s.eng (s.eng.icause ||| causeTxStall) } := by
  unfold txStart; rw [h, Bool.not_true, if_neg (by simp), if_pos hc, irqEval_raiseCause]; rfl

/-- Else a run starts. -/
theorem txStart_run (s : State) (h : s.eng.txEn = true) (hc : s.eng.txr.cap ≠ 0) :
    txStart s = { s with eng.txState := .draining, op := { phase := .txRun } } := by
  unfold txStart; rw [h, Bool.not_true, if_neg (by simp), if_neg hc]

/-! ## After a lane -/

/-- A lane that is not the last: the write goes on (`44_register_window.md` R293). -/
theorem endLane_more (s : State) (h : s.op.lanes ≠ []) : endLane s = { s with op.phase := .lanes } := if_neg h

/-- The last lane of an access that covered no trigger. -/
theorem endLane_plain (s : State) (h : s.op.lanes = []) (ht : s.op.trig = none) : endLane s = { s with op := {} } := by
  unfold endLane fireTrigger; rw [if_pos h, ht]; rfl

/-- The last lane of an access that covered `CMD.X`: the command is next (`44_register_window.md` R294, R300). -/
theorem endLane_command (s : State) (h : s.op.lanes = []) (ht : s.op.trig = some .command) :
    endLane s = { s with op := { phase := .command } } := by
  unfold endLane fireTrigger; rw [if_pos h, ht]

/-- The last lane of an access that covered the TX doorbell (`44_register_window.md` R294, R304). -/
theorem endLane_txDoorbell (s : State) (h : s.op.lanes = []) (ht : s.op.trig = some .txDoorbell) :
    endLane s = txStart s := by
  unfold endLane fireTrigger; rw [if_pos h, ht]

/-- The last lane of an access that covered the RX doorbell (`44_register_window.md` R294, R305). -/
theorem endLane_rxDoorbell (s : State) (h : s.op.lanes = []) (ht : s.op.trig = some .rxDoorbell) :
    endLane s = { s with eng.rxNores := false, op := {} } := by
  unfold endLane fireTrigger; rw [if_pos h, ht]; rfl

/-- The last lane of an access that covered an `ICAUSE` or `IMASK` lane (`44_register_window.md` R294). -/
theorem endLane_irqEval (s : State) (h : s.op.lanes = []) (ht : s.op.trig = some .irqEval) :
    endLane s = { s with eng := s.eng.withCauses s.eng.icause, op := {},
                         events := s.events ++ lineEvents s.eng s.eng.icause } := by
  unfold endLane fireTrigger; rw [if_pos h, ht]; simp only [irqEval_eq]; rfl

theorem carried_txStart (s : State) : Carried s (txStart s) := by
  unfold txStart
  split
  · exact (Carried.refl s).engine _ _
  · split
    · rw [irqEval_raiseCause]; exact ⟨rfl, rfl, id, List.suffix_rfl, _, rfl⟩
    · exact (Carried.refl s).engine _ _

theorem carried_endLane (s : State) : Carried s (endLane s) := by
  unfold endLane fireTrigger
  split
  · split
    · exact (Carried.refl s).engine _ _
    · exact (Carried.refl s).engine _ _
    · exact carried_txStart s
    · exact (Carried.refl s).engine _ _
    · exact (carried_irqEval s).engine _ _
  · exact (Carried.refl s).engine _ _

end Sys2Proof.Machine
end

