-- ==== Sys2Proof/Laws/Rx.lean ====
section
/-!
SUPPORT. Once for each operation of the RX path, everything it can do. A claim about an RX row or about a
delivery cites these and unfolds nothing below them.
-/

namespace Sys2Proof.Machine

/-! ## Overrun, signal, start -/

/-- The overrun as one update (`43_rx_filter.md` R263). -/
theorem overrun_eq (s : State) :
    overrun s
      = { s with eng := { s.eng.withCauses (s.eng.icause ||| causeRxOvr) with
                            cntRxMissed := s.eng.cntRxMissed + 1, rxNores := true },
                 op := {},
                 events := s.events ++ lineEvents s.eng (s.eng.icause ||| causeRxOvr) } := by
  unfold overrun
  simp only [irqEval_eq]
  rfl

/-- The completion of a delivery as one update (`43_rx_filter.md` R264, R268). -/
theorem rxSignal_eq (s : State) :
    rxSignal s
      = { s with eng := s.eng.withCauses (s.eng.icause ||| causeRxDone), op := {},
                 events := s.events ++ lineEvents s.eng (s.eng.icause ||| causeRxDone) } := by
  unfold rxSignal
  simp only [irqEval_raiseCause]
  rfl

theorem carried_overrun (s : State) : Carried s (overrun s) := by
  rw [overrun_eq]; exact ⟨rfl, rfl, id, List.suffix_rfl, _, rfl⟩

theorem carried_rxSignal (s : State) : Carried s (rxSignal s) := by
  rw [rxSignal_eq]; exact ⟨rfl, rfl, id, List.suffix_rfl, _, rfl⟩

/-- Everything `receive` can do before the first fetch (`43_rx_filter.md` R269). -/
theorem receive_cases (f : List Byte) (s : State) :
    ((s.eng.rxEn = false ∨ classify s.eng f = none) ∧ receive f s = endOp s)
      ∨ (s.eng.rxEn = true ∧ (∃ m, classify s.eng f = some m) ∧ s.eng.rxr.cap = 0 ∧ receive f s = overrun s)
      ∨ (∃ m, s.eng.rxEn = true ∧ classify s.eng f = some m ∧ s.eng.rxr.cap ≠ 0
          ∧ receive f s = { s with op := { phase := .rxScan,
                                           rx := { kind := m, vl := vlanTagged f, data := deliveryBytes s.eng f,
                                                   chain := [], next := s.eng.rxr.idx } } }) := by
  cases h1 : s.eng.rxEn with
  | false => exact .inl ⟨.inl rfl, by simp [receive, h1]⟩
  | true =>
    cases h2 : classify s.eng f with
    | none => exact .inl ⟨.inr rfl, by simp [receive, h1, h2]⟩
    | some m =>
      by_cases h3 : s.eng.rxr.cap = 0
      · exact .inr (.inl ⟨rfl, ⟨m, rfl⟩, h3, by simp [receive, h1, h2, h3]⟩)
      · refine .inr (.inr ⟨m, rfl, rfl, h3, ?_⟩)
        unfold receive
        rw [h1, h2, Bool.not_true, if_neg (by simp)]
        exact if_neg h3

/-- An accepted frame has a destination address (`43_rx_filter.md` R244). -/
theorem classify_length (e : Engine) (f : List Byte) (m : MatchKind) (h : classify e f = some m) : 6 ≤ f.length := by
  by_contra hlt
  unfold classify at h
  rw [if_pos (by omega)] at h
  cases h

theorem deliveryBytes_length (e : Engine) (f : List Byte) : f.length ≤ (deliveryBytes e f).length := by
  unfold deliveryBytes; split <;> simp

/-! ## Writes of a delivery -/

/-- `advance` looks at the capacity of its ring alone. -/
@[simp] theorem advance_idx (r : Cursor) (i j : Half) (eor : Bool) :
    advance { r with idx := i } j eor = advance r j eor := rfl

/-- Everything the oversize drop can do (`43_rx_filter.md` R264). -/
theorem rxOversize_cases (d : RxFields) (s : State) :
    ∃ u, (u = (memWrite (slotAddr s.eng.rxr s.op.rx.next)
                (le32 (rxWritebackWord (rxWord0 true d) (rxOversizeStatus s.op.rx.vl s.op.rx.kind))) s).2
            ∧ u.eng = s.eng ∧ u.op = s.op ∧ Carried s u)
      ∧ (rxOversize d s = endOp u
        ∨ rxOversize d s = rxSignal { u with eng := { s.eng with rxr.idx := advance s.eng.rxr s.op.rx.next d.eor,
                                                                 cntRxErr := s.eng.cntRxErr + 1 } }) := by
  refine ⟨_, ⟨rfl, by simp, by simp, carried_memWrite _ _ _⟩, ?_⟩
  unfold rxOversize writeback
  simp only
  split
  · exact .inr (by simp)
  · exact .inl rfl

/-- The part of a delivery's state that its writes leave alone: all of the engine but the RX index, which stays
in the ring. -/
structure RxWritten (s t : State) : Prop where
  eng : ∃ i, t.eng = { s.eng with rxr.idx := i }
    ∧ (s.eng.rxr.cap ≠ 0 → i = s.eng.rxr.idx ∨ i.toNat < s.eng.rxr.cap.toNat)
  op : t.op = s.op
  carried : Carried s t

theorem RxWritten.refl (s : State) : RxWritten s s := ⟨⟨s.eng.rxr.idx, rfl, fun _ => .inl rfl⟩, rfl, .refl s⟩

theorem RxWritten.trans {s t u : State} (h1 : RxWritten s t) (h2 : RxWritten t u) : RxWritten s u := by
  obtain ⟨i, he, hi⟩ := h1.eng
  obtain ⟨j, he', hj⟩ := h2.eng
  refine ⟨⟨j, by rw [he', he], fun hc => ?_⟩, h2.op.trans h1.op, h1.carried.trans h2.carried⟩
  have hc' : t.eng.rxr.cap ≠ 0 := by rw [he]; exact hc
  have := hj hc'
  rw [he] at this
  obtain h | h := this
  · rw [h]; exact hi hc
  · exact .inr h

theorem rxWritten_memWrite (a : Addr) (bs : List Byte) (s : State) : RxWritten s (memWrite a bs s).2 :=
  ⟨⟨s.eng.rxr.idx, by simp, fun _ => .inl rfl⟩, by simp, carried_memWrite a bs s⟩

theorem rxWritten_rxStore (a : Addr) (bs : List Byte) (s : State) : RxWritten s (rxStore a bs s).2 := by
  unfold rxStore
  split
  · exact .refl s
  · exact rxWritten_memWrite a bs s

/-- What one element of the write phase can do (`43_rx_filter.md` R267). -/
theorem rxWritten_rxWriteSlot (sl : RxSlot) (first last : Bool) (rest : List Byte) (s : State) :
    RxWritten s (rxWriteSlot sl first last rest s).2 := by
  unfold rxWriteSlot writeback
  simp only
  have h1 := rxWritten_rxStore sl.d.buf (rest.take sl.d.len.toNat) s
  split
  · split
    · refine (h1.trans (rxWritten_memWrite _ _ _)).trans ⟨⟨_, rfl, fun hc => .inr (advance_lt _ _ _ hc)⟩, rfl, ?_⟩
      exact (Carried.refl _).engine _ _
    · exact h1.trans (rxWritten_memWrite _ _ _)
  · exact h1

/-- What the write phase can do (`43_rx_filter.md` R267). -/
theorem rxWritten_rxWriteChain (chain : List RxSlot) (first : Bool) (rest : List Byte) (s : State) :
    RxWritten s (rxWriteChain chain first rest s).2 := by
  induction chain generalizing first rest s with
  | nil => exact .refl s
  | cons sl more ih =>
    unfold rxWriteChain
    simp only
    split
    · exact (rxWritten_rxWriteSlot _ _ _ _ _).trans (ih _ _ _)
    · exact rxWritten_rxWriteSlot _ _ _ _ _

/-- Everything the write phase and the completion can do (`43_rx_filter.md` R267, R268). -/
theorem rxDeliver_cases (chain : List RxSlot) (s : State) :
    ∃ u, RxWritten s u
      ∧ (rxDeliver chain s = endOp u
        ∨ rxDeliver chain s = rxSignal { u with eng.cntRxFrames := u.eng.cntRxFrames + 1 }) := by
  refine ⟨_, rxWritten_rxWriteChain chain true s.op.rx.data s, ?_⟩
  unfold rxDeliver
  simp only
  split
  · exact .inr rfl
  · exact .inl rfl

/-- Everything the pre-scan can do with one more device-owned descriptor (`43_rx_filter.md` R266). -/
theorem rxExtend_cases (d : RxFields) (s : State) :
    let chain := s.op.rx.chain ++ [{ idx := s.op.rx.next, addr := slotAddr s.eng.rxr s.op.rx.next, d := d }]
    let next := advance s.eng.rxr s.op.rx.next d.eor
    (s.op.rx.data.length ≤ chainCap chain ∧ rxExtend d s = rxDeliver chain s)
      ∨ (chainCap chain < s.op.rx.data.length ∧ next ∈ chain.map RxSlot.idx ∧ rxExtend d s = overrun s)
      ∨ (chainCap chain < s.op.rx.data.length ∧ next ∉ chain.map RxSlot.idx
          ∧ rxExtend d s = { s with op.phase := .rxScan, op.rx.chain := chain, op.rx.next := next }) := by
  intro chain next
  by_cases h1 : s.op.rx.data.length ≤ chainCap chain
  · exact .inl ⟨h1, by unfold rxExtend; exact if_pos h1⟩
  · have hany : (chain.any fun sl => sl.idx == next) = true ↔ next ∈ chain.map RxSlot.idx := by
      simp [List.any_eq_true]
    by_cases h2 : next ∈ chain.map RxSlot.idx
    · exact .inr (.inl ⟨by omega, h2, by
        unfold rxExtend; exact (if_neg h1).trans (if_pos (hany.mpr h2))⟩)
    · exact .inr (.inr ⟨by omega, h2, by
        unfold rxExtend; exact (if_neg h1).trans (if_neg (fun h => h2 (hany.mp h)))⟩)

end Sys2Proof.Machine
end

