-- ==== Sys2Proof/Laws/Safety.lean ====
section
/-!
SUPPORT. The small lemmas of the vocabulary of `Safety.lean`: driver stores and answered writes, one answer at a
time and in two parts, and the RX index along a chain.
-/

namespace Sys2Proof.Machine

@[simp] theorem driverStores_nil (m : Memory) : driverStores [] m = m := rfl
@[simp] theorem driverStores_cons (r : Reply) (rs : List Reply) (m : Memory) :
    driverStores (r :: rs) m = driverStores rs (applyStores r.stores m) := rfl

@[simp] theorem answeredWrites_nil (ws : List (Addr × List Byte)) (m : Memory) : answeredWrites [] ws m = m := rfl
@[simp] theorem answeredWrites_cons (r : Reply) (rs : List Reply) (w : Addr × List Byte)
    (ws : List (Addr × List Byte)) (m : Memory) :
    answeredWrites (r :: rs) (w :: ws) m
      = answeredWrites rs ws ((applyStores r.stores m).writeBytes w.1.toNat w.2) := rfl

/-- Writes answered in two parts, the first part by as many answers as it has writes. -/
theorem answeredWrites_append (rs rs' : List Reply) (ws ws' : List (Addr × List Byte)) (m : Memory)
    (h : rs.length = ws.length) :
    answeredWrites (rs ++ rs') (ws ++ ws') m = answeredWrites rs' ws' (answeredWrites rs ws m) := by
  simp [answeredWrites, List.zip_append h]

@[simp] theorem rxIdxBefore_zero (r : Cursor) (chain : List RxSlot) : rxIdxBefore r chain 0 = r.idx := rfl

/-- Behind the first element of a chain the rest of the chain decides, from the cursor the first one leaves. -/
theorem rxIdxBefore_succ (r : Cursor) (sl : RxSlot) (more : List RxSlot) (k : Nat) :
    rxIdxBefore r (sl :: more) (k + 1) = rxIdxBefore { r with idx := advance r sl.idx sl.d.eor } more k := by
  unfold rxIdxBefore
  rw [List.take_succ_cons, List.getLast?_cons]
  cases (more.take k).getLast? <;> rfl

end Sys2Proof.Machine
end

