-- ==== Sys2Proof/Laws/Tx.lean ====
section
/-!
SUPPORT. Once for each operation of the TX path, everything it can do. A claim about a TX row cites these and
unfolds nothing below them.
-/

namespace Sys2Proof.Machine

/-! ## Start and end of a run -/

/-- The end of a run as one update: the causes it raises, then the line. -/
theorem endRun_eq (st : TxState) (s : State) :
    let c := (s.eng.icause ||| if st = .stalled then causeTxStall else 0)
      ||| if s.op.unsignalled then causeTxDone else 0
    endRun st s
      = { s with eng := { s.eng.withCauses c with txState := st }, op := {},
                 events := s.events ++ lineEvents s.eng c } := by
  unfold endRun
  by_cases h1 : st = .stalled <;> by_cases h2 : s.op.unsignalled = true <;>
    simp only [h1, h2, if_true, if_false, irqEval_eq, reduceCtorEq, BitVec.ofNat_eq_ofNat, BitVec.or_zero] <;> rfl

theorem carried_endRun (st : TxState) (s : State) : Carried s (endRun st s) := by
  rw [endRun_eq]
  exact ⟨rfl, rfl, id, List.suffix_rfl, _, rfl⟩

/-! ## One descriptor -/

/-- The framing step as one update (`41_tx_path.md` R166, R167). -/
theorem txOpen_eq (fs : Bool) (s : State) :
    txOpen fs s = { s with eng.pf := openFrame fs s.eng.pf,
                           eng.cntTxRej := if seqFlag fs s.eng.pf then s.eng.cntTxRej + 1 else s.eng.cntTxRej } := by
  unfold txOpen
  split <;> rfl

/-- Everything the length check and the copy can do (`41_tx_path.md` R168 to R170). -/
theorem txCopy_cases (d : TxFields) (s : State) :
    (s.eng.pf.err ≠ none ∧ txCopy d s = (true, s))
      ∨ (s.eng.pf.err = none ∧ s.cfg.maxFrame - s.eng.pf.buf.length < d.len.toNat
          ∧ txCopy d s = (true, { s with eng.pf.err := some .oversize }))
      ∨ (s.eng.pf.err = none ∧ d.len = 0 ∧ txCopy d s = (true, s))
      ∨ (s.eng.pf.err = none ∧ d.len.toNat ≤ s.cfg.maxFrame - s.eng.pf.buf.length ∧ d.len ≠ 0
          ∧ ((∃ bs, bs.length = d.len.toNat
                ∧ memRead d.buf d.len.toNat s = (some bs, afterCall [.memRead d.buf d.len.toNat true] s)
                ∧ txCopy d s = (true, { afterCall [.memRead d.buf d.len.toNat true] s with
                                          eng.pf.buf := s.eng.pf.buf ++ bs }))
            ∨ (memRead d.buf d.len.toNat s
                  = (none, afterCall [.memRead d.buf d.len.toNat false, .platformFault d.buf d.len.toNat .read] s)
                ∧ txCopy d s
                  = (false, afterCall [.memRead d.buf d.len.toNat false,
                                       .platformFault d.buf d.len.toNat .read] s)))) := by
  by_cases h1 : s.eng.pf.err = none
  · by_cases h2 : s.cfg.maxFrame - s.eng.pf.buf.length < d.len.toNat
    · exact .inr (.inl ⟨h1, h2, by simp [txCopy, h1, h2]⟩)
    · by_cases h3 : d.len = 0
      · exact .inr (.inr (.inl ⟨h1, h3, by simp [txCopy, h1, h3]⟩))
      · refine .inr (.inr (.inr ⟨h1, by omega, h3, ?_⟩))
        obtain ⟨bs, hl, h⟩ | h := memRead_cases d.buf d.len.toNat s
        · exact .inl ⟨bs, hl, h, by
            unfold txCopy; rw [if_neg (by simp [h1]), if_neg h2, if_neg h3, h]; rfl⟩
        · exact .inr ⟨h, by
            unfold txCopy; rw [if_neg (by simp [h1]), if_neg h2, if_neg h3, h]⟩
  · exact .inl ⟨h1, by simp [txCopy, h1]⟩

/-- Everything the closing of a frame can do (`41_tx_path.md` R171). -/
theorem txClose_cases (oc : OffloadCtx) (s : State) :
    (s.eng.pf.err ≠ none ∧ txClose oc s = countTxRej s)
      ∨ (∃ frames, s.eng.pf.err = none ∧ emit oc s.eng.pf.buf = some frames ∧ txClose oc s = sendAll frames s)
      ∨ (s.eng.pf.err = none ∧ emit oc s.eng.pf.buf = none
          ∧ txClose oc s = { s with eng.pf.err := some .badOfl, eng.cntTxRej := s.eng.cntTxRej + 1 }) := by
  by_cases h1 : s.eng.pf.err = none
  · cases h2 : emit oc s.eng.pf.buf with
    | none => exact .inr (.inr ⟨h1, rfl, by simp [txClose, h1, h2, countTxRej]⟩)
    | some frames => exact .inr (.inl ⟨frames, h1, rfl, by simp [txClose, h1, h2, sendAll_eq]⟩)
  · exact .inl ⟨h1, by simp [txClose, h1]⟩

/-- Everything the closing step of a descriptor can do (`41_tx_path.md` R171, R172): the status, and the state. -/
theorem txFinish_cases (ls flag : Bool) (oc : OffloadCtx) (s : State) :
    (ls = false ∧ txFinish ls flag oc s = (txStatus flag s.eng.pf.err, s))
      ∨ (ls = true ∧ s.eng.pf.err ≠ none
          ∧ txFinish ls flag oc s
            = (txStatus flag s.eng.pf.err, { s with eng.pf := {}, eng.cntTxRej := s.eng.cntTxRej + 1 }))
      ∨ (∃ frames, ls = true ∧ s.eng.pf.err = none ∧ emit oc s.eng.pf.buf = some frames
          ∧ txFinish ls flag oc s
            = (txStatus flag none, { s with eng.pf := {},
                                            eng.cntTxFrames := s.eng.cntTxFrames + BitVec.ofNat 32 frames.length,
                                            events := s.events ++ frames.map Event.send }))
      ∨ (ls = true ∧ s.eng.pf.err = none ∧ emit oc s.eng.pf.buf = none
          ∧ txFinish ls flag oc s
            = (txStatus flag (some .badOfl), { s with eng.pf := {}, eng.cntTxRej := s.eng.cntTxRej + 1 })) := by
  cases ls with
  | false => exact .inl ⟨rfl, rfl⟩
  | true =>
    obtain ⟨h1, h⟩ | ⟨frames, h1, h2, h⟩ | ⟨h1, h2, h⟩ := txClose_cases oc s
    · exact .inr (.inl ⟨rfl, h1, by simp [txFinish, h, resetPf, countTxRej]⟩)
    · exact .inr (.inr (.inl ⟨frames, rfl, h1, h2, by simp [txFinish, h, resetPf, sendAll_eq, h1]⟩))
    · exact .inr (.inr (.inr ⟨rfl, h1, h2, by simp [txFinish, h, resetPf]⟩))

/-- `41_tx_path.md` R172, R173 after a successful writeback, as one update. -/
theorem txAdvance_eq (d : TxFields) (s : State) :
    txAdvance d s
      = if d.irq then
          { s with eng := { s.eng.withCauses (s.eng.icause ||| causeTxDone) with
                              txr := { s.eng.txr with idx := advance s.eng.txr s.eng.txr.idx d.eor } },
                   op := { s.op with consumed := s.op.consumed + 1, unsignalled := false, phase := .txRun },
                   events := s.events ++ lineEvents s.eng (s.eng.icause ||| causeTxDone) }
        else
          { s with eng.txr.idx := advance s.eng.txr s.eng.txr.idx d.eor,
                   op := { s.op with consumed := s.op.consumed + 1, unsignalled := true, phase := .txRun } } := by
  unfold txAdvance
  split
  · simp only [irqEval_raiseCause]; rfl
  · rfl

theorem carried_txAdvance (d : TxFields) (s : State) : Carried s (txAdvance d s) := by
  rw [txAdvance_eq]
  split
  · exact ⟨rfl, rfl, id, List.suffix_rfl, _, rfl⟩
  · exact ⟨rfl, rfl, id, List.suffix_rfl, [], by simp⟩

/-- Everything the writeback and what follows it can do (`41_tx_path.md` R172): `u` is the state right after the
collaborator's answer. -/
theorem txComplete_cases (a : Addr) (w0 st : Word) (d : TxFields) (s : State) :
    ∃ u, (u = (memWrite a (le32 (txWritebackWord w0 st)) s).2 ∧ u.eng = s.eng ∧ u.op = s.op ∧ Carried s u)
      ∧ (((memWrite a (le32 (txWritebackWord w0 st)) s).1 = true ∧ txComplete a w0 st d s = txAdvance d u)
        ∨ ((memWrite a (le32 (txWritebackWord w0 st)) s).1 = false ∧ txComplete a w0 st d s = endRun .idle u)) := by
  refine ⟨_, ⟨rfl, by simp, by simp, carried_memWrite _ _ _⟩, ?_⟩
  unfold txComplete writeback
  cases h : (memWrite a (le32 (txWritebackWord w0 st)) s).1 with
  | true => exact .inl ⟨rfl, by rw [← Prod.mk.eta (p := memWrite _ _ _), h]; rfl⟩
  | false => exact .inr ⟨rfl, by rw [← Prod.mk.eta (p := memWrite _ _ _), h]; rfl⟩

/-- Everything one turn of the loop can do for a device-owned descriptor (`41_tx_path.md` R163, R170, R172): the
run bound stops it; the buffer read faults, and nothing but the report is left of the turn; or the descriptor is
finished and written back. -/
theorem txDescriptor_cases (ipcs l4cs tso : Bool) (d : TxFields) (s : State) :
    let fs := (framing s.eng d).1
    let opened := txOpen fs s
    let copied := (txCopy d opened).2
    let finished := txFinish (framing s.eng d).2 (seqFlag fs s.eng.pf) (offloadCtx ipcs l4cs tso d) copied
    (s.op.consumed = s.eng.txr.cap.toNat ∧ txDescriptor ipcs l4cs tso d s = endRun .stalled s)
      ∨ (s.op.consumed ≠ s.eng.txr.cap.toNat ∧ (txCopy d opened).1 = false
          ∧ txDescriptor ipcs l4cs tso d s
            = endRun .idle (afterCall [.memRead d.buf d.len.toNat false, .platformFault d.buf d.len.toNat .read] s))
      ∨ (s.op.consumed ≠ s.eng.txr.cap.toNat ∧ (txCopy d opened).1 = true
          ∧ txDescriptor ipcs l4cs tso d s
            = txComplete (txSlot s) (txWord0 true ipcs l4cs tso d) finished.1 d finished.2) := by
  intro fs opened copied finished
  by_cases h : s.op.consumed = s.eng.txr.cap.toNat
  · exact .inl ⟨h, by unfold txDescriptor; exact if_pos h⟩
  · cases hc : (txCopy d opened).1 with
    | true => exact .inr (.inr ⟨h, rfl, by unfold txDescriptor; exact (if_neg h).trans (if_pos hc)⟩)
    | false =>
      refine .inr (.inl ⟨h, rfl, ?_⟩)
      have hrun : txDescriptor ipcs l4cs tso d s
          = endRun .idle { copied with eng.pf := s.eng.pf, eng.cntTxRej := s.eng.cntTxRej } := by
        have hc' : ¬(txCopy d opened).1 = true := by rw [hc]; simp
        unfold txDescriptor; exact (if_neg h).trans (if_neg hc')
      rw [hrun]
      obtain ⟨_, e⟩ | ⟨_, _, e⟩ | ⟨_, _, e⟩ | ⟨_, _, _, ⟨bs, _, _, e⟩ | ⟨_, e⟩⟩ := txCopy_cases d opened
      all_goals first | (rw [e] at hc; cases hc; done) | skip
      have : copied = _ := congrArg Prod.snd e
      rw [this]
      simp only [opened, txOpen_eq]
      congr 1

end Sys2Proof.Machine
end

