-- ==== Sys2Proof/Laws/Step.lean ====
section
/-!
SUPPORT. Once for each phase, everything a step can do in it, and how `settle` goes on. A claim about `step` cites
these and unfolds neither the fetch nor the decoder.
-/

namespace Sys2Proof.Machine

/-- The TX decoder answers rows of its own format. -/
theorem decodeTx_format (bs : List Byte) : (decodeTx bs).format = .txd := by
  unfold decodeTx
  simp only
  split
  · split
    · rfl
    · split <;> rfl
  · rfl

/-- The six `TXD` rows end the run or take one turn of its loop (`41_tx_path.md` R176). -/
theorem exec_txd_cases (i : Instr) (hi : i.format = .txd) (s : State) :
    (∃ ipcs l4cs tso d, i = .txdHost ipcs l4cs tso d ∧ exec i s = .next (endRun .idle s))
      ∨ ∃ ipcs l4cs tso d, exec i s = .next (txDescriptor ipcs l4cs tso d s) := by
  cases i <;> simp [Instr.format] at hi
  · exact .inl ⟨_, _, _, _, rfl, rfl⟩
  all_goals exact .inr ⟨_, _, _, _, rfl⟩

/-- A step of a register write stores the next lane. -/
theorem step_lane (s : State) (o b : Byte) (rest : List (Byte × Byte)) (hp : s.op.phase = .lanes)
    (hl : s.op.lanes = (o, b) :: rest) : step s = exec (decodeLane o b) { s with op.lanes := rest } := by
  unfold step fetchNext
  rw [hp]
  simp only [fetchLane, hl]
  rfl

/-- A step in phase `command` executes the command in `CMD`. -/
theorem step_command (s : State) (hp : s.op.phase = .command) :
    step s = exec (decodeCmd (s.eng.cmd.extractLsb' 8 8) (s.eng.cmd.extractLsb' 0 8)) s := by
  have h : decode .cmd16 (le16 s.eng.cmd)
      = .ok (decodeCmd (s.eng.cmd.extractLsb' 8 8) (s.eng.cmd.extractLsb' 0 8)) := rfl
  unfold step fetchNext
  rw [hp]
  simp only [h]

/-- Everything a step of a TX run can do: the fetch faults, or the fetched descriptor is executed. -/
theorem step_txRun_cases (s : State) (hp : s.op.phase = .txRun) :
    step s = .next (endRun .idle
        (afterCall [.memRead (txSlot s) 32 false, .platformFault (txSlot s) 32 .read] s))
      ∨ ∃ bs, memRead (txSlot s) 32 s = (some bs, afterCall [.memRead (txSlot s) 32 true] s)
          ∧ decode .txd bs = .ok (decodeTx bs)
          ∧ step s = exec (decodeTx bs) (afterCall [.memRead (txSlot s) 32 true] s) := by
  unfold step fetchNext
  rw [hp]
  simp only [fetchTx, fetchSlot]
  obtain ⟨bs, hl, e⟩ | e := memRead_cases (slotAddr s.eng.txr s.eng.txr.idx) descStride s <;> rw [e]
  · have hd : decode .txd bs = .ok (decodeTx bs) := by simp [decode, hl, formatBytes, descStride]
    exact .inr ⟨bs, e, hd, by simp only [hd]; rfl⟩
  · exact .inl rfl

/-- Everything a step of a delivery's pre-scan can do: the fetch faults, the descriptor is host-owned, or it is
executed. -/
theorem step_rxScan_cases (s : State) (hp : s.op.phase = .rxScan) :
    let a := slotAddr s.eng.rxr s.op.rx.next
    step s = .next (overrun (afterCall [.memRead a 32 false, .platformFault a 32 .read] s))
      ∨ step s = .next (overrun (afterCall [.memRead a 32 true] s))
      ∨ ∃ d, step s = .next (rxDescriptor d (afterCall [.memRead a 32 true] s)) := by
  unfold step fetchNext
  rw [hp]
  simp only [fetchRx, fetchSlot]
  obtain ⟨bs, hl, e⟩ | e := memRead_cases (slotAddr s.eng.rxr s.op.rx.next) descStride s <;> rw [e]
  · have hd : decode .rxd bs = .ok (decodeRx bs) := by simp [decode, hl, formatBytes, descStride]
    simp only [hd, decodeRx]
    split
    · exact .inr (.inr ⟨decodeRxFields bs, rfl⟩)
    · exact .inr (.inl rfl)
  · exact .inl rfl

/-! ## Whole operations -/

/-- An operation that is over stays over. -/
theorem settle_rest (n : Nat) (s : State) (h : s.op.phase = .idle) : settle n s = .next s := by
  cases n with
  | zero => rfl
  | succ n => unfold settle; rw [if_pos h]

/-- An operation in progress takes one step. -/
theorem settle_step (n : Nat) (s t : State) (h : s.op.phase ≠ .idle) (ht : step s = .next t) :
    settle (n + 1) s = settle n t := by
  conv_lhs => unfold settle
  rw [if_neg h, ht]

end Sys2Proof.Machine
end

