-- ==== Sys2Proof/Tests/Slice0.lean ====
section
/-!
SUPPORT. Tests of the model's own: the checks of `WellFormed`, hand-written words and what they decode to, one
or two single steps per instruction, and witnesses that the statements' hypotheses can be met. Expected values
are those of `spec/95_test_vectors.md` (each test names its vector) or hand calculation from the rule named.
-/

namespace Sys2Proof.Tests

open Sys2Proof Sys2Proof.Machine

-- One theorem at a time: the kernel evaluations below would else queue up, each with a thread of its own.
set_option Elab.async false

/-! ## Helpers -/

/-- The next state of an outcome. -/
def out (o : Host.Outcome State Fault Refusal) : State :=
  match o with
  | .next t => t
  | .fault _ => State.reset
  | .refused _ => State.reset

/-- The events of an outcome. -/
def log (o : Host.Outcome State Fault Refusal) : List Event := (out o).events

/-- Word 0 stored at a guest address. -/
def w0At (s : State) (a : Nat) : Word := le32At (s.mem.readBytes a 4) 0

/-- Guest memory with these blocks stored. -/
def memOf (blocks : List (Nat × List Byte)) : Memory := blocks.foldl (fun m b => m.writeBytes b.1 b.2) []

/-- The engine after `T-setup(ctrl, cap)`. -/
def txEng (ctrl : BitVec 5) (cap : Half) : Engine := { ctrl := ctrl, imask := 0xF, txr := { base := 0x1000, cap := cap } }

/-- A TX run at its loop head, cursor at 0x1000, over these blocks of memory. -/
def txAt (ctrl : BitVec 5) (cap : Half) (blocks : List (Nat × List Byte)) : State :=
  { State.reset with eng := { txEng ctrl cap with txState := .draining }, op := { phase := .txRun }, mem := memOf blocks }

/-- The engine after `R-setup(ctrl, cap, filt)`. -/
def rxEng (ctrl : BitVec 5) (cap : Half) (filt : BitVec 4) : Engine :=
  { ctrl := ctrl, imask := 0xF, rxr := { base := 0x4000, cap := cap }, macLo := 0x12005452, macHi := 0x5634, rxFilter := filt }

/-- A unicast delivery of `data` before its fetch of slot `next`, over these blocks of memory. -/
def rxAt (ctrl : BitVec 5) (cap : Half) (chain : List RxSlot) (next : Half) (data : List Byte)
    (blocks : List (Nat × List Byte)) : State :=
  { State.reset with eng := rxEng ctrl cap 1, mem := memOf blocks,
                     op := { phase := .rxScan, rx := { data := data, chain := chain, next := next } } }

/-- An engine at rest with this input waiting. -/
def presented (e : Engine) (i : Input) : State := { State.reset with eng := e, inputs := [i] }

/-- A register write with one lane in hand and these lanes left. -/
def laneAt (e : Engine) (lanes : List (Byte × Byte)) (trig : Option Trigger) : State :=
  { State.reset with eng := e, op := { phase := .lanes, lanes := lanes, trig := trig } }

/-- `ABCD` of the vectors. -/
def abcd : List Byte := [0x61, 0x62, 0x63, 0x64]

/-- `H54` of the vectors. -/
def h54 : List Byte :=
  [0x02, 0x00, 0x00, 0x00, 0x00, 0x02, 0x02, 0x00, 0x00, 0x00, 0x00, 0x01, 0x08, 0x00]
  ++ [0x45, 0x00, 0x00, 0x00, 0x12, 0x34, 0x40, 0x00, 0x40, 0x06, 0x00, 0x00, 0xc0, 0xa8, 0x00, 0x01, 0xc0, 0xa8, 0x00, 0x02]
  ++ [0x04, 0xd2, 0x00, 0x50, 0xff, 0xff, 0xff, 0xfc, 0x00, 0x00, 0x00, 0x00, 0x50, 0x19, 0x20, 0x00, 0x00, 0x00, 0x00, 0x00]

/-- `PAY` of the vectors. -/
def pay : List Byte := [0x30, 0x31, 0x32, 0x33, 0x34, 0x35, 0x36, 0x37, 0x38, 0x39]

/-- `F64` of the vectors. -/
def f64 : List Byte := h54 ++ pay

/-- `F60` of the vectors. -/
def f60 : List Byte :=
  [0x52, 0x54, 0x00, 0x12, 0x34, 0x56, 0x02, 0x00, 0x00, 0x00, 0x00, 0x01, 0x08, 0x00]
  ++ (List.range 46).map fun i => BitVec.ofNat 8 (0x10 + i)

/-- A descriptor's bytes: the ones given, then zeros up to 32. -/
def pad32 (bs : List Byte) : List Byte := bs ++ List.replicate (32 - bs.length) 0

/-! ## `WellFormed` refuses what no encoding decodes to -/

/-- `30_encoding.md` R111: the four opcodes are no reserved ones. -/
theorem test_wf_refuses_defined_opcodes :
    ([0x01, 0x02, 0x10, 0x11] : List Byte).all (fun op => !(Instr.cmdReserved op 0x55).WellFormed) = true := by decide

/-- R112, R119: the first and the last lane of every claimed range is no `REGW.NONE`. -/
theorem test_wf_refuses_claimed_lanes :
    ([0x04, 0x07, 0x08, 0x09, 0x10, 0x13, 0x14, 0x17, 0x20, 0x27, 0x28, 0x2B, 0x30, 0x37, 0x38, 0x3B, 0x40, 0x44,
      0x48, 0x4F, 0x50, 0x57, 0x58, 0x5B] : List Byte).all (fun o => !(Instr.regwNone o 0).WellFormed) = true := by decide

/-- The neighbours of those ranges and of the opcodes are accepted. -/
theorem test_wf_accepts_default_rows :
    ([0x00, 0x03, 0x0A, 0x0F, 0x18, 0x1F, 0x2C, 0x2F, 0x3C, 0x3F, 0x41, 0x43, 0x45, 0x47, 0x5C, 0xFF] : List Byte).all
        (fun o => (Instr.regwNone o 0).WellFormed) = true
    ∧ ([0x00, 0x03, 0x0F, 0x12, 0x77, 0xFF] : List Byte).all (fun op => (Instr.cmdReserved op 0).WellFormed) = true := by
  decide

/-! ## Words written out from the encoding tables -/

/-- P1's descriptor: `OWN`, `LEN` 46, `BUF` 0x2000. -/
def wordSend : List Byte := pad32 [0x2e, 0, 0, 0x80, 0, 0, 0, 0, 0, 0x20, 0, 0]
/-- B3.2's descriptor. -/
def wordIpl4cs : List Byte :=
  pad32 [0x40, 0x00, 0x80, 0x8e, 0x64, 0x20, 0, 0, 0, 0x30, 0, 0, 0, 0, 0, 0, 0x0e, 0x18, 0x22, 0x32]
/-- B3.3 row 1's descriptor: `OWN|IPCS`. -/
def wordIpcs : List Byte :=
  pad32 [0x40, 0x00, 0x00, 0x84, 0, 0, 0, 0, 0, 0x30, 0, 0, 0, 0, 0, 0, 0x0e, 0x18, 0x22, 0x32]
/-- B3.3 row 2's descriptor: `OWN|L4CS`, `L4START` 64. -/
def wordL4cs : List Byte :=
  pad32 [0x40, 0x00, 0x00, 0x82, 0, 0, 0, 0, 0, 0x30, 0, 0, 0, 0, 0, 0, 0x0e, 0x18, 0x40, 0x32]
/-- P2's second descriptor. -/
def wordTso : List Byte :=
  pad32 [0x0a, 0, 0, 0xd1, 0, 0, 0x04, 0, 0, 0x31, 0, 0, 0, 0, 0, 0, 0x0e, 0x18, 0x22, 0x32, 0x36]
/-- P3's first descriptor. -/
def wordFree : List Byte := pad32 [0x00, 0x08, 0x00, 0x80, 0, 0, 0, 0, 0, 0x50]
/-- P3's second descriptor. -/
def wordRxHost : List Byte := pad32 [0x00, 0x00, 0x00, 0x40, 0, 0, 0, 0, 0, 0x58]

/-- The operands of the frame `F64`'s descriptors. -/
def f64Fields : TxFields := { len := 64, buf := 0x3000, ipStart := 14, ipCso := 24, l4Start := 34, l4Cso := 50 }

theorem test_decode_txdHost :
    decode .txd (pad32 [0x34, 0x12, 0x40, 0x20]) = .ok (.txdHost false false false { fs := true, done := true, len := 0x1234 }) := by
  decide +kernel
theorem test_decode_txdSend : decode .txd wordSend = .ok (.txdSend { len := 46, buf := 0x2000 }) := by decide +kernel
theorem test_decode_txdIpcs : decode .txd wordIpcs = .ok (.txdIpcs f64Fields) := by decide +kernel
theorem test_decode_txdL4cs : decode .txd wordL4cs = .ok (.txdL4cs { f64Fields with l4Start := 64 }) := by decide +kernel
theorem test_decode_txdIpl4cs :
    decode .txd wordIpl4cs = .ok (.txdIpl4cs { f64Fields with irq := true, vlan := true, tci := 0x2064 }) := by
  decide +kernel
theorem test_decode_txdTso :
    decode .txd wordTso = .ok (.txdTso false false
      { f64Fields with eor := true, ls := true, len := 10, buf := 0x3100, mss := 4, hdrLen := 54 }) := by decide +kernel
theorem test_decode_rxdHost : decode .rxd wordRxHost = .ok (.rxdHost { eor := true, buf := 0x5800 }) := by decide +kernel
theorem test_decode_rxdFree : decode .rxd wordFree = .ok (.rxdFree { len := 2048, buf := 0x5000 }) := by decide +kernel
theorem test_decode_softReset : decode .cmd16 [0x00, 0x01] = .ok (.softReset 0) := by decide
theorem test_decode_hardReset : decode .cmd16 [0x00, 0x02] = .ok (.hardReset 0) := by decide
theorem test_decode_loadTxRing : decode .cmd16 [0xAB, 0x10] = .ok (.loadTxRing 0xAB) := by decide
theorem test_decode_loadRxRing : decode .cmd16 [0x00, 0x11] = .ok (.loadRxRing 0) := by decide
theorem test_decode_cmdReserved : decode .cmd16 [0x10, 0x77] = .ok (.cmdReserved 0x77 0x10) := by decide
theorem test_decode_ctrlW : decode .regw [0x07, 0x1F] = .ok (.ctrlW 3 0x1F) := by decide
theorem test_decode_cmdStore : decode .regw [0x08, 0x10] = .ok (.cmdStore 0x10) := by decide
theorem test_decode_cmdX : decode .regw [0x09, 0x10] = .ok (.cmdX 0x10) := by decide
theorem test_decode_icauseAck : decode .regw [0x10, 0x06] = .ok (.icauseAck 0 0x06) := by decide
theorem test_decode_imaskW : decode .regw [0x14, 0x0F] = .ok (.imaskW 0 0x0F) := by decide
theorem test_decode_ringStageTxBase : decode .regw [0x25, 0x11] = .ok (.ringStageTxBase 5 0x11) := by decide
theorem test_decode_ringStageTxLen : decode .regw [0x29, 0x56] = .ok (.ringStageTxLen 1 0x56) := by decide
theorem test_decode_ringStageRxBase : decode .regw [0x31, 0x40] = .ok (.ringStageRxBase 1 0x40) := by decide
theorem test_decode_ringStageRxLen : decode .regw [0x38, 0x02] = .ok (.ringStageRxLen 0 0x02) := by decide
theorem test_decode_txDbW : decode .regw [0x40, 0x00] = .ok (.txDbW 0) := by decide
theorem test_decode_rxDbW : decode .regw [0x44, 0x00] = .ok (.rxDbW 0) := by decide
theorem test_decode_filterWMac : decode .regw [0x4C, 0x34] = .ok (.filterWMac 4 0x34) := by decide
theorem test_decode_filterWMhash : decode .regw [0x53, 0x80] = .ok (.filterWMhash 3 0x80) := by decide
theorem test_decode_filterWRxFilter : decode .regw [0x58, 0x01] = .ok (.filterWRxFilter 0 0x01) := by decide
theorem test_decode_regwNone : decode .regw [0x2C, 0x05] = .ok (.regwNone 0x2C 0x05) := by decide
/-- The size code is the model's own (assumption log 6). -/
theorem test_decode_regR : decode .regr [0xFE, 0x02] = .ok (.regR 0xFE .four) := by decide

/-- The encoder writes the same words. -/
theorem test_encode_descriptors :
    encode (.txdIpl4cs { f64Fields with irq := true, vlan := true, tci := 0x2064 }) = wordIpl4cs
    ∧ encode (.rxdFree { len := 2048, buf := 0x5000 }) = wordFree := by decide +kernel

/-- Byte strings of no format's length, and a size code that names no size, are rejected by name. -/
theorem test_decode_rejects_by_name :
    decode .txd [0x80] = .error (.badLength .txd 1) ∧ decode .regr [0, 3] = .error (.badAccessSize 3) := by decide

/-! ## Operations -/

/-- B1.1. -/
theorem test_slotAddr :
    slotAddr { base := 0x1000, cap := 4 } 3 = 0x1060 ∧ slotAddr { base := 0x1000, cap := 65535 } 65534 = 0x200FC0
    ∧ slotAddr { base := 0xFFFFFFFFFFFFFFF0, cap := 2 } 1 = 0x10 := by decide

/-- B1.2. -/
theorem test_advance :
    advance { cap := 4 } 2 false = 3 ∧ advance { cap := 4 } 3 false = 0 ∧ advance { cap := 4 } 1 true = 0
    ∧ advance { cap := 1 } 0 false = 0 ∧ advance { cap := 65535 } 65534 false = 0 := by decide

/-- B3.1. -/
theorem test_csum :
    csum [] = 0xFFFF ∧ csum [0x01] = 0xFEFF ∧ csum [0xff, 0xff] = 0 ∧ csum [0xff, 0xff, 0xff, 0xff] = 0
    ∧ csum [0x00, 0x01, 0xf2, 0x03, 0xf4, 0xf5, 0xf6, 0xf7] = 0x220D := by decide +kernel

/-- B3.1, the header without and with its checksum. -/
theorem test_csum_header :
    csum [0x45, 0, 0, 0x3c, 0x1c, 0x46, 0x40, 0, 0x40, 0x06, 0, 0, 0xac, 0x10, 0x0a, 0x63, 0xac, 0x10, 0x0a, 0x0c] = 0xB1E6
    ∧ csum [0x45, 0, 0, 0x3c, 0x1c, 0x46, 0x40, 0, 0x40, 0x06, 0xb1, 0xe6, 0xac, 0x10, 0x0a, 0x63, 0xac, 0x10, 0x0a, 0x0c] = 0 := by
  decide +kernel

/-- B3.5, rejected rows of the checksum and tag requests. -/
theorem test_emit_rejects :
    let oc := offloadCtx false false false f64Fields
    emit { oc with ipcs := true, ipCso := 63 } f64 = none ∧ emit { oc with ipcs := true, ipStart := 35 } f64 = none
    ∧ emit { oc with l4cs := true, l4Start := 65 } f64 = none ∧ emit { oc with l4cs := true, ipStart := 45 } f64 = none
    ∧ emit { oc with vlan := true } (f64.take 11) = none := by decide +kernel

/-- B3.5, rejected rows of segmentation. -/
theorem test_emit_rejects_tso :
    let oc := { offloadCtx false false true f64Fields with mss := 4, hdrLen := 54 }
    emit { oc with mss := 0 } f64 = none ∧ emit { oc with hdrLen := 65 } f64 = none
    ∧ emit { oc with ipStart := 15 } f64 = none ∧ emit { oc with l4Start := 35 } f64 = none
    ∧ emit { oc with ipCso := 53 } f64 = none ∧ emit oc (f64.set 23 0x11) = none := by decide +kernel

/-- B3.6: the frame lengths. -/
theorem test_emit_segment_counts :
    let lens := fun mss => (emit { offloadCtx false false true f64Fields with mss := mss, hdrLen := 54 } f64).map
      fun fs => fs.map List.length
    lens 3 = some [57, 57, 57, 55] ∧ lens 5 = some [59, 59] ∧ lens 11 = some [64] := by decide +kernel

/-- B4.2, rows 5, 7, 8 and 9: own, broadcast, hashed multicast, other unicast, runt. -/
theorem test_classify_matrix :
    let dsts : List (List Byte) := [[0x52, 0x54, 0x00, 0x12, 0x34, 0x56], List.replicate 6 0xFF,
      [0x01, 0x00, 0x5e, 0x00, 0x00, 0x01], [0x02, 0xaa, 0xbb, 0xcc, 0xdd, 0xee], [0, 0, 0, 0, 0]]
    let row := fun e => dsts.map (classify e)
    row { rxEng 2 2 4 with mhashHi := 0x80000000 } = [none, none, none, none, none]
    ∧ row { rxEng 2 2 7 with mhashLo := 0x80000000 } = [some .unicast, some .broadcast, some .multicast, none, none]
    ∧ row (rxEng 2 2 8) = [some .promiscuous, some .promiscuous, some .promiscuous, some .promiscuous, none]
    ∧ row { rxEng 2 2 15 with mhashLo := 0x80000000 }
        = [some .unicast, some .broadcast, some .multicast, some .promiscuous, none] := by decide +kernel

/-- B4.3: the CRC tail of `F60`. -/
theorem test_crc_tail : (deliveryBytes (rxEng 0x12 2 1) f60).drop 60 = [0x39, 0x66, 0x7a, 0xf8] := by decide +kernel

/-! ## The TX rows -/

/-- B1.6: a host-owned descriptor ends the run with one access and no cause. -/
theorem test_txdHost_ends_run :
    log (step (txAt 1 2 [])) = [.memRead 0x1000 32 true] ∧ (out (step (txAt 1 2 []))).eng.txState = .idle
    ∧ (out (step (txAt 1 2 []))).eng.icause = 0 := by decide +kernel

/-- P1: the accesses, the frame and the writeback of the descriptor, up to the next fetch. -/
theorem test_txdSend_p1 :
    let f : List Byte := (List.range 46).map fun i => BitVec.ofNat 8 (i + 1)
    log (step (txAt 1 1 [(0x1000, wordSend), (0x2000, f)]))
      = [.memRead 0x1000 32 true, .memRead 0x2000 46 true, .send f, .memWrite 0x1000 [0x2e, 0x00, 0x40, 0x00] true] := by
  decide +kernel

/-- B2.8, the fourth descriptor: it discards the open frame, sends its own and shows `DONE|SEQERR`. -/
theorem test_txdSend_discards_open_frame :
    let s := { txAt 5 8 [(0x1000, pad32 [4, 0, 0, 0xB0, 0, 0, 0, 0, 0, 0x20]), (0x2000, abcd)] with
      eng.pf := { isOpen := true, buf := [1, 2] } }
    w0At (out (step s)) 0x1000 = 0x30440004 ∧ (out (step s)).eng.cntTxRej = 1 ∧ (out (step s)).eng.cntTxFrames = 1 := by
  decide +kernel

/-- B3.3 row 1. -/
theorem test_txdIpcs :
    let t := out (step (txAt 1 4 [(0x1000, wordIpcs), (0x3000, f64)]))
    Event.send ((f64.set 24 0xa7).set 25 0x70) ∈ t.events ∧ w0At t 0x1000 = 0x04400040 := by decide +kernel

/-- B3.3 row 2. -/
theorem test_txdL4cs :
    let t := out (step (txAt 1 4 [(0x1000, wordL4cs), (0x3000, f64)]))
    Event.send ((f64.set 50 0x7e).set 51 0xa5) ∈ t.events ∧ w0At t 0x1000 = 0x02400040 := by decide +kernel

/-- B3.2: the tagged frame with both checksums. -/
theorem test_txdIpl4cs :
    let t := out (step (txAt 1 4 [(0x1000, wordIpl4cs), (0x3000, f64)]))
    Event.send ([0x02, 0, 0, 0, 0, 0x02, 0x02, 0, 0, 0, 0, 0x01, 0x81, 0x00, 0x20, 0x64, 0x08, 0x00]
      ++ [0x45, 0, 0, 0, 0x12, 0x34, 0x40, 0, 0x40, 0x06, 0xa7, 0x70, 0xc0, 0xa8, 0, 0x01, 0xc0, 0xa8, 0, 0x02]
      ++ [0x04, 0xd2, 0, 0x50, 0xff, 0xff, 0xff, 0xfc, 0, 0, 0, 0, 0x50, 0x19, 0x20, 0, 0x04, 0x45, 0, 0] ++ pay) ∈ t.events
    ∧ w0At t 0x1000 = 0x0EC00040 := by decide +kernel

/-- B3.2: the per-descriptor interrupt. -/
theorem test_txdIpl4cs_irq :
    let t := out (step (txAt 1 4 [(0x1000, wordIpl4cs), (0x3000, f64)]))
    t.eng.icause = 1 ∧ t.eng.irqLine = true ∧ t.op.unsignalled = false ∧ t.eng.txr.idx = 1 := by decide +kernel

/-- P2: the second descriptor closes the frame `H54` opened; its three segments. -/
theorem test_txdTso_p2 :
    let s := { txAt 5 4 [(0x1020, wordTso), (0x3100, pay)] with
      eng.txr.idx := 1, eng.pf := { isOpen := true, buf := h54 }, op.consumed := 1, op.unsignalled := true }
    let seg := fun (len idLo ipHi ipLo : Byte) (seq : List Byte) (fl tHi tLo : Byte) (payload : List Byte) =>
      h54.take 14 ++ [0x45, 0, 0, len, 0x12, idLo, 0x40, 0, 0x40, 0x06, ipHi, ipLo, 0xc0, 0xa8, 0, 0x01, 0xc0, 0xa8, 0, 0x02]
        ++ [0x04, 0xd2, 0, 0x50] ++ seq ++ [0, 0, 0, 0, 0x50, fl, 0x20, 0, tHi, tLo, 0, 0] ++ payload
    log (step s) = [.memRead 0x1020 32 true, .memRead 0x3100 10 true,
      .send (seg 0x2c 0x34 0xa7 0x44 [0xff, 0xff, 0xff, 0xfc] 0x10 0xa6 0xf9 [0x30, 0x31, 0x32, 0x33]),
      .send (seg 0x2c 0x35 0xa7 0x43 [0, 0, 0, 0] 0x10 0x9e 0xee [0x34, 0x35, 0x36, 0x37]),
      .send (seg 0x2a 0x36 0xa7 0x44 [0, 0, 0, 0x04] 0x19 0xd1 0x16 [0x38, 0x39]),
      .memWrite 0x1020 [0x0a, 0x00, 0x40, 0x51] true] := by decide +kernel

/-- P2: the cursor wraps at `EOR`. -/
theorem test_txdTso_wraps :
    let s := { txAt 5 4 [(0x1020, wordTso), (0x3100, pay)] with eng.txr.idx := 1, eng.pf := { isOpen := true, buf := h54 } }
    (out (step s)).eng.txr.idx = 0 ∧ (out (step s)).eng.cntTxFrames = 3 ∧ (out (step s)).eng.pf.isOpen = false := by
  decide +kernel

/-! ## The RX rows -/

/-- P3, step 11: the second frame meets a host-owned descriptor. -/
theorem test_rxdHost_overrun :
    let s := { rxAt 2 2 [] 1 f60 [(0x4020, wordRxHost)] with eng.rxr.idx := 1, eng.icause := 2, eng.irqLine := true }
    let t := out (step s)
    t.events = [.memRead 0x4020 32 true] ∧ t.eng.icause = 6 ∧ t.eng.rxNores = true ∧ t.eng.cntRxMissed = 1
    ∧ t.eng.rxr.idx = 1 := by decide +kernel

/-- P3, step 9: a frame into one buffer. -/
theorem test_rxdFree_p3 :
    let t := out (step (rxAt 2 2 [] 0 f60 [(0x4000, wordFree)]))
    t.events = [.memRead 0x4000 32 true, .memWrite 0x5000 f60 true, .memWrite 0x4000 [0x3c, 0x00, 0x40, 0x30] true,
      .lineChange true] ∧ t.eng.rxr.idx = 1 ∧ t.eng.icause = 2 := by decide +kernel

/-- B4.5, the third fetch: the whole write phase of a chain. -/
theorem test_rxdFree_chain :
    let sl := fun (ix : Half) (a b : Addr) => ({ idx := ix, addr := a, d := { len := 24, buf := b } } : RxSlot)
    let s := rxAt 0xA 4 [sl 0 0x4000 0x5000, sl 1 0x4020 0x5100] 2 f60
      [(0x4040, pad32 [24, 0, 0, 0x80, 0, 0, 0, 0, 0, 0x52])]
    log (step s) = [.memRead 0x4040 32 true,
      .memWrite 0x5000 (f60.take 24) true, .memWrite 0x4000 [0x18, 0x00, 0x40, 0x20] true,
      .memWrite 0x5100 ((f60.drop 24).take 24) true, .memWrite 0x4020 [0x18, 0x00, 0x40, 0x00] true,
      .memWrite 0x5200 (f60.drop 48) true, .memWrite 0x4040 [0x0C, 0x00, 0x40, 0x10] true, .lineChange true] := by
  decide +kernel

/-! ## Commands -/

/-- B8: both resets of a dirty engine. -/
theorem test_softReset_keeps_mac :
    let s := { State.reset with eng := { rxEng 0x1F 2 15 with irqLine := true, icause := 5, cntRxMissed := 1 } }
    (out (exec (.softReset 0) s)).eng = { macLo := 0x12005452, macHi := 0x5634 }
    ∧ log (exec (.softReset 0) s) = [.lineChange false] := by decide +kernel
theorem test_hardReset_clears_mac :
    let s := { State.reset with eng := rxEng 0x1F 2 15 }
    (out (exec (.hardReset 0) s)).eng = State.reset.eng ∧ log (exec (.hardReset 0) s) = [] := by decide +kernel
/-- B5.12. -/
theorem test_loadTxRing :
    (out (exec (.loadTxRing 0xAB) { State.reset with eng := { txBaseLo := 0x1000, txBaseHi := 1, txLen := 4 } })).eng.txr
      = { base := 0x100001000, cap := 4, idx := 0 } := by decide +kernel
/-- P3, step 6, and B4.7's `rx_nores` cleared by the load (R303). -/
theorem test_loadRxRing :
    let t := out (exec (.loadRxRing 0) { State.reset with eng := { rxBaseLo := 0x4000, rxLen := 2, rxNores := true } })
    t.eng.rxr = { base := 0x4000, cap := 2, idx := 0 } ∧ t.eng.rxNores = false := by decide +kernel
/-- B5.11. -/
theorem test_cmdReserved : (out (exec (.cmdReserved 0x77 0) { State.reset with eng := txEng 1 4 })).eng = txEng 1 4 := by
  decide +kernel

/-! ## Register accesses -/

/-- B5.4: five implemented bits, and none in the other lanes. -/
theorem test_ctrlW :
    (out (exec (.ctrlW 0 0xFF) State.reset)).eng.ctrl = 0x1F ∧ (out (exec (.ctrlW 1 0xFF) State.reset)).eng.ctrl = 0 := by
  decide
/-- B5.7: the low byte of `CMD` executes nothing. -/
theorem test_cmdStore :
    (out (exec (.cmdStore 0x10) State.reset)).eng.cmd = 0x0010 ∧ (out (exec (.cmdStore 0x10) State.reset)).op.phase = .idle := by
  decide
/-- B5.8: the high byte brings the command with the stored low byte. -/
theorem test_cmdX :
    let t := out (exec (.cmdX 0x10) (laneAt { cmd := 0x0010 } [] none))
    t.eng.cmd = 0x1010 ∧ t.op.phase = .command := by decide
/-- B6.1 and B6.2. -/
theorem test_icauseAck_partial :
    let s := laneAt { icause := 0xF, imask := 0xF, irqLine := true } [] none
    (out (exec (.icauseAck 1 0xFF) s)).eng.icause = 0xF
    ∧ (out (exec (.icauseAck 0 0x05) s)).eng.icause = 0xA ∧ log (exec (.icauseAck 0 0x05) s) = [] := by decide
/-- B6.3. -/
theorem test_icauseAck_all :
    let s := laneAt { icause := 0xA, imask := 0xF, irqLine := true } [] none
    (out (exec (.icauseAck 0 0xFF) s)).eng.icause = 0 ∧ log (exec (.icauseAck 0 0xFF) s) = [.lineChange false] := by decide
/-- B6.5. -/
theorem test_imaskW :
    let s := laneAt { icause := 4 } [] none
    log (exec (.imaskW 0 3) s) = [] ∧ log (exec (.imaskW 0 4) s) = [.lineChange true]
    ∧ (out (exec (.imaskW 0 4) s)).eng.icause = 4 := by decide
/-- B5.3, and the high word. -/
theorem test_ringStageTxBase :
    (out (exec (.ringStageTxBase 1 0x11) { State.reset with eng := { txBaseLo := 0xAABBCCDD } })).eng.txBaseLo = 0xAABB11DD
    ∧ (out (exec (.ringStageTxBase 7 0x80) State.reset)).eng.txBaseHi = 0x80000000 := by decide
/-- B5.4: lanes 2 and 3 of `TX_LEN` hold no bits. -/
theorem test_ringStageTxLen :
    (out (exec (.ringStageTxLen 1 0x56) { State.reset with eng := { txLen := 0x0078 } })).eng.txLen = 0x5678
    ∧ (out (exec (.ringStageTxLen 2 0x34) State.reset)).eng.txLen = 0 := by decide
/-- `10_state.md` R40. -/
theorem test_ringStageRxBase :
    (out (exec (.ringStageRxBase 2 0x11) { State.reset with eng := { rxBaseLo := 0xAABBCCDD } })).eng.rxBaseLo = 0xAA11CCDD
    ∧ (out (exec (.ringStageRxBase 4 0x01) State.reset)).eng.rxBaseHi = 1 := by decide
/-- `10_state.md` R41. -/
theorem test_ringStageRxLen :
    (out (exec (.ringStageRxLen 0 0x02) State.reset)).eng.rxLen = 2
    ∧ (out (exec (.ringStageRxLen 3 0x02) State.reset)).eng.rxLen = 0 := by decide
/-- B2.1 and the start of P1's run. -/
theorem test_txDbW_starts_run :
    (out (exec (.txDbW 0xFF) (laneAt (txEng 0 1) [] none))).op.phase = .idle
    ∧ (out (exec (.txDbW 0xFF) (laneAt (txEng 1 1) [] none))).op.phase = .txRun := by decide +kernel
/-- B2.2: no ring. -/
theorem test_txDbW_stalls :
    let t := out (exec (.txDbW 0) (laneAt (txEng 1 0) [] none))
    statusWord t.eng = 0x12 ∧ t.eng.icause = 8 ∧ t.events = [.lineChange true] := by decide +kernel
/-- B5.15. -/
theorem test_rxDbW : (out (exec (.rxDbW 0) (laneAt { rxNores := true } [] none))).eng.rxNores = false := by decide
/-- P3, step 1. -/
theorem test_filterWMac :
    (out (exec (.filterWMac 3 0x12) { State.reset with eng := { macLo := 0x00005452 } })).eng.macLo = 0x12005452
    ∧ (out (exec (.filterWMac 5 0x56) { State.reset with eng := { macHi := 0x0034 } })).eng.macHi = 0x5634 := by decide
/-- `10_state.md` R46. -/
theorem test_filterWMhash :
    (out (exec (.filterWMhash 3 0x80) State.reset)).eng.mhashLo = 0x80000000
    ∧ (out (exec (.filterWMhash 7 0x40) State.reset)).eng.mhashHi = 0x40000000 := by decide
/-- B5.4. -/
theorem test_filterWRxFilter :
    (out (exec (.filterWRxFilter 0 0xFF) State.reset)).eng.rxFilter = 0xF
    ∧ (out (exec (.filterWRxFilter 1 0xFF) State.reset)).eng.rxFilter = 0 := by decide
/-- B5.5: `TX_IDX` is read-only. -/
theorem test_regwNone : (out (exec (.regwNone 0x2C 5) (laneAt (txEng 1 4) [] none))).eng = txEng 1 4 := by decide +kernel
/-- B5.2 and B5.6. -/
theorem test_regR :
    let rd := fun (e : Engine) (o : Byte) n => log (exec (.regR o n) { State.reset with eng := e })
    rd {} 0x01 .one = [.regData 0x01 .one 0x4D] ∧ rd {} 0x02 .two = [.regData 0x02 .two 0x4544]
    ∧ rd { ctrl := 0x1F } 0x02 .four = [.regData 0x02 .four 0x001F4544]
    ∧ rd { ctrl := 0x1F } 0xFE .four = [.regData 0xFE .four 0] := by decide +kernel
/-- B5.9: an unaligned write, whole: lanes 0x06 to 0x09, then the command. -/
theorem test_operate_unaligned_command :
    let t := out (operate (presented { txBaseLo := 0x1000, txLen := 4 } (.regWrite 0x06 .four 0x10000000)))
    t.eng.txr = { base := 0x1000, cap := 4, idx := 0 } ∧ t.eng.cmd = 0x1000 ∧ t.eng.ctrl = 0 ∧ t.op = {} := by
  decide +kernel

/-! ## Witnesses: the hypotheses of the statements are met

Each theorem shows a concrete state and operands that meet the hypotheses of the statement it names, clause by
clause where the statement has several.
-/

theorem witness_decodeEncodeAgree :
    (Instr.cmdReserved 0x77 0).WellFormed = true ∧ (Instr.regwNone 0xFF 0).WellFormed = true
    ∧ (Instr.txdTso true false f64Fields).WellFormed = true := by decide

theorem witness_encodeDecodeAgree : decode .regw [0x5C, 0x01] = .ok (.regwNone 0x5C 0x01) := by decide

theorem witness_descriptorDecode : wordIpl4cs.length = 32 ∧ wordRxHost.length = 32 := by decide

/-- One state for each clause of `StepRunsDecodedInstruction`. -/
theorem witness_stepRunsDecodedInstruction :
    ((presented {} (.regRead 0xFE .four)).op.phase = .idle
      ∧ (presented {} (.regRead 0xFE .four)).inputs = [.regRead 0xFE .four])
    ∧ ((laneAt {} [(0x09, 0x10)] none).op.phase = .lanes ∧ (laneAt {} [(0x09, 0x10)] none).op.lanes = [(0x09, 0x10)]
      ∧ decode .regw [0x09, 0x10] = .ok (.cmdX 0x10))
    ∧ ((State.reset.withFetchWord 16 0x1000).op.phase = .command
      ∧ decode .cmd16 (le16 (State.reset.withFetchWord 16 0x1000).eng.cmd) = .ok (.loadTxRing 0))
    ∧ (let s := txAt 1 1 [(0x1000, wordSend)]
      s.op.phase = .txRun ∧ memRead (txSlot s) 32 s = (some wordSend, { s with events := [.memRead 0x1000 32 true] })
        ∧ decode .txd wordSend = .ok (.txdSend { len := 46, buf := 0x2000 }))
    ∧ (let s := rxAt 2 2 [] 1 f60 [(0x4020, wordRxHost)]
      s.op.phase = .rxScan
        ∧ memRead (slotAddr s.eng.rxr s.op.rx.next) 32 s = (some wordRxHost, { s with events := [.memRead 0x4020 32 true] })
        ∧ decode .rxd wordRxHost = .ok (.rxdHost { eor := true, buf := 0x5800 })) := by decide +kernel

theorem witness_fetchReadsSlot : (txAt 1 1 [(0x1000, wordSend)]).replies = [] := rfl

/-- A decidable sufficient condition for the invariant, for witnesses outside a delivery. -/
abbrev SmallInv (s : State) : Prop :=
  s.mem.wf = true ∧ s.eng.txr.idx = 0 ∧ s.eng.rxr.idx = 0 ∧ s.eng.pf = {}
  ∧ (s.eng.txState = .draining ↔ s.op.phase = .txRun) ∧ s.eng.irqLine = s.eng.lineWanted
  ∧ (s.op.phase = .idle → s.op = {})
  ∧ (s.op.phase = .lanes → s.op.lanes.length = 1 ∧ s.op.trig = none)
  ∧ (s.op.phase = .command → s.op = { phase := .command })
  ∧ (s.op.phase = .txRun → s.eng.txEn = true ∧ s.eng.txr.cap ≠ 0 ∧ s.op.consumed ≤ s.eng.txr.cap.toNat
      ∧ (s.op.unsignalled = true → s.op.consumed ≠ 0))
  ∧ s.op.phase ≠ .rxScan

theorem inv_of_small {s : State} (h : SmallInv s) : Inv s := by
  obtain ⟨hm, ht, hr, hp, hd, hl, hi, hla, hc, hx, hn⟩ := h
  have ring : ∀ r : Cursor, r.idx = 0 → r.Ok := fun r h0 =>
    ⟨fun _ => h0, fun hc0 => by rw [h0]; exact Nat.pos_of_ne_zero fun h => hc0 (BitVec.eq_of_toNat_eq h)⟩
  refine { mem := hm, txr := ring _ ht, rxr := ring _ hr, pf := ?_, draining := hd, line := .inl hl, rest := hi,
           lanes := fun h => ?_, command := hc, txRun := hx, rxScan := fun h => absurd h hn }
  · rw [hp]
    exact { fits := Nat.zero_le _, closed := fun _ => rfl, mark := nofun, orphan := nofun }
  · obtain ⟨h1, h2⟩ := hla h
    obtain ⟨l, hl1⟩ := List.length_eq_one_iff.mp h1
    refine ⟨by simp [hl1], fun t u a b => ?_⟩
    simp only [Op.Mentions, h2, hl1, List.mem_singleton, exists_eq_left, reduceCtorEq, false_or] at a b
    exact Option.some.inj (a.symm.trans b)

/-- An idle state with an input, and a run at its loop head, meet the invariant and step on. -/
theorem witness_stepKeepsInv :
    (Inv (presented {} .canReceive) ∧ ∃ t, step (presented {} .canReceive) = .next t)
    ∧ (Inv (txAt 1 1 [(0x1000, wordSend)]) ∧ ∃ t, step (txAt 1 1 [(0x1000, wordSend)]) = .next t) :=
  ⟨⟨inv_of_small (by decide +kernel), _, rfl⟩, ⟨inv_of_small (by decide +kernel), _, rfl⟩⟩

theorem witness_operationSettles : Inv (presented (txEng 1 2) (.regWrite 0x40 .four 0)) :=
  inv_of_small (by decide +kernel)

theorem witness_txRunAccessBound :
    Inv (txAt 1 2 [(0x1000, wordSend)]) ∧ (txAt 1 2 [(0x1000, wordSend)]).op = { phase := .txRun } :=
  ⟨inv_of_small (by decide +kernel), rfl⟩

theorem witness_eventsOnlyGrow : ∃ t, step (presented {} .canReceive) = .next t := ⟨_, rfl⟩

/-- Both cases of the first hypothesis of `PlainLaneStores`, and the highest unclaimed lane. -/
theorem witness_plainLaneStores :
    (laneAt {} [] none).op.trig = none ∧ (laneAt {} [(0x0A, 0)] (some .command)).op.lanes ≠ []
    ∧ claimedLane 0xFF = false ∧ claimedLane 0x2C = false := by decide

/-- One state for each trigger of `TriggerFiresAfterLastLane`. -/
theorem witness_triggerFiresAfterLastLane :
    claimedLane 0x0A = false ∧ claimedLane 0x45 = false ∧ claimedLane 0x18 = false ∧ claimedLane 0x41 = false
    ∧ (laneAt {} [] (some .command)).op.lanes = [] ∧ (laneAt {} [] (some .command)).op.trig = some .command
    ∧ (laneAt {} [] (some .rxDoorbell)).op.trig = some .rxDoorbell
    ∧ (laneAt {} [] (some .irqEval)).op.trig = some .irqEval
    ∧ (laneAt {} [] (some .txDoorbell)).op.trig = some .txDoorbell := by decide

/-- The lane hypotheses of `CmdXStoresAndTriggers`, `ImaskWReplaces` and `RxDoorbell`. -/
theorem witness_lanes_left_or_none : (laneAt {} [] none).op.lanes = [] ∧ (laneAt {} [(0x0A, 0)] none).op.lanes ≠ [] := by
  decide

/-- `IcauseAckClears`: the last clause, an acknowledge of nothing set (B6.4); the lane hypotheses are those above. -/
theorem witness_icauseAckClears :
    let s := laneAt { icause := 1, imask := 0xF, irqLine := true } [] none
    s.op.lanes = [] ∧ s.eng.icause &&& ~~~((0x0E : Byte).extractLsb' 0 4) = s.eng.icause
    ∧ s.eng.irqLine = s.eng.lineWanted := by decide

/-- One state for each clause of `TxDoorbell`. -/
theorem witness_txDoorbell :
    (laneAt {} [(0x41, 0)] none).op.lanes ≠ []
    ∧ ((laneAt (txEng 0 1) [] none).op.lanes = [] ∧ (txEng 0 1).ctrl.getLsbD 0 = false)
    ∧ ((txEng 1 0).ctrl.getLsbD 0 = true ∧ (txEng 1 0).txr.cap = 0)
    ∧ ((txEng 1 1).ctrl.getLsbD 0 = true ∧ (txEng 1 1).txr.cap ≠ 0) := by decide

/-- A write past the end of the window, the lane beside a trigger, and an aligned word. -/
theorem witness_registerWriteWindow :
    Inv (presented {} (.regWrite 0xFE .four 0xFFFFFFFF)) ∧ (presented {} (.regWrite 0xFE .four 0xFFFFFFFF)).op.phase = .idle
    ∧ (∀ i < AccessSize.four.bytes, (0xFE : Byte).toNat + i < 256 → laneTrigger (BitVec.ofNat 8 ((0xFE : Byte).toNat + i)) = none)
    ∧ Inv (presented {} (.regWrite 0x08 .one 0x10))
    ∧ (∀ i < AccessSize.one.bytes, (0x08 : Byte).toNat + i < 256 → laneTrigger (BitVec.ofNat 8 ((0x08 : Byte).toNat + i)) = none)
    ∧ Inv (presented {} (.regWrite 0x20 .four 0x1000))
    ∧ (∀ i < AccessSize.four.bytes, (0x20 : Byte).toNat + i < 256 → laneTrigger (BitVec.ofNat 8 ((0x20 : Byte).toNat + i)) = none) :=
  ⟨inv_of_small (by decide +kernel), rfl, by decide, inv_of_small (by decide +kernel), by decide,
   inv_of_small (by decide +kernel), by decide⟩

theorem witness_commandWriteExecutes :
    let s := presented { txBaseLo := 0x1000, txLen := 1 } (.regWrite 0x08 .two 0x1000)
    Inv s ∧ s.op.phase = .idle ∧ s.inputs = [.regWrite 0x08 .two 0x1000] :=
  ⟨inv_of_small (by decide +kernel), rfl, rfl⟩

theorem witness_hardReset : State.reset.cfg = Config.default := rfl

/-- The collaborator faults the next call. -/
def faulting : Reply := { answer := .fault }

theorem witness_txNoDescriptorEndsRun :
    let s := { txAt 1 1 [] with replies := [faulting] }
    s.op.phase = .txRun ∧ s.replies = [faulting] ∧ faulting.answer = .fault := by decide

theorem witness_txBoundStalls :
    let s := { txAt 1 2 [] with op.consumed := 2 }
    s.op.consumed = s.eng.txr.cap.toNat := by decide

/-! The four-byte descriptors of B2.5 to B2.8. -/

/-- The operands `len=4 buf=0x2000` with these framing bits. -/
def four (fs ls : Bool) : TxFields := { fs := fs, ls := ls, len := 4, buf := 0x2000 }

/-- The bytes of the frame before this segment. -/
def before (s : State) (d : TxFields) : List Byte := if (framing s.eng d).1 then [] else s.eng.pf.buf

/-- The hypotheses of `TxDescriptorCompletes`. -/
abbrev Completes (s : State) (ipcs l4cs tso : Bool) (d : TxFields) (sent : List (List Byte)) : Prop :=
  s.replies = [] ∧ s.op.consumed ≠ s.eng.txr.cap.toNat
  ∧ ((framing s.eng d).1 = false → s.eng.pf.isOpen = true ∧ s.eng.pf.err = none)
  ∧ d.len.toNat ≤ s.cfg.maxFrame - (before s d).length
  ∧ ((framing s.eng d).2 = true →
      emit (offloadCtx ipcs l4cs tso d) (before s d ++ s.mem.readBytes d.buf.toNat d.len.toNat) = some sent)
  ∧ ((framing s.eng d).2 = false → sent = [])

/-- Simple mode, a first segment that is not the last, a segment of an open frame, a discarding first segment, an
empty last descriptor, and a segmented frame. -/
theorem witness_txDescriptorCompletes :
    let mem := [(0x2000, abcd)]
    let opened : PendingFrame := { isOpen := true, buf := [1, 2] }
    Completes (txAt 1 1 mem) false false false (four false false) [abcd]
    ∧ Completes (txAt 5 8 mem) false false false (four true false) []
    ∧ Completes { txAt 5 8 mem with eng.pf := opened } false false false (four false true) [[1, 2] ++ abcd]
    ∧ Completes { txAt 5 8 mem with eng.pf := opened } false false false (four true true) [abcd]
    ∧ Completes (txAt 1 8 mem) false false false { buf := 0x2000 } []
    ∧ Completes (txAt 1 4 [(0x3000, f64)]) false false true { f64Fields with mss := 10, hdrLen := 54 }
        [(Machine.segment { offloadCtx false false true f64Fields with mss := 10, hdrLen := 54 } f64 0)] :=
  ⟨by decide +kernel, by decide +kernel, by decide +kernel, by decide +kernel, by decide +kernel, by decide +kernel⟩

/-- B3.5's first row, in simple mode, and the same closing a chain. -/
theorem witness_txBadOffloadRejected :
    let d := { f64Fields with ipCso := 63, ls := true }
    let s := txAt 1 4 [(0x3000, f64)]
    let s' := { txAt 5 4 [(0x3000, f64)] with eng.pf := { isOpen := true } }
    (s.replies = [] ∧ s.op.consumed ≠ s.eng.txr.cap.toNat ∧ s.eng.txChain = false ∧ d.len.toNat ≤ s.cfg.maxFrame - 0
      ∧ emit (offloadCtx true false false d) ([] ++ s.mem.readBytes d.buf.toNat d.len.toNat) = none)
    ∧ (s'.replies = [] ∧ s'.eng.txChain = true ∧ d.ls = true ∧ d.fs = false ∧ s'.eng.pf.isOpen = true ∧ s'.eng.pf.err = none
      ∧ d.len.toNat ≤ s'.cfg.maxFrame - s'.eng.pf.buf.length
      ∧ emit (offloadCtx true false false d) (s'.eng.pf.buf ++ s'.mem.readBytes d.buf.toNat d.len.toNat) = none) := by
  decide +kernel

/-- A four-byte descriptor behind an open frame of three bytes, with `MAX_FRAME` at 6, in and at the end of a
chain; and in simple mode with `MAX_FRAME` at 3. -/
theorem witness_txOversizeRejected :
    let s := { txAt 5 8 [] with cfg.maxFrame := 6, eng.pf := { isOpen := true, buf := [1, 2, 3] } }
    let s' := { txAt 1 8 [] with cfg.maxFrame := 3 }
    (s.replies = [] ∧ s.op.consumed ≠ s.eng.txr.cap.toNat ∧ s.eng.txChain = true ∧ s.eng.pf.isOpen = true
      ∧ s.eng.pf.err = none ∧ s.cfg.maxFrame - s.eng.pf.buf.length < (four false false).len.toNat)
    ∧ (s'.eng.txChain = false ∧ s'.cfg.maxFrame - 0 < (four false false).len.toNat) := by decide

/-- A frame marked `OVERSIZE`, and no frame at all. -/
theorem witness_txRejectedFrameContinues :
    let s := { txAt 5 8 [] with eng.pf := { isOpen := true, buf := [1], err := some .oversize } }
    let s' := txAt 5 8 []
    (s.replies = [] ∧ s.op.consumed ≠ s.eng.txr.cap.toNat ∧ s.eng.txChain = true ∧ (four false false).fs = false
      ∧ s.eng.pf.isOpen = true ∧ s.eng.pf.err = some .oversize)
    ∧ (s'.replies = [] ∧ s'.op.consumed ≠ s'.eng.txr.cap.toNat ∧ s'.eng.txChain = true ∧ s'.eng.pf.isOpen = false) := by
  decide

theorem witness_txBufferFaultUndone :
    let s := { txAt 1 8 [] with replies := [faulting] }
    s.replies = [faulting] ∧ faulting.answer = .fault ∧ s.op.consumed ≠ s.eng.txr.cap.toNat ∧ s.eng.txChain = false
    ∧ (four false false).len ≠ 0 ∧ (four false false).len.toNat ≤ s.cfg.maxFrame - 0 := by decide

/-- The hypotheses `TxWritebackFaultStands` puts on every clause. -/
abbrev WritebackFaults (s : State) (pre : List Reply) : Prop :=
  s.op.consumed ≠ s.eng.txr.cap.toNat ∧ s.replies = pre ++ [faulting] ∧ faulting.answer = .fault

/-- A segment of a good frame, and the answer to its buffer read. -/
abbrev GoodSegment (s : State) (d : TxFields) (pre : List Reply) : Prop :=
  ((framing s.eng d).1 = false → s.eng.pf.isOpen = true ∧ s.eng.pf.err = none)
  ∧ d.len.toNat ≤ s.cfg.maxFrame - (before s d).length
  ∧ pre.map Reply.answer = if d.len = 0 then [] else [.plain]

/-- The hypotheses of its first clause, without offload requests. -/
abbrev SegmentStands (s : State) (d : TxFields) (pre : List Reply) (sent : List (List Byte)) : Prop :=
  WritebackFaults s pre ∧ GoodSegment s d pre
  ∧ if (framing s.eng d).2 then
      emit (offloadCtx false false false d)
        (before s d ++ (driverStores pre s.mem).readBytes d.buf.toNat d.len.toNat) = some sent
    else sent = []

/-- A state with these answers, this frame pending and room for six bytes. -/
def answered (s : State) (pf : PendingFrame) (pre : List Reply) : State :=
  { s with cfg.maxFrame := 6, eng.pf := pf, replies := pre ++ [faulting] }

/-- Clause (1): simple mode, a first, a middle and a last segment that fills the frame, a discarding first and a
discarding only segment, and empty middle and last segments. -/
theorem witness_txWritebackFaultStands :
    let s := txAt 5 8 [(0x2000, abcd)]
    let two : PendingFrame := { isOpen := true, buf := [1, 2] }
    SegmentStands (answered (txAt 1 8 [(0x2000, abcd)]) {} [{}]) (four false false) [{}] [abcd]
    ∧ SegmentStands (answered s {} [{}]) (four true false) [{}] []
    ∧ SegmentStands (answered s two [{}]) (four false false) [{}] []
    ∧ SegmentStands (answered s two [{}]) (four false true) [{}] [[1, 2] ++ abcd]
    ∧ SegmentStands (answered s two [{}]) (four true false) [{}] []
    ∧ SegmentStands (answered s two [{}]) (four true true) [{}] [abcd]
    ∧ SegmentStands (answered s two []) {} [] []
    ∧ SegmentStands (answered s two []) { ls := true } [] [[1, 2]] :=
  ⟨by decide +kernel, by decide +kernel, by decide +kernel, by decide +kernel, by decide +kernel, by decide +kernel,
   by decide +kernel, by decide +kernel⟩

/-- Clause (2): a checksum requested at a position the frame does not have, in simple mode, behind an open frame,
discarding it, and with an empty last segment. -/
theorem witness_txWritebackFaultStands_rejected :
    let s := txAt 5 8 [(0x2000, abcd)]
    let two : PendingFrame := { isOpen := true, buf := [1, 2] }
    let rejects := fun (s : State) (d : TxFields) (pre : List Reply) =>
      WritebackFaults s pre ∧ GoodSegment s d pre ∧ (framing s.eng d).2 = true
      ∧ emit (offloadCtx true false false d)
          (before s d ++ (driverStores pre s.mem).readBytes d.buf.toNat d.len.toNat) = none
    rejects (answered (txAt 1 8 [(0x2000, abcd)]) {} [{}]) { four false false with ipCso := 63 } [{}]
    ∧ rejects (answered s two [{}]) { four false true with ipCso := 63 } [{}]
    ∧ rejects (answered s two [{}]) { four true true with ipCso := 63 } [{}]
    ∧ rejects (answered s two []) { ls := true, ipCso := 63 } [] := by decide +kernel

/-- Clause (3): one byte too many, in simple mode, in and at the end of a chain, and discarding. -/
theorem witness_txWritebackFaultStands_oversize :
    let s := txAt 5 8 []
    let three : PendingFrame := { isOpen := true, buf := [1, 2, 3] }
    let tooLong := fun (s : State) (d : TxFields) =>
      WritebackFaults s [] ∧ ((framing s.eng d).1 = false → s.eng.pf.isOpen = true ∧ s.eng.pf.err = none)
      ∧ ¬d.len.toNat ≤ s.cfg.maxFrame - (before s d).length
    tooLong (answered (txAt 1 8 []) {} []) { len := 7 }
    ∧ tooLong (answered s three []) (four false false) ∧ tooLong (answered s three []) (four false true)
    ∧ tooLong (answered s three []) { fs := true, len := 7 } := by decide +kernel

/-- Clause (4): a segment of a frame with each mark a pending frame holds, and a segment of no frame. -/
theorem witness_txWritebackFaultStands_continuing :
    let s := txAt 5 8 []
    let rejected := fun (s : State) (d : TxFields) (m : ErrMark) =>
      WritebackFaults s [] ∧ (framing s.eng d).1 = false
      ∧ (s.eng.pf.isOpen = true ∧ s.eng.pf.err = some m ∨ s.eng.pf.isOpen = false ∧ m = .seqErr)
    rejected (answered s { isOpen := true, buf := [1], err := some .oversize } []) (four false false) .oversize
    ∧ rejected (answered s { isOpen := true, err := some .seqErr } []) (four false true) .seqErr
    ∧ rejected (answered s {} []) (four false true) .seqErr ∧ rejected (answered s {} []) {} .seqErr := by
  decide +kernel

/-- A TX status and an RX status. -/
theorem witness_writebackFlipsOwnership :
    let s := txAt 1 1 [(0x1000, wordSend)]
    s.mem.wf = true ∧ s.replies = []
    ∧ ((0x00680000 : Word) &&& ~~~0x807C0000 = 0 ∧ (0x00680000 : Word).getLsbD 31 = false)
    ∧ ((0x3040003C : Word) &&& ~~~0xB0F3FFFF = 0 ∧ (0x3040003C : Word).getLsbD 31 = false) := by decide +kernel

/-- `AdvanceWraps` and `AdvanceIterates`: the largest ring at its last slot. -/
theorem witness_advance :
    ({ cap := 65535 } : Cursor).cap ≠ 0 ∧ (65534 : Half).toNat < ({ cap := 65535 } : Cursor).cap.toNat := by decide

theorem witness_ipCkStores : 14 ≤ 34 ∧ 34 ≤ f64.length ∧ 24 + 2 ≤ f64.length := by decide

/-- The longest offsets the bounds allow. -/
theorem witness_l4CkStores : 44 + 20 ≤ f64.length ∧ 64 ≤ f64.length ∧ 62 + 2 ≤ f64.length := by decide

/-- The offload context of the descriptors over `F64`. -/
def f64Ctx (ipcs l4cs tso vlan : Bool) (mss : Nat) : OffloadCtx :=
  { offloadCtx ipcs l4cs tso f64Fields with vlan := vlan, mss := mss, hdrLen := 54 }

theorem witness_checksumIdempotent :
    let oc := f64Ctx true true false false 0
    oc.ipStart + 20 ≤ oc.l4Start ∧ oc.ipCso + 2 ≤ oc.l4Start ∧ oc.l4Start ≤ oc.l4Cso := by decide

theorem witness_emitRejectsExactly : ([] : List Byte) = [] ∧ f64 ≠ [] := by decide

/-- Each request of `EmitSingleFrame` is accepted for `F64`. -/
theorem witness_emitSingleFrame :
    f64 ≠ [] ∧ ∀ ipcs l4cs vlan, (f64Ctx ipcs l4cs false vlan 0).tso = false
      ∧ (emit (f64Ctx ipcs l4cs false vlan 0) f64).isSome = true := by decide +kernel

theorem witness_tsoPayload :
    f64 ≠ [] ∧ (f64Ctx false false true true 4).tso = true ∧ (emit (f64Ctx false false true true 4) f64).isSome = true := by
  decide +kernel

/-- `TsoHeader` and `TsoChecksumsVerify`: a middle and the last of three segments. -/
theorem witness_tsoHeader :
    let oc := f64Ctx false false true false 4
    tsoValid oc f64 = true ∧ 1 < segCount oc f64 ∧ 2 < segCount oc f64 ∧ oc.ipCso = oc.ipStart + 10
    ∧ oc.l4Cso = oc.l4Start + 16 := by decide

theorem witness_classifyByClass :
    ([0, 0, 0, 0, 0] : List Byte).length < 6 ∧ 6 ≤ f60.length ∧ (rxEng 2 2 8).rxFilter.getLsbD 3 = true
    ∧ (rxEng 2 2 1).rxFilter.getLsbD 3 = false ∧ (rxEng 2 2 0).rxFilter = 0 := by decide

/-- One state for each clause of `TransportCalls`. -/
theorem witness_transportCalls :
    ((presented {} .canReceive).op = {} ∧ (presented {} .canReceive).inputs = [.canReceive])
    ∧ ((presented (rxEng 0 2 1) (.receive f60)).op = {} ∧ (presented (rxEng 0 2 1) (.receive f60)).inputs = [.receive f60]
      ∧ (rxEng 0 2 1).ctrl.getLsbD 1 = false)
    ∧ classify (rxEng 2 2 2) f60 = none
    ∧ ((rxEng 2 0 1).ctrl.getLsbD 1 = true ∧ classify (rxEng 2 0 1) f60 = some .unicast ∧ (rxEng 2 0 1).rxr.cap = 0)
    ∧ ((rxEng 2 2 1).ctrl.getLsbD 1 = true ∧ classify (rxEng 2 2 1) f60 = some .unicast ∧ (rxEng 2 2 1).rxr.cap ≠ 0) := by
  decide +kernel

theorem witness_rxNoDescriptorOverruns :
    let s := { rxAt 2 2 [] 0 f60 [] with replies := [faulting] }
    s.op.phase = .rxScan ∧ s.replies = [faulting] ∧ faulting.answer = .fault := by decide +kernel

/-- Exact fit (B4.3, row 2). -/
theorem witness_rxSingleDelivery :
    let s := rxAt 2 2 [] 0 f60 []
    s.replies = [] ∧ s.op.rx.chain = [] ∧ s.op.rx.data ≠ [] ∧ s.op.rx.data.length ≤ s.cfg.maxFrame
    ∧ s.op.rx.data.length ≤ ({ len := 60 } : RxFields).len.toNat := by decide +kernel

/-- One byte too large for the buffer (B4.3, row 3), and for `MAX_FRAME` in chained mode; both answers. -/
theorem witness_rxOversizeDrop :
    let s := rxAt 2 2 [] 0 f60 []
    let s' := { rxAt 0xA 2 [] 0 f60 [] with cfg.maxFrame := 59, replies := [faulting] }
    (s.op.rx.chain = [] ∧ s.eng.ctrl.getLsbD 3 = false ∧ ({ len := 59 } : RxFields).len.toNat < s.op.rx.data.length ∧ s.replies = [])
    ∧ (s'.op.rx.chain = [] ∧ s'.cfg.maxFrame < s'.op.rx.data.length ∧ s'.replies = [faulting] ∧ faulting.answer = .fault) := by
  decide +kernel

/-- B4.5's first descriptor, and B4.6's second one in a ring of two, where the scan laps. -/
theorem witness_rxPreScan :
    let d : RxFields := { len := 24, buf := 0x5100 }
    let s := rxAt 0xA 4 [] 0 f60 []
    let s' := rxAt 0xA 2 [{ idx := 0, addr := 0x4000, d := d }] 1 f60 []
    (s.eng.ctrl.getLsbD 3 = true ∧ s.op.rx.data.length ≤ s.cfg.maxFrame
      ∧ chainCap s.op.rx.chain + d.len.toNat < s.op.rx.data.length
      ∧ ∀ sl ∈ fetchedChain s d, sl.idx ≠ advance s.eng.rxr s.op.rx.next d.eor)
    ∧ (s'.eng.ctrl.getLsbD 3 = true ∧ s'.op.rx.data.length ≤ s'.cfg.maxFrame
      ∧ chainCap s'.op.rx.chain + d.len.toNat < s'.op.rx.data.length
      ∧ ∃ sl ∈ fetchedChain s' d, sl.idx = advance s'.eng.rxr s'.op.rx.next d.eor) := by decide +kernel

/-- B4.5's last descriptor. -/
theorem witness_rxChainDelivery :
    let d : RxFields := { len := 24, buf := 0x5200 }
    let s := rxAt 0xA 4 [{ idx := 0, addr := 0x4000, d := d }, { idx := 1, addr := 0x4020, d := d }] 2 f60 []
    s.replies = [] ∧ s.eng.ctrl.getLsbD 3 = true ∧ s.op.rx.data.length ≤ s.cfg.maxFrame
    ∧ chainCap s.op.rx.chain < s.op.rx.data.length ∧ s.op.rx.data.length ≤ chainCap (fetchedChain s d) := by decide +kernel

/-- The hypotheses of `RxWriteFaultStops`: these answers, then a fault at write `j` of element `k`. -/
abbrev WriteFaults (s : State) (d : RxFields) (k j : Nat) (pre : List Reply) : Prop :=
  let chain := fetchedChain s d
  s.op.rx.data.length ≤ s.cfg.maxFrame ∧ s.op.rx.data.length ≤ chainCap chain
  ∧ ((rxSlotWrites s.op.rx chain k)[j]?).isSome
  ∧ pre.map Reply.answer
      = List.replicate ((List.range k).flatMap (rxSlotWrites s.op.rx chain)
          ++ (rxSlotWrites s.op.rx chain k).take j).length .plain

/-- One descriptor, its buffer (B7.5) and its writeback; a chain of three that `F60` fills but for the last, with the
fault at each kind of place: the first buffer, the middle buffer (B7.6), the last buffer and the last writeback; and
the writeback of an element without a share. -/
theorem witness_rxWriteFaultStops :
    let d : RxFields := { len := 24, buf := 0x5200 }
    let s := rxAt 0xA 4 [{ idx := 0, addr := 0x4000, d := d }, { idx := 1, addr := 0x4020, d := d }] 2 f60 []
    let hole := rxAt 0xA 4 [{ idx := 0, addr := 0x4000, d := {} }] 1 f60 []
    faulting.answer = .fault
    ∧ WriteFaults (rxAt 2 2 [] 0 f60 []) { len := 2048 } 0 0 []
    ∧ WriteFaults (rxAt 2 2 [] 0 f60 []) { len := 60 } 0 1 [{}]
    ∧ WriteFaults s d 0 0 [] ∧ WriteFaults s d 1 0 [{}, {}]
    ∧ WriteFaults s d 2 0 [{}, {}, {}, {}] ∧ WriteFaults s d 2 1 [{}, {}, {}, {}, {}]
    ∧ WriteFaults hole { len := 60 } 0 0 [] ∧ WriteFaults hole { len := 60 } 1 0 [{}] := by decide +kernel

/-- B7.6: a faulting buffer write in the middle of B4.5's chain. -/
theorem test_rxdFree_fault_mid_chain :
    let d : Addr → RxFields := fun b => { len := 24, buf := b }
    let owned := fun a => (a, [0x18, 0, 0, 0x80])
    let s := { rxAt 0xA 4 [{ idx := 0, addr := 0x4000, d := d 0x5000 }, { idx := 1, addr := 0x4020, d := d 0x5100 }] 2 f60
                 [owned 0x4000, owned 0x4020, owned 0x4040] with replies := [{}, {}, faulting] }
    let t := out (exec (.rxdFree (d 0x5200)) s)
    t.events = [.memWrite 0x5000 (f60.take 24) true, .memWrite 0x4000 (le32 0x20400018) true,
                .memWrite 0x5100 ((f60.drop 24).take 24) false, .platformFault 0x5100 24 .write]
    ∧ w0At t 0x4000 = 0x20400018 ∧ w0At t 0x4020 = 0x80000018 ∧ w0At t 0x4040 = 0x80000018
    ∧ t.eng = { s.eng with rxr.idx := 1 } ∧ t.op = {} := by decide +kernel

/-- A writeback changes a byte of memory. -/
theorem witness_engineWritesOnlyWhatItOwns :
    let s := txAt 1 1 [(0x1000, wordSend)]
    ∃ t, exec (.txdSend { len := 46, buf := 0x2000 }) s = .next t ∧ t.mem.get 0x1002 ≠ s.mem.get 0x1002 :=
  ⟨_, rfl, by decide +kernel⟩

/-- `RingsChangeOnlyByTheirRows` with a ring loaded, a TX index and an RX index moved, and `ProtectedRegisters` with
a changed address and a cleared cause. -/
theorem witness_exec_answers_next :
    (∃ t, exec (.loadTxRing 0) State.reset = .next t)
    ∧ (let s := txAt 1 2 [(0x1000, wordSend)]
      ∃ t, exec (.txdSend { len := 46, buf := 0x2000 }) s = .next t ∧ t.eng.txr ≠ s.eng.txr)
    ∧ (let s := rxAt 2 2 [] 0 f60 []
      ∃ t, exec (.rxdFree { len := 2048, buf := 0x5000 }) s = .next t ∧ t.eng.rxr ≠ s.eng.rxr)
    ∧ (∃ t, exec (.filterWMac 0 0x52) State.reset = .next t ∧ t.eng.macLo ≠ State.reset.eng.macLo)
    ∧ (let s := laneAt { icause := 0xF, imask := 0xF, irqLine := true } [] none
      ∃ t, exec (.icauseAck 0 0xF) s = .next t ∧ s.eng.icause &&& ~~~t.eng.icause ≠ 0) :=
  ⟨⟨_, rfl⟩, ⟨_, rfl, by decide +kernel⟩, ⟨_, rfl, by decide +kernel⟩, ⟨_, rfl, by decide⟩, ⟨_, rfl, by decide⟩⟩

/-- `TxStateMoves`: a state for each way in, from `Idle` and from `Stalled`: a run, and `Stalled` without a ring. -/
theorem witness_txStateMoves_in :
    let moves := fun s => Inv s ∧ ∃ t, step s = .next t ∧ t.eng.txState ≠ s.eng.txState
    moves (laneAt (txEng 1 1) [(0x40, 0)] none)
    ∧ moves (laneAt { txEng 1 1 with txState := .stalled } [(0x40, 0)] none)
    ∧ moves (laneAt (txEng 1 0) [(0x40, 0)] none) :=
  ⟨⟨inv_of_small (by decide +kernel), _, rfl, by decide +kernel⟩, ⟨inv_of_small (by decide +kernel), _, rfl, by decide +kernel⟩,
   ⟨inv_of_small (by decide +kernel), _, rfl, by decide +kernel⟩⟩

/-- `TxStateMoves`: a state for each way out of a run: a host-owned descriptor, a faulting fetch, the bound; and from
`Stalled` to `Idle` by each command. -/
theorem witness_txStateMoves :
    let moves := fun s => Inv s ∧ ∃ t, step s = .next t ∧ t.eng.txState ≠ s.eng.txState
    let stalled : Half → State := fun c =>
      { State.reset with eng := { txState := .stalled, cmd := c }, op := { phase := .command } }
    moves (txAt 1 1 []) ∧ moves { txAt 1 1 [] with replies := [faulting] }
    ∧ moves { txAt 1 1 [(0x1000, wordSend)] with op.consumed := 1 }
    ∧ moves (stalled 0x1000) ∧ moves (stalled 0x0100) ∧ moves (stalled 0x0200) :=
  ⟨⟨inv_of_small (by decide +kernel), _, rfl, by decide +kernel⟩, ⟨inv_of_small (by decide +kernel), _, rfl, by decide +kernel⟩,
   ⟨inv_of_small (by decide +kernel), _, rfl, by decide +kernel⟩, ⟨inv_of_small (by decide +kernel), _, rfl, by decide +kernel⟩,
   ⟨inv_of_small (by decide +kernel), _, rfl, by decide +kernel⟩, ⟨inv_of_small (by decide +kernel), _, rfl, by decide +kernel⟩⟩

end Sys2Proof.Tests
end

section
/-!
SUPPORT. What the invariant asks of each phase: the part of it that no phase changes (`Sound`), and one way to build
it for each phase of an operation.
-/

namespace Sys2Proof.Machine

/-- The part of the invariant that does not look at the operation in progress. -/
structure Sound (s : State) : Prop where
  mem : s.mem.wf = true
  txr : s.eng.txr.Ok
  rxr : s.eng.rxr.Ok
  pf : s.eng.pf.Ok s.cfg.maxFrame

theorem Inv.sound {s : State} (h : Inv s) : Sound s := ⟨h.mem, h.txr, h.rxr, h.pf⟩

/-- A cursor with index 0 is sound whatever its capacity (`10_state.md` R22). -/
theorem cursor_ok_of_idx_zero {r : Cursor} (h : r.idx = 0) : r.Ok := by
  refine ⟨fun _ => h, fun hc => ?_⟩
  rw [h]
  exact Nat.pos_of_ne_zero fun h0 => hc (BitVec.eq_of_toNat_eq h0)

/-- An advanced cursor of a ring with slots is sound (`40_ring_and_descriptor.md` R146). -/
theorem cursor_ok_of_lt {r : Cursor} {i : Half} (hc : r.cap ≠ 0) (h : i.toNat < r.cap.toNat) :
    ({ r with idx := i } : Cursor).Ok := ⟨fun h0 => absurd h0 hc, fun _ => h⟩

/-- The closed pending frame is sound (`10_state.md` R23). -/
theorem pendingFrame_ok_closed (n : Nat) : PendingFrame.Ok n {} := ⟨Nat.zero_le _, fun _ => rfl, nofun, nofun⟩

/-- The surroundings of a step keep soundness; rings and pending frame are to be looked at. -/
theorem Sound.of_carried {s u : State} (hs : Sound s) (hc : Carried s u) (ht : u.eng.txr.Ok) (hr : u.eng.rxr.Ok)
    (hp : u.eng.pf.Ok s.cfg.maxFrame) : Sound u := ⟨hc.wf hs.mem, ht, hr, by rw [hc.cfg]; exact hp⟩

/-- A step of the surroundings that leaves the engine alone keeps soundness. -/
theorem Sound.of_carried_eng {s u : State} (hs : Sound s) (hc : Carried s u) (he : u.eng = s.eng) : Sound u :=
  hs.of_carried hc (by rw [he]; exact hs.txr) (by rw [he]; exact hs.rxr) (by rw [he]; exact hs.pf)

/-! ## The invariant, phase by phase -/

/-- The invariant of a state at rest (`10_state.md` R20). -/
theorem inv_idle {s : State} (hs : Sound s) (ho : s.op = {}) (hd : s.eng.txState ≠ .draining)
    (hl : s.eng.irqLine = s.eng.lineWanted) : Inv s where
  mem := hs.mem
  txr := hs.txr
  rxr := hs.rxr
  pf := hs.pf
  draining := by simp [ho, hd]
  line := .inl hl
  rest := fun _ => ho
  lanes := by simp [ho]
  command := by simp [ho]
  txRun := by simp [ho]
  rxScan := by simp [ho]

/-- The invariant of a state with a command to execute (`44_register_window.md` R300). -/
theorem inv_command {s : State} (hs : Sound s) (ho : s.op = { phase := .command }) (hd : s.eng.txState ≠ .draining)
    (hl : s.eng.irqLine = s.eng.lineWanted) : Inv s where
  mem := hs.mem
  txr := hs.txr
  rxr := hs.rxr
  pf := hs.pf
  draining := by simp [ho, hd]
  line := .inl hl
  rest := by simp [ho]
  lanes := by simp [ho]
  command := fun _ => ho
  txRun := by simp [ho]
  rxScan := by simp [ho]

/-- A write covers at most one trigger (`44_register_window.md` R294). -/
def Op.OneTrigger (op : Op) : Prop := ∀ t u, op.Mentions t → op.Mentions u → t = u

/-- The invariant of a register write in progress (`44_register_window.md` R292, R294). -/
theorem inv_lanes {s : State} (hs : Sound s) (hp : s.op.phase = .lanes) (hd : s.eng.txState ≠ .draining)
    (hl : s.eng.irqLine = s.eng.lineWanted ∨ s.op.trig = some .irqEval) (hne : s.op.lanes ≠ [])
    (hone : s.op.OneTrigger) : Inv s where
  mem := hs.mem
  txr := hs.txr
  rxr := hs.rxr
  pf := hs.pf
  draining := by simp [hp, hd]
  line := hl.imp_right fun h => ⟨hp, h⟩
  rest := by simp [hp]
  lanes := fun _ => ⟨hne, hone⟩
  command := by simp [hp]
  txRun := by simp [hp]
  rxScan := by simp [hp]

/-- The invariant of a TX run at its loop head (`41_tx_path.md` R161, R163). -/
theorem inv_txRun {s : State} (hs : Sound s) (hp : s.op.phase = .txRun) (hd : s.eng.txState = .draining)
    (hl : s.eng.irqLine = s.eng.lineWanted) (hen : s.eng.txEn = true) (hcap : s.eng.txr.cap ≠ 0)
    (hle : s.op.consumed ≤ s.eng.txr.cap.toNat) (hun : s.op.unsignalled = true → s.op.consumed ≠ 0) : Inv s where
  mem := hs.mem
  txr := hs.txr
  rxr := hs.rxr
  pf := hs.pf
  draining := by simp [hp, hd]
  line := .inl hl
  rest := by simp [hp]
  lanes := by simp [hp]
  command := by simp [hp]
  txRun := fun _ => ⟨hen, hcap, hle, hun⟩
  rxScan := by simp [hp]

/-- The invariant of a delivery between two fetches (`43_rx_filter.md` R266). -/
theorem inv_rxScan {s : State} (hs : Sound s) (hp : s.op.phase = .rxScan) (hd : s.eng.txState ≠ .draining)
    (hl : s.eng.irqLine = s.eng.lineWanted) (hscan : RxScanOk s) : Inv s where
  mem := hs.mem
  txr := hs.txr
  rxr := hs.rxr
  pf := hs.pf
  draining := by simp [hp, hd]
  line := .inl hl
  rest := by simp [hp]
  lanes := by simp [hp]
  command := by simp [hp]
  txRun := by simp [hp]
  rxScan := fun _ => hscan

/-! ## What the invariant says, phase by phase -/

theorem Inv.not_draining {s : State} (h : Inv s) (hp : s.op.phase ≠ .txRun) : s.eng.txState ≠ .draining :=
  fun hd => hp (h.draining.mp hd)

/-- Outside a register write the line is at its level (`10_state.md` R27). -/
theorem Inv.line_of_not_lanes {s : State} (h : Inv s) (hp : s.op.phase ≠ .lanes) :
    s.eng.irqLine = s.eng.lineWanted :=
  h.line.resolve_right fun hl => hp hl.1

/-! ## The machine after reset -/

/-- Settles O8: at rest, with every register at its reset value (`10_state.md` R50). -/
theorem resetMeetsInv : Obligations.ResetMeetsInv :=
  inv_idle ⟨reset_mem_wf, cursor_ok_of_idx_zero rfl, cursor_ok_of_idx_zero rfl, pendingFrame_ok_closed _⟩ rfl nofun rfl

end Sys2Proof.Machine
end

section
/-!
SUPPORT. Progress: a step answers a next state that meets the invariant, and an operation in progress comes closer
to its end. Both the invariant over every step and the bound of a whole operation follow from it.
-/

namespace Sys2Proof.Machine

/-- The steps the operation in progress can still take (`41_tx_path.md` R177, `43_rx_filter.md` R266). A write has its
lanes, and behind them a command or a TX run; a run has the descriptors it has not consumed and one fetch more; a
delivery has the slots it has not visited. -/
def workLeft (s : State) : Nat :=
  match s.op.phase with
  | .idle => 0
  | .lanes => s.op.lanes.length + s.eng.txr.cap.toNat + 1
  | .command => 1
  | .txRun => s.eng.txr.cap.toNat - s.op.consumed + 1
  | .rxScan => s.eng.rxr.cap.toNat - s.op.rx.chain.length

theorem workLeft_idle {s : State} (h : s.op.phase = .idle) : workLeft s = 0 := by simp [workLeft, h]
theorem workLeft_lanes {s : State} (h : s.op.phase = .lanes) :
    workLeft s = s.op.lanes.length + s.eng.txr.cap.toNat + 1 := by simp [workLeft, h]
theorem workLeft_command {s : State} (h : s.op.phase = .command) : workLeft s = 1 := by simp [workLeft, h]
theorem workLeft_txRun {s : State} (h : s.op.phase = .txRun) :
    workLeft s = s.eng.txr.cap.toNat - s.op.consumed + 1 := by simp [workLeft, h]
theorem workLeft_rxScan {s : State} (h : s.op.phase = .rxScan) :
    workLeft s = s.eng.rxr.cap.toNat - s.op.rx.chain.length := by simp [workLeft, h]

/-- The model's bound on the steps of an operation is large enough (assumption log 3). -/
theorem workLeft_le_operationBound (s : State) : workLeft s ≤ operationBound s := by
  unfold workLeft operationBound
  split <;> omega

/-- The outcome is a next state that meets the invariant and has less than `n` steps of work left. -/
def Advances (o : Host.Outcome State Fault Refusal) (n : Nat) : Prop := ∃ t, o = .next t ∧ Inv t ∧ workLeft t < n

/-- An outcome that ends the operation advances whatever work was left. -/
theorem advances_of_over {t : State} {n : Nat} (hi : Inv t) (ho : t.op = {}) (hn : 0 < n) : Advances (.next t) n :=
  ⟨t, rfl, hi, by rw [workLeft_idle (by rw [ho])]; exact hn⟩

/-! ## The ends of an operation -/

/-- An operation that ends without an evaluation of the line. -/
theorem inv_endOp {s : State} (hs : Sound s) (hd : s.eng.txState ≠ .draining)
    (hl : s.eng.irqLine = s.eng.lineWanted) : Inv (endOp s) :=
  inv_idle ⟨hs.mem, hs.txr, hs.rxr, hs.pf⟩ rfl hd hl

/-- The end of a TX run evaluates the line (`41_tx_path.md` R174). -/
theorem inv_endRun {s : State} {st : TxState} (hs : Sound s) (hd : st ≠ .draining) : Inv (endRun st s) := by
  rw [endRun_eq]
  exact inv_idle ⟨hs.mem, hs.txr, hs.rxr, hs.pf⟩ rfl hd rfl

@[simp] theorem endRun_op (st : TxState) (s : State) : (endRun st s).op = {} := by rw [endRun_eq]

/-- An overrun evaluates the line (`43_rx_filter.md` R263). -/
theorem inv_overrun {s : State} (hs : Sound s) (hd : s.eng.txState ≠ .draining) : Inv (overrun s) := by
  rw [overrun_eq]
  exact inv_idle ⟨hs.mem, hs.txr, hs.rxr, hs.pf⟩ rfl hd rfl

@[simp] theorem overrun_op (s : State) : (overrun s).op = {} := by rw [overrun_eq]

/-- The completion of a delivery evaluates the line (`43_rx_filter.md` R268). -/
theorem inv_rxSignal {s : State} (hs : Sound s) (hd : s.eng.txState ≠ .draining) : Inv (rxSignal s) := by
  rw [rxSignal_eq]
  exact inv_idle ⟨hs.mem, hs.txr, hs.rxr, hs.pf⟩ rfl hd rfl

@[simp] theorem rxSignal_op (s : State) : (rxSignal s).op = {} := by rw [rxSignal_eq]

/-! ## The TX doorbell -/

/-- The TX doorbell is ignored, stalls at once, or starts a run (`41_tx_path.md` R161, R162). -/
theorem advances_txStart {s : State} {n : Nat} (hs : Sound s) (hd : s.eng.txState ≠ .draining)
    (hl : s.eng.irqLine = s.eng.lineWanted) (hn : s.eng.txr.cap.toNat + 1 < n) : Advances (.next (txStart s)) n := by
  cases hen : s.eng.txEn with
  | false =>
    rw [txStart_disabled s hen]
    exact advances_of_over (inv_endOp hs hd hl) rfl (by omega)
  | true =>
    by_cases hc : s.eng.txr.cap = 0
    · rw [txStart_noRing s hen hc]
      exact advances_of_over (inv_idle ⟨hs.mem, hs.txr, hs.rxr, hs.pf⟩ rfl nofun rfl) rfl (by omega)
    · rw [txStart_run s hen hc]
      refine ⟨_, rfl, inv_txRun ⟨hs.mem, hs.txr, hs.rxr, hs.pf⟩ rfl rfl hl hen hc (Nat.zero_le _) nofun, ?_⟩
      rw [workLeft_txRun rfl]
      exact hn

end Sys2Proof.Machine
end

section
/-!
SUPPORT. Register writes: what the byte of one lane changes, the trigger it notes, and what the last lane fires.
-/

namespace Sys2Proof.Machine

/-! ## One lane -/

/-- The trigger a lane instruction notes (`44_register_window.md` R294). -/
def trigger : Instr → Option Trigger
  | .cmdX _ => some .command
  | .txDbW _ => some .txDoorbell
  | .rxDbW _ => some .rxDoorbell
  | .icauseAck _ _ | .imaskW _ _ => some .irqEval
  | _ => none

/-- What the byte of the lane `i` can change of the engine before any trigger fires (`44_register_window.md`
R292, R299; `60_exceptions.md` R343, R344). -/
structure LaneStored (i : Instr) (e e' : Engine) : Prop where
  txr : e'.txr = e.txr
  rxr : e'.rxr = e.rxr
  pf : e'.pf = e.pf
  txState : e'.txState = e.txState
  irqLine : e'.irqLine = e.irqLine
  mac : (∀ l v, i ≠ .filterWMac l v) → e'.macLo = e.macLo ∧ e'.macHi = e.macHi
  icause : (∀ l v, i ≠ .icauseAck l v) → e'.icause = e.icause
  lineWanted : trigger i ≠ some .irqEval → e'.lineWanted = e.lineWanted

/-- A byte stored outside the rings, the pending frame, the states, the interrupt registers and the station
address. -/
theorem LaneStored.plain (i : Instr) {e e' : Engine}
    (h : (e'.inner, e'.imask, e'.macLo, e'.macHi) = (e.inner, e.imask, e.macLo, e.macHi)) : LaneStored i e e' := by
  simp only [Engine.inner, Prod.mk.injEq] at h
  obtain ⟨⟨htxr, hrxr, hpf, hst, _, hline, hic⟩, him, hlo, hhi⟩ := h
  exact ⟨htxr, hrxr, hpf, hst, hline, fun _ => ⟨hlo, hhi⟩, fun _ => hic,
    fun _ => by simp only [Engine.lineWanted, hic, him]⟩

/-- The state with the byte of the lane `i` stored and its trigger noted. -/
def afterByte (i : Instr) (e : Engine) (s : State) : State :=
  { s with eng := e, op := { s.op with trig := (trigger i).or s.op.trig } }

/-- Everything a lane instruction can do: it stores its byte, notes its trigger, and the write goes on or fires. -/
theorem exec_lane_cases (i : Instr) (hi : i.format = .regw) (s : State) :
    ∃ e, exec i s = .next (endLane (afterByte i e s)) ∧ LaneStored i s.eng e := by
  cases i with
  | ctrlW lane v => simp only [exec, execCtrlW]; split <;> exact ⟨_, rfl, .plain _ rfl⟩
  | cmdStore v => exact ⟨_, rfl, .plain _ rfl⟩
  | cmdX v => exact ⟨_, rfl, .plain _ rfl⟩
  | icauseAck lane v =>
    simp only [exec, execIcauseAck]
    split
    · exact ⟨_, rfl, rfl, rfl, rfl, rfl, rfl, fun _ => ⟨rfl, rfl⟩, fun h => absurd rfl (h lane v),
        fun h => absurd rfl h⟩
    · exact ⟨_, rfl, .plain _ rfl⟩
  | imaskW lane v =>
    simp only [exec, execImaskW]
    split
    · exact ⟨_, rfl, rfl, rfl, rfl, rfl, rfl, fun _ => ⟨rfl, rfl⟩, fun _ => rfl, fun h => absurd rfl h⟩
    · exact ⟨_, rfl, .plain _ rfl⟩
  | ringStageTxBase lane v => simp only [exec, execRingStageTxBase]; split <;> exact ⟨_, rfl, .plain _ rfl⟩
  | ringStageTxLen lane v => exact ⟨_, rfl, .plain _ rfl⟩
  | ringStageRxBase lane v => simp only [exec, execRingStageRxBase]; split <;> exact ⟨_, rfl, .plain _ rfl⟩
  | ringStageRxLen lane v => exact ⟨_, rfl, .plain _ rfl⟩
  | txDbW v => exact ⟨_, rfl, .plain _ rfl⟩
  | rxDbW v => exact ⟨_, rfl, .plain _ rfl⟩
  | filterWMac lane v =>
    simp only [exec, execFilterWMac]
    split <;> exact ⟨_, rfl, rfl, rfl, rfl, rfl, rfl, fun h => absurd rfl (h lane v), fun _ => rfl, fun _ => rfl⟩
  | filterWMhash lane v => simp only [exec, execFilterWMhash]; split <;> exact ⟨_, rfl, .plain _ rfl⟩
  | filterWRxFilter lane v => simp only [exec, execFilterWRxFilter]; split <;> exact ⟨_, rfl, .plain _ rfl⟩
  | regwNone off v => exact ⟨_, rfl, .plain _ rfl⟩
  | _ => cases hi

end Sys2Proof.Machine
end

section
/-!
SUPPORT. A register write under the invariant: the lanes of one access cover at most one trigger, and each lane and
the trigger behind the last one keep the invariant.
-/

namespace Sys2Proof.Machine

/-! ## The lane decoder -/

theorem decodeLane_format (o v : Byte) : (decodeLane o v).format = .regw := by
  simp only [decodeLane, apply_ite Instr.format]
  simp only [Instr.format, ite_self]

/-- Whatever value is written, the lane has the same trigger (`44_register_window.md` R294). -/
theorem trigger_decodeLane_value (o v w : Byte) : trigger (decodeLane o v) = trigger (decodeLane o w) := by
  simp only [decodeLane, apply_ite trigger]
  simp only [trigger]

/-- The row of a lane notes the trigger of its offset (`44_register_window.md` R294). -/
theorem trigger_decodeLane (o v : Byte) : trigger (decodeLane o v) = laneTrigger o := by
  have offsets : ∀ o, trigger (decodeLane o 0) = laneTrigger o := by decide +kernel
  exact (trigger_decodeLane_value o v 0).trans (offsets o)

/-! ## At most one trigger -/

/-- Where the triggers lie (`44_register_window.md` R294). -/
theorem laneTrigger_eq_some {o : Byte} {t : Trigger} (h : laneTrigger o = some t) :
    (t = .command ∧ o.toNat = 0x09) ∨ (t = .txDoorbell ∧ o.toNat = 0x40) ∨ (t = .rxDoorbell ∧ o.toNat = 0x44)
      ∨ (t = .irqEval ∧ 0x10 ≤ o.toNat ∧ o.toNat ≤ 0x17) := by
  unfold laneTrigger at h
  split at h
  · next ho => exact .inl ⟨by simpa using h.symm, by rw [ho]; rfl⟩
  split at h
  · next ho => exact .inr (.inl ⟨by simpa using h.symm, by rw [ho]; rfl⟩)
  split at h
  · next ho => exact .inr (.inr (.inl ⟨by simpa using h.symm, by rw [ho]; rfl⟩))
  split at h
  · next ho => exact .inr (.inr (.inr ⟨by simpa using h.symm, ho⟩))
  · cases h

/-- Two lanes less than four bytes apart fire no two triggers (`44_register_window.md` R294). -/
theorem laneTrigger_unique_of_near {o p : Byte} {t u : Trigger} (ht : laneTrigger o = some t)
    (hu : laneTrigger p = some u) (hop : o.toNat < p.toNat + 4) (hpo : p.toNat < o.toNat + 4) : t = u := by
  have ho := laneTrigger_eq_some ht
  have hp := laneTrigger_eq_some hu
  grind

/-- The lanes of an access lie in the four bytes from its offset on (`44_register_window.md` R290). -/
theorem mem_coveredLanes_range {o : Byte} {n : AccessSize} {v : Word} {l : Byte × Byte}
    (h : l ∈ coveredLanes o n v) : o.toNat ≤ l.1.toNat ∧ l.1.toNat < o.toNat + 4 := by
  have hn : n.bytes ≤ 4 := by cases n <;> decide
  simp only [coveredLanes, List.mem_map, List.mem_filter, List.mem_range] at h
  obtain ⟨i, ⟨hi, hw⟩, rfl⟩ := h
  have hw : o.toNat + i < 256 := of_decide_eq_true hw
  rw [BitVec.toNat_ofNat, Nat.mod_eq_of_lt (by omega)]
  omega

/-- An access covers the lane at its offset. -/
theorem coveredLanes_ne_nil (o : Byte) (n : AccessSize) (v : Word) : coveredLanes o n v ≠ [] := by
  have hn : 0 < n.bytes := by cases n <;> decide
  have ho := o.isLt
  apply List.ne_nil_of_mem (a := (BitVec.ofNat 8 (o.toNat + 0), v.extractLsb' (8 * 0) 8))
  exact List.mem_map_of_mem (List.mem_filter.mpr ⟨List.mem_range.mpr hn, by simpa [windowSize] using ho⟩)

/-- A register write covers at most one trigger (`44_register_window.md` R294). -/
theorem oneTrigger_coveredLanes (o : Byte) (n : AccessSize) (v : Word) :
    Op.OneTrigger { phase := .lanes, lanes := coveredLanes o n v } := by
  rintro t u (ht | ⟨l, hl, ht⟩) (hu | ⟨m, hm, hu⟩)
  · cases ht
  · cases ht
  · cases hu
  · have hl := mem_coveredLanes_range hl
    have hm := mem_coveredLanes_range hm
    exact laneTrigger_unique_of_near ht hu (by omega) (by omega)

/-- With a lane stored, the rest of the write mentions no trigger that it did not mention before. -/
theorem mentions_of_stored_lane {op : Op} {o b : Byte} {rest : List (Byte × Byte)} {p : Phase} {t : Trigger}
    (hl : op.lanes = (o, b) :: rest)
    (h : Op.Mentions { op with phase := p, lanes := rest, trig := (laneTrigger o).or op.trig } t) : op.Mentions t := by
  obtain h | ⟨l, hm, ht⟩ := h
  · obtain h | ⟨_, h⟩ := Option.or_eq_some_iff.mp h
    · exact .inr ⟨(o, b), by rw [hl]; exact List.mem_cons_self, h⟩
    · exact .inl h
  · exact .inr ⟨l, by rw [hl]; exact List.mem_cons_of_mem _ hm, ht⟩

/-! ## After a lane -/

/-- A write with its lanes stored as far as `s` goes on or fires its trigger; `n` bounds what that can still take. -/
theorem advances_endLane {s : State} {n : Nat} (hs : Sound s) (hd : s.eng.txState ≠ .draining)
    (hl : s.eng.irqLine = s.eng.lineWanted ∨ s.op.trig = some .irqEval) (hone : s.op.OneTrigger)
    (hn : s.op.lanes.length + s.eng.txr.cap.toNat + 1 < n) : Advances (.next (endLane s)) n := by
  by_cases hne : s.op.lanes = []
  case neg =>
    rw [endLane_more s hne]
    refine ⟨_, rfl, inv_lanes ⟨hs.mem, hs.txr, hs.rxr, hs.pf⟩ rfl hd hl hne hone, ?_⟩
    rw [workLeft_lanes rfl]
    exact hn
  case pos =>
    have line {u : Option Trigger} (ht : s.op.trig = u) (hu : u ≠ some .irqEval) : s.eng.irqLine = s.eng.lineWanted :=
      hl.resolve_right fun h => hu (ht.symm.trans h)
    match ht : s.op.trig with
    | none =>
      rw [endLane_plain s hne ht]
      exact advances_of_over (inv_idle ⟨hs.mem, hs.txr, hs.rxr, hs.pf⟩ rfl hd (line ht nofun)) rfl (by omega)
    | some .command =>
      rw [endLane_command s hne ht]
      refine ⟨_, rfl, inv_command ⟨hs.mem, hs.txr, hs.rxr, hs.pf⟩ rfl hd (line ht nofun), ?_⟩
      rw [workLeft_command rfl]
      omega
    | some .txDoorbell =>
      rw [endLane_txDoorbell s hne ht]
      exact advances_txStart hs hd (line ht nofun) (by omega)
    | some .rxDoorbell =>
      rw [endLane_rxDoorbell s hne ht]
      exact advances_of_over (inv_idle ⟨hs.mem, hs.txr, hs.rxr, hs.pf⟩ rfl hd (line ht nofun)) rfl (by omega)
    | some .irqEval =>
      rw [endLane_irqEval s hne ht]
      exact advances_of_over (inv_idle ⟨hs.mem, hs.txr, hs.rxr, hs.pf⟩ rfl hd rfl) rfl (by omega)

/-- A step of a register write: its next lane (`44_register_window.md` R292 to R294). -/
theorem advances_step_lanes {s : State} (h : Inv s) (hp : s.op.phase = .lanes) : Advances (step s) (workLeft s) := by
  obtain ⟨hne, hone⟩ := h.lanes hp
  have hd := h.not_draining (by rw [hp]; nofun)
  obtain ⟨⟨o, b⟩, rest, hl⟩ := List.exists_cons_of_ne_nil hne
  rw [step_lane s o b rest hp hl]
  obtain ⟨e, hexec, hst⟩ := exec_lane_cases (decodeLane o b) (decodeLane_format o b) { s with op.lanes := rest }
  rw [hexec]
  have htrig : (afterByte (decodeLane o b) e { s with op.lanes := rest }).op
      = { s.op with lanes := rest, trig := (laneTrigger o).or s.op.trig } := by
    rw [← trigger_decodeLane o b]; rfl
  refine advances_endLane ⟨h.mem, hst.txr ▸ h.txr, hst.rxr ▸ h.rxr, hst.pf ▸ h.pf⟩ (hst.txState ▸ hd) ?_ ?_ ?_
  · show e.irqLine = e.lineWanted ∨ _
    rw [htrig]
    by_cases ht : laneTrigger o = some .irqEval
    · exact .inr (by rw [ht]; rfl)
    · rw [hst.irqLine, hst.lineWanted (by rwa [trigger_decodeLane])]
      refine h.line.imp id fun hq => ?_
      cases hto : laneTrigger o with
      | none => exact hq.2
      | some t =>
        have : t = .irqEval := hone t .irqEval (.inr ⟨(o, b), by rw [hl]; exact List.mem_cons_self, hto⟩) (.inl hq.2)
        exact absurd (this ▸ hto) ht
  · rw [htrig]
    exact fun t u ht hu => hone t u (mentions_of_stored_lane hl ht) (mentions_of_stored_lane hl hu)
  · rw [workLeft_lanes hp, hl, htrig]
    show rest.length + e.txr.cap.toNat + 1 < _
    rw [hst.txr, List.length_cons]
    show rest.length + s.eng.txr.cap.toNat + 1 < _
    omega

end Sys2Proof.Machine
end

section
/-!
SUPPORT. The commands under the invariant (`44_register_window.md` R300 to R303, R306, R307).
-/

namespace Sys2Proof.Machine

theorem decodeCmd_format (op arg : Byte) : (decodeCmd op arg).format = .cmd16 := by
  unfold decodeCmd
  split_ifs <;> rfl

/-- A reset as one update: the engine given, with the line at its level (`44_register_window.md` R306, R307). -/
theorem resetTo_eq (e : Engine) (s : State) :
    resetTo e s = { s with eng := { e with irqLine := e.lineWanted }, op := {}, events := (resetTo e s).events } := by
  unfold resetTo
  simp only [irqEval_eq]
  rfl

/-- A reset to an engine at rest meets the invariant (`10_state.md` R50). -/
theorem inv_resetTo {s : State} {e : Engine} (hm : s.mem.wf = true) (ht : e.txr = {}) (hr : e.rxr = {})
    (hp : e.pf = {}) (hd : e.txState = .idle) : Inv (resetTo e s) := by
  rw [resetTo_eq]
  refine inv_idle ⟨hm, cursor_ok_of_idx_zero (congrArg Cursor.idx ht),
    cursor_ok_of_idx_zero (congrArg Cursor.idx hr), ?_⟩ rfl (by simp [hd]) rfl
  show e.pf.Ok _
  rw [hp]
  exact pendingFrame_ok_closed _

/-- Every command ends its operation (`44_register_window.md` R300). -/
theorem advances_exec_cmd {s : State} {i : Instr} (hi : i.format = .cmd16) (hs : Sound s)
    (hd : s.eng.txState ≠ .draining) (hl : s.eng.irqLine = s.eng.lineWanted) : Advances (exec i s) 1 := by
  cases i with
  | softReset arg => exact advances_of_over (inv_resetTo hs.mem rfl rfl rfl rfl) rfl Nat.one_pos
  | hardReset arg => exact advances_of_over (inv_resetTo hs.mem rfl rfl rfl rfl) rfl Nat.one_pos
  | loadTxRing arg =>
    have hs' := pendingFrame_ok_closed s.cfg.maxFrame
    exact advances_of_over (inv_endOp ⟨hs.mem, cursor_ok_of_idx_zero rfl, hs.rxr, hs'⟩ nofun hl) rfl Nat.one_pos
  | loadRxRing arg =>
    exact advances_of_over (inv_endOp ⟨hs.mem, hs.txr, cursor_ok_of_idx_zero rfl, hs.pf⟩ hd hl) rfl Nat.one_pos
  | cmdReserved op arg => exact advances_of_over (inv_endOp hs hd hl) rfl Nat.one_pos
  | _ => cases hi

/-- A step that executes the command in `CMD`. -/
theorem advances_step_command {s : State} (h : Inv s) (hp : s.op.phase = .command) :
    Advances (step s) (workLeft s) := by
  rw [step_command s hp, workLeft_command hp]
  exact advances_exec_cmd (decodeCmd_format _ _) h.sound (h.not_draining (by rw [hp]; nofun))
    (h.line_of_not_lanes (by rw [hp]; nofun))

end Sys2Proof.Machine
end

section
/-!
SUPPORT. A TX run under the invariant (`41_tx_path.md` R163 to R174): the work of one descriptor before its writeback,
and the turn of the loop it belongs to.
-/

namespace Sys2Proof.Machine

/-! ## The pending frame -/

/-- A sound pending frame that is being assembled (`10_state.md` R23). -/
structure PendingFrame.Assembled (n : Nat) (pf : PendingFrame) : Prop where
  ok : pf.Ok n
  isOpen : pf.isOpen = true

/-- Opening or continuing a frame leaves one that is being assembled (`41_tx_path.md` R166, R167). -/
theorem openFrame_assembled {n : Nat} {pf : PendingFrame} (fs : Bool) (h : pf.Ok n) :
    (openFrame fs pf).Assembled n := by
  unfold openFrame
  split
  · exact ⟨⟨Nat.zero_le _, nofun, nofun, fun _ => rfl⟩, rfl⟩
  · split
    · next ho => exact ⟨h, ho⟩
    · exact ⟨⟨Nat.zero_le _, nofun, nofun, fun _ => rfl⟩, rfl⟩

/-- The length check and the copy keep the frame within `MAX_FRAME` (`41_tx_path.md` R168 to R170). -/
theorem txCopy_assembled {d : TxFields} {s : State} (h : s.eng.pf.Assembled s.cfg.maxFrame) :
    (txCopy d s).2.eng.pf.Assembled s.cfg.maxFrame := by
  have hopen {p : Prop} (hf : s.eng.pf.isOpen = false) : p := absurd (h.isOpen.symm.trans hf) nofun
  obtain ⟨_, e⟩ | ⟨_, _, e⟩ | ⟨_, _, e⟩ | ⟨herr, hlen, _, ⟨bs, hbs, _, e⟩ | ⟨_, e⟩⟩ := txCopy_cases d s <;> rw [e]
  · exact h
  · exact ⟨⟨h.ok.fits, hopen, nofun, nofun⟩, h.isOpen⟩
  · exact h
  · refine ⟨⟨?_, hopen, h.ok.mark, fun he => absurd (herr.symm.trans he) nofun⟩, h.isOpen⟩
    have := h.ok.fits
    show (s.eng.pf.buf ++ bs).length ≤ _
    rw [List.length_append]
    have : d.len.toNat ≠ 0 := fun h0 => by
      have : d.len = 0 := BitVec.eq_of_toNat_eq h0
      contradiction
    omega
  · exact h

/-- The closing step leaves a sound frame, open or reset (`41_tx_path.md` R171). -/
theorem txFinish_pf_ok {n : Nat} {s : State} (ls flag : Bool) (oc : OffloadCtx) (h : s.eng.pf.Ok n) :
    (txFinish ls flag oc s).2.eng.pf.Ok n := by
  obtain ⟨_, e⟩ | ⟨_, _, e⟩ | ⟨_, _, _, _, e⟩ | ⟨_, _, _, e⟩ := txFinish_cases ls flag oc s <;> rw [e]
  · exact h
  all_goals exact pendingFrame_ok_closed n

/-! ## Before the writeback -/

/-- What the work on a descriptor changes before the cursor moves: the pending frame and the TX counters, beside
what every piece of an operation carries along. -/
structure TxWorked (s u : State) : Prop where
  eng : ∃ pf sent rejected, u.eng = { s.eng with pf := pf, cntTxFrames := sent, cntTxRej := rejected }
  op : u.op = s.op
  carried : Carried s u

theorem TxWorked.refl (s : State) : TxWorked s s := ⟨⟨_, _, _, rfl⟩, rfl, .refl s⟩

theorem TxWorked.trans {s t u : State} (h1 : TxWorked s t) (h2 : TxWorked t u) : TxWorked s u := by
  obtain ⟨_, _, _, he⟩ := h1.eng
  obtain ⟨pf, sent, rejected, he'⟩ := h2.eng
  exact ⟨⟨pf, sent, rejected, by rw [he', he]⟩, h2.op.trans h1.op, h1.carried.trans h2.carried⟩

/-- A collaborator call alone. -/
theorem TxWorked.of_carried {s u : State} (h : Carried s u) (he : u.eng = s.eng) (ho : u.op = s.op) : TxWorked s u :=
  ⟨⟨_, _, _, he⟩, ho, h⟩

theorem txWorked_txOpen (fs : Bool) (s : State) : TxWorked s (txOpen fs s) := by
  rw [txOpen_eq]
  exact ⟨⟨_, _, _, rfl⟩, rfl, (Carried.refl s).engine _ _⟩

theorem txWorked_txCopy (d : TxFields) (s : State) : TxWorked s (txCopy d s).2 := by
  obtain ⟨_, e⟩ | ⟨_, _, e⟩ | ⟨_, _, e⟩ | ⟨_, _, _, ⟨bs, _, _, e⟩ | ⟨_, e⟩⟩ := txCopy_cases d s <;> rw [e]
  · exact .refl s
  · exact ⟨⟨_, _, _, rfl⟩, rfl, (Carried.refl s).engine _ _⟩
  · exact .refl s
  · exact ⟨⟨_, _, _, rfl⟩, rfl, (carried_afterCall _ s).engine _ _⟩
  · exact .of_carried (carried_afterCall _ s) rfl rfl

theorem txWorked_txFinish (ls flag : Bool) (oc : OffloadCtx) (s : State) : TxWorked s (txFinish ls flag oc s).2 := by
  obtain ⟨_, e⟩ | ⟨_, _, e⟩ | ⟨frames, _, _, _, e⟩ | ⟨_, _, _, e⟩ := txFinish_cases ls flag oc s <;> rw [e]
  · exact .refl s
  · exact ⟨⟨_, _, _, rfl⟩, rfl, (Carried.refl s).engine _ _⟩
  · exact ⟨⟨_, _, _, rfl⟩, rfl, rfl, rfl, id, List.suffix_rfl, _, rfl⟩
  · exact ⟨⟨_, _, _, rfl⟩, rfl, (Carried.refl s).engine _ _⟩

/-- Everything a turn of the loop can do, by what is left of it: the run bound ends the run; or the descriptor is
worked on, and then the run ends at a fault or goes on behind the descriptor (`41_tx_path.md` R163, R170, R172). -/
theorem txDescriptor_outcome (ipcs l4cs tso : Bool) (d : TxFields) (s : State) :
    (s.op.consumed = s.eng.txr.cap.toNat ∧ txDescriptor ipcs l4cs tso d s = endRun .stalled s)
      ∨ (s.op.consumed ≠ s.eng.txr.cap.toNat
        ∧ ∃ u, TxWorked s u ∧ (s.eng.pf.Ok s.cfg.maxFrame → u.eng.pf.Ok s.cfg.maxFrame)
          ∧ (txDescriptor ipcs l4cs tso d s = endRun .idle u ∨ txDescriptor ipcs l4cs tso d s = txAdvance d u)) := by
  obtain ⟨hc, e⟩ | ⟨hc, _, e⟩ | ⟨hc, _, e⟩ := txDescriptor_cases ipcs l4cs tso d s
  · exact .inl ⟨hc, e⟩
  · exact .inr ⟨hc, _, .of_carried (carried_afterCall _ s) rfl rfl, id, .inl e⟩
  · refine .inr ⟨hc, ?_⟩
    rw [e]
    set opened := txOpen (framing s.eng d).1 s with hopened
    set finished := txFinish (framing s.eng d).2 (seqFlag (framing s.eng d).1 s.eng.pf) (offloadCtx ipcs l4cs tso d)
      (txCopy d opened).2
    obtain ⟨u, ⟨_, heng, hop, hcar⟩, hu⟩ :=
      txComplete_cases (txSlot s) (txWord0 true ipcs l4cs tso d) finished.1 d finished.2
    have hworked : TxWorked s finished.2 :=
      ((txWorked_txOpen _ s).trans (txWorked_txCopy d opened)).trans (txWorked_txFinish _ _ _ _)
    refine ⟨u, hworked.trans (.of_carried hcar heng hop), fun hpf => ?_, ?_⟩
    · have hcfg : opened.cfg = s.cfg := (txWorked_txOpen _ s).carried.cfg
      have hasm : opened.eng.pf.Assembled opened.cfg.maxFrame := by
        rw [hcfg, hopened, txOpen_eq]
        exact openFrame_assembled _ hpf
      rw [heng, ← hcfg]
      exact txFinish_pf_ok _ _ _ (txCopy_assembled hasm).ok
    · exact hu.symm.imp And.right And.right

/-! ## A turn of the loop -/

/-- The engine behind a descriptor: the cursor advanced, and `TXDONE` with the line where the descriptor asks for it
(`41_tx_path.md` R172, R173). -/
theorem txAdvance_eng (d : TxFields) (s : State) :
    (txAdvance d s).eng
      = { s.eng with
          txr := { s.eng.txr with idx := advance s.eng.txr s.eng.txr.idx d.eor }
          icause := turnCauses s.eng d
          irqLine := if d.irq then (turnCauses s.eng d &&& s.eng.imask) != 0 else s.eng.irqLine } := by
  rw [txAdvance_eq, turnCauses]
  split
  · rfl
  · rfl

theorem txAdvance_op (d : TxFields) (s : State) :
    (txAdvance d s).op = { s.op with consumed := s.op.consumed + 1, unsignalled := !d.irq, phase := .txRun } := by
  rw [txAdvance_eq]
  split
  · next h => rw [h]; rfl
  · next h => rw [Bool.eq_false_iff.mpr h]; rfl

/-- The work on a descriptor leaves the run at its loop head, as sound as its pending frame. -/
theorem inv_of_txWorked {s u : State} (h : Inv s) (hp : s.op.phase = .txRun) (hw : TxWorked s u)
    (hpf : u.eng.pf.Ok s.cfg.maxFrame) : Inv u := by
  obtain ⟨hen, hcap, hle, hun⟩ := h.txRun hp
  obtain ⟨pf, sent, rejected, heng⟩ := hw.eng
  have hs : Sound u := h.sound.of_carried hw.carried (by rw [heng]; exact h.txr) (by rw [heng]; exact h.rxr) hpf
  refine inv_txRun hs (by rw [hw.op]; exact hp) ?_ ?_ ?_ ?_ ?_ ?_
  · rw [heng]; exact h.draining.mpr hp
  · rw [heng]; exact h.line_of_not_lanes (by rw [hp]; nofun)
  · rw [heng]; exact hen
  · rw [heng]; exact hcap
  · rw [heng, hw.op]; exact hle
  · rw [hw.op]; exact hun

/-- Behind a descriptor the run is at its loop head again (`41_tx_path.md` R172, R173). -/
theorem inv_txAdvance {s : State} (d : TxFields) (h : Inv s) (hp : s.op.phase = .txRun)
    (hne : s.op.consumed ≠ s.eng.txr.cap.toNat) : Inv (txAdvance d s) := by
  obtain ⟨hen, hcap, hle, _⟩ := h.txRun hp
  have hs : Sound (txAdvance d s) := h.sound.of_carried (carried_txAdvance d s)
    (by rw [txAdvance_eng]; exact cursor_ok_of_lt hcap (advance_lt _ _ _ hcap))
    (by rw [txAdvance_eng]; exact h.rxr) (by rw [txAdvance_eng]; exact h.pf)
  refine inv_txRun hs (by rw [txAdvance_op]) ?_ ?_ ?_ ?_ ?_ ?_
  · rw [txAdvance_eng]; exact h.draining.mpr hp
  · rw [txAdvance_eng]
    cases hirq : d.irq with
    | true => rfl
    | false =>
      simp only [turnCauses, hirq, Bool.false_eq_true, if_false]
      exact h.line_of_not_lanes (by rw [hp]; nofun)
  · rw [txAdvance_eng]; exact hen
  · rw [txAdvance_eng]; exact hcap
  · rw [txAdvance_eng, txAdvance_op]
    exact Nat.lt_of_le_of_ne hle hne
  · rw [txAdvance_op]
    exact fun _ => Nat.succ_ne_zero _

/-- Behind a descriptor the run has one descriptor less to take (`41_tx_path.md` R163). -/
theorem workLeft_txAdvance (d : TxFields) (s : State) :
    workLeft (txAdvance d s) = s.eng.txr.cap.toNat - (s.op.consumed + 1) + 1 := by
  rw [workLeft_txRun (by rw [txAdvance_op]), txAdvance_eng, txAdvance_op]

/-- A descriptor of a run keeps the invariant, and ends the run or takes one of the descriptors left to it
(`41_tx_path.md` R163, R177). -/
theorem advances_txDescriptor {s : State} {n : Nat} (ipcs l4cs tso : Bool) (d : TxFields) (h : Inv s)
    (hp : s.op.phase = .txRun) (hn : workLeft s = n) : Advances (.next (txDescriptor ipcs l4cs tso d s)) n := by
  rw [workLeft_txRun hp] at hn
  obtain ⟨_, _, hle, _⟩ := h.txRun hp
  obtain ⟨_, e⟩ | ⟨hne, u, hw, hpf, hu⟩ := txDescriptor_outcome ipcs l4cs tso d s
  · rw [e]
    exact advances_of_over (inv_endRun h.sound nofun) (endRun_op _ _) (by omega)
  · have hinv : Inv u := inv_of_txWorked h hp hw (hpf h.pf)
    have hcap : u.eng.txr.cap = s.eng.txr.cap := by
      obtain ⟨_, _, _, heng⟩ := hw.eng
      rw [heng]
    obtain e | e := hu <;> rw [e]
    · exact advances_of_over (inv_endRun hinv.sound nofun) (endRun_op _ _) (by omega)
    · refine ⟨_, rfl, inv_txAdvance d hinv (by rw [hw.op]; exact hp) (by rw [hw.op, hcap]; exact hne), ?_⟩
      rw [workLeft_txAdvance, hw.op, hcap]
      omega

/-- A step of a TX run: the fetch of a descriptor and what it asks for (`41_tx_path.md` R164). -/
theorem advances_step_txRun {s : State} (h : Inv s) (hp : s.op.phase = .txRun) : Advances (step s) (workLeft s) := by
  have hpos : 0 < workLeft s := by rw [workLeft_txRun hp]; exact Nat.succ_pos _
  have hcall (es : List Event) : Inv (afterCall es s) :=
    inv_of_txWorked h hp (.of_carried (carried_afterCall es s) rfl rfl) h.pf
  obtain e | ⟨bs, _, _, e⟩ := step_txRun_cases s hp <;> rw [e]
  · exact advances_of_over (inv_endRun (hcall _).sound nofun) (endRun_op _ _) hpos
  · obtain ⟨_, _, _, _, _, e'⟩ | ⟨ipcs, l4cs, tso, d, e'⟩ := exec_txd_cases (decodeTx bs) (decodeTx_format bs)
        (afterCall [.memRead (txSlot s) 32 true] s) <;> rw [e']
    · exact advances_of_over (inv_endRun (hcall _).sound nofun) (endRun_op _ _) hpos
    · exact advances_txDescriptor ipcs l4cs tso d (hcall _) hp rfl

end Sys2Proof.Machine
end

section
/-!
SUPPORT. A delivery under the invariant (`43_rx_filter.md` R260 to R269): which slot moves the RX cursor, and the
pre-scan, which visits no slot of the ring twice.
-/

namespace Sys2Proof.Machine

/-! ## The RX cursor -/

/-- The RX index stays, or becomes the advance of a slot of the chain (`43_rx_filter.md` R264, R267). -/
def RxMoved (chain : List RxSlot) (s u : State) : Prop :=
  u.eng.rxr = s.eng.rxr
    ∨ ∃ sl ∈ chain, u.eng.rxr = { s.eng.rxr with idx := advance s.eng.rxr sl.idx sl.d.eor }

theorem RxMoved.of_eq {chain : List RxSlot} {s u : State} (h : u.eng.rxr = s.eng.rxr) : RxMoved chain s u := .inl h

theorem RxMoved.trans {sl : RxSlot} {more : List RxSlot} {s t u : State} (h1 : RxMoved [sl] s t)
    (h2 : RxMoved more t u) : RxMoved (sl :: more) s u := by
  obtain ⟨sl', hm, h2⟩ | h2 := h2.symm
  · refine .inr ⟨sl', List.mem_cons_of_mem _ hm, ?_⟩
    obtain h1 | ⟨_, _, h1⟩ := h1
    · rw [h2, h1]
    · rw [h2, h1]; rfl
  · obtain h1 | ⟨_, hm, h1⟩ := h1
    · exact .inl (h2.trans h1)
    · rw [List.mem_singleton.mp hm] at h1
      exact .inr ⟨sl, List.mem_cons_self, h2.trans h1⟩

@[simp] theorem rxStore_eng (a : Addr) (bs : List Byte) (s : State) : (rxStore a bs s).2.eng = s.eng := by
  unfold rxStore
  split
  · rfl
  · exact memWrite_eng a bs s

/-- One element of the write phase moves the cursor behind itself or not at all (`43_rx_filter.md` R267). -/
theorem rxMoved_rxWriteSlot (sl : RxSlot) (first last : Bool) (rest : List Byte) (s : State) :
    RxMoved [sl] s (rxWriteSlot sl first last rest s).2 := by
  unfold rxWriteSlot writeback
  simp only
  split
  · split
    · exact .inr ⟨sl, List.mem_singleton_self sl, by simp⟩
    · exact .of_eq (by simp)
  · exact .of_eq (by simp)

/-- The write phase moves the cursor behind an element of its chain or not at all (`43_rx_filter.md` R267). -/
theorem rxMoved_rxWriteChain (chain : List RxSlot) (first : Bool) (rest : List Byte) (s : State) :
    RxMoved chain s (rxWriteChain chain first rest s).2 := by
  induction chain generalizing first rest s with
  | nil => exact .of_eq rfl
  | cons sl more ih =>
    have hslot := rxMoved_rxWriteSlot sl first more.isEmpty rest s
    unfold rxWriteChain
    simp only
    split
    · exact hslot.trans (ih _ _ _)
    · exact hslot.trans (more := more) (.of_eq rfl)

/-! ## One descriptor of a delivery -/

/-- What a delivery leaves that has written and counted: the engine but the RX index and the RX counters. -/
def counted (u : State) (frames errors : Word) : State :=
  { u with eng := { u.eng with cntRxFrames := frames, cntRxErr := errors } }

/-- The pre-scan goes on behind the descriptor `d` (`43_rx_filter.md` R266, R269). -/
structure ScanGoesOn (d : RxFields) (s : State) : Prop where
  fits : s.op.rx.chain = [] → rxTooLarge s d = false
  short : chainCap (fetchedChain s d) < s.op.rx.data.length
  fresh : advance s.eng.rxr s.op.rx.next d.eor ∉ (fetchedChain s d).map RxSlot.idx

/-- A delivery that waits for the descriptor behind `d`. -/
def scanned (d : RxFields) (s : State) : State :=
  { s with op := { s.op with
      phase := .rxScan
      rx := { s.op.rx with chain := fetchedChain s d, next := advance s.eng.rxr s.op.rx.next d.eor } } }

/-- The slot just fetched ends the chain of the delivery. -/
theorem fetchedSlot_mem (d : RxFields) (s : State) :
    { idx := s.op.rx.next, addr := slotAddr s.eng.rxr s.op.rx.next, d := d } ∈ fetchedChain s d :=
  List.mem_append_right _ (List.mem_singleton_self _)

/-- Everything a device-owned descriptor of a delivery can do, by what is left of the delivery: it writes, and then
returns at a fault or signals; it overruns; or the pre-scan goes on (`43_rx_filter.md` R264, R266 to R269). -/
theorem rxDescriptor_outcome (d : RxFields) (s : State) :
    (∃ u, RxWritten s u ∧ RxMoved (fetchedChain s d) s u
        ∧ (rxDescriptor d s = endOp u ∨ ∃ frames errors, rxDescriptor d s = rxSignal (counted u frames errors)))
      ∨ rxDescriptor d s = overrun s
      ∨ (ScanGoesOn d s ∧ rxDescriptor d s = scanned d s) := by
  cases hlarge : s.op.rx.chain.isEmpty && rxTooLarge s d with
  | true =>
    have e : rxDescriptor d s = rxOversize d s := by unfold rxDescriptor; exact if_pos hlarge
    obtain ⟨u, ⟨_, heng, hop, hcar⟩, hu⟩ := rxOversize_cases d s
    rw [e]
    obtain hu | hu := hu
    · exact .inl ⟨u, ⟨⟨_, heng, fun _ => .inl rfl⟩, hop, hcar⟩, .of_eq (by rw [heng]), .inl hu⟩
    · exact .inl ⟨{ u with eng := { s.eng with rxr.idx := advance s.eng.rxr s.op.rx.next d.eor } },
        ⟨⟨_, rfl, fun hc => .inr (advance_lt _ _ _ hc)⟩, hop, hcar.engine _ _⟩,
        .inr ⟨_, fetchedSlot_mem d s, rfl⟩, .inr ⟨_, _, hu⟩⟩
  | false =>
    have e : rxDescriptor d s = rxExtend d s := by unfold rxDescriptor; exact if_neg (by simp [hlarge])
    rw [e]
    obtain ⟨_, e'⟩ | ⟨_, _, e'⟩ | ⟨hshort, hfresh, e'⟩ := rxExtend_cases d s
    · rw [e']
      refine .inl ⟨_, rxWritten_rxWriteChain (fetchedChain s d) true s.op.rx.data s,
        rxMoved_rxWriteChain _ true s.op.rx.data s, ?_⟩
      unfold rxDeliver
      simp only
      split
      · exact .inr ⟨_, _, rfl⟩
      · exact .inl rfl
    · exact .inr (.inl e')
    · refine .inr (.inr ⟨⟨fun hnil => ?_, hshort, hfresh⟩, e'⟩)
      simpa [hnil] using hlarge

/-- A state after the writes of a delivery is sound (`10_state.md` R22). -/
theorem sound_of_rxWritten {s u : State} (h : Sound s) (hcap : s.eng.rxr.cap ≠ 0) (hw : RxWritten s u) : Sound u := by
  obtain ⟨i, heng, hi⟩ := hw.eng
  refine h.of_carried hw.carried (by rw [heng]; exact h.txr) ?_ (by rw [heng]; exact h.pf)
  rw [heng]
  exact cursor_ok_of_lt hcap ((hi hcap).elim (fun he => he ▸ h.rxr.2 hcap) id)

/-! ## The pre-scan -/

/-- No slot is visited twice, so a delivery has not visited every slot while it waits for one (`43_rx_filter.md`
R266). -/
theorem RxScanOk.chain_length_lt {s : State} (h : RxScanOk s) : s.op.rx.chain.length < s.eng.rxr.cap.toNat := by
  set visited := s.op.rx.chain.map RxSlot.idx ++ [s.op.rx.next] with hv
  have hnodup : (visited.map BitVec.toNat).Nodup := h.fresh.map fun _ _ he => BitVec.eq_of_toNat_eq he
  have hsub : visited.map BitVec.toNat ⊆ List.range s.eng.rxr.cap.toNat := by
    intro n hn
    obtain ⟨ix, hix, rfl⟩ := List.mem_map.mp hn
    exact List.mem_range.mpr (h.inside ix hix)
  have hlen := (hnodup.subperm hsub).length_le
  simpa [hv] using hlen

/-- The slots visited once the scan goes on are the slots visited before, and one more. -/
theorem visited_scanned (d : RxFields) (s : State) :
    (scanned d s).op.rx.chain.map RxSlot.idx ++ [(scanned d s).op.rx.next]
      = (s.op.rx.chain.map RxSlot.idx ++ [s.op.rx.next]) ++ [advance s.eng.rxr s.op.rx.next d.eor] := by
  simp [scanned, fetchedChain]

/-- The pre-scan goes on to a slot of the ring it has not visited (`43_rx_filter.md` R266). -/
theorem rxScanOk_scanned {d : RxFields} {s : State} (h : RxScanOk s) (hgo : ScanGoesOn d s) :
    RxScanOk (scanned d s) where
  enabled := h.enabled
  ring := h.ring
  frame := h.frame
  first := by
    rw [visited_scanned, List.head?_append_of_ne_nil _ (by simp)]
    exact h.first
  fresh := by
    have hfresh : advance s.eng.rxr s.op.rx.next d.eor ∉ s.op.rx.chain.map RxSlot.idx ++ [s.op.rx.next] := by
      simpa [fetchedChain] using hgo.fresh
    rw [visited_scanned, List.nodup_append_comm, List.singleton_append, List.nodup_cons]
    exact ⟨hfresh, h.fresh⟩
  inside := by
    rw [visited_scanned]
    intro ix hix
    obtain hix | hix := List.mem_append.mp hix
    · exact h.inside ix hix
    · rw [List.mem_singleton.mp hix]
      exact advance_lt _ _ _ h.ring
  addr := by
    intro sl hsl
    obtain hsl | hsl := List.mem_append.mp hsl
    · exact h.addr sl hsl
    · rw [List.mem_singleton.mp hsl]
      rfl
  short := hgo.short
  chained := fun _ => by
    by_cases hnil : s.op.rx.chain = []
    · have hfits := hgo.fits hnil
      have hshort := hgo.short
      simp only [rxTooLarge, Bool.or_eq_false_iff, decide_eq_false_iff_not, Nat.not_lt, Bool.and_eq_false_iff,
        Bool.not_eq_false'] at hfits
      simp only [fetchedChain, hnil, List.nil_append, chainCap, List.map_cons, List.map_nil, List.sum_cons,
        List.sum_nil, Nat.add_zero] at hshort
      obtain ⟨hmax, hchain | hroom⟩ := hfits
      · exact ⟨hchain, hmax⟩
      · omega
    · exact h.chained hnil

/-- A descriptor of a delivery keeps the invariant, and ends the delivery or visits one of the slots left to it
(`43_rx_filter.md` R266, R269). -/
theorem advances_rxDescriptor {s : State} {n : Nat} (d : RxFields) (h : Inv s) (hp : s.op.phase = .rxScan)
    (hn : workLeft s = n) : Advances (.next (rxDescriptor d s)) n := by
  have hscan := h.rxScan hp
  have hvisited := hscan.chain_length_lt
  rw [workLeft_rxScan hp] at hn
  have hd := h.not_draining (by rw [hp]; nofun)
  have hline := h.line_of_not_lanes (by rw [hp]; nofun)
  obtain ⟨u, hw, _, hu⟩ | e | ⟨hgo, e⟩ := rxDescriptor_outcome d s
  · have hs := sound_of_rxWritten h.sound hscan.ring hw
    obtain ⟨i, heng, _⟩ := hw.eng
    have hd' : u.eng.txState ≠ .draining := by rw [heng]; exact hd
    obtain e | ⟨frames, errors, e⟩ := hu <;> rw [e]
    · exact advances_of_over (inv_endOp hs hd' (by rw [heng]; exact hline)) rfl (by omega)
    · exact advances_of_over (inv_rxSignal ⟨hs.mem, hs.txr, hs.rxr, hs.pf⟩ hd') (rxSignal_op _) (by omega)
  · rw [e]
    exact advances_of_over (inv_overrun h.sound hd) (overrun_op _) (by omega)
  · rw [e]
    refine ⟨_, rfl, inv_rxScan ⟨h.mem, h.txr, h.rxr, h.pf⟩ rfl hd hline (rxScanOk_scanned hscan hgo), ?_⟩
    have hlen : (scanned d s).op.rx.chain.length = s.op.rx.chain.length + 1 := by simp [scanned, fetchedChain]
    rw [workLeft_rxScan rfl, hlen]
    show s.eng.rxr.cap.toNat - (s.op.rx.chain.length + 1) < n
    omega

/-- The invariant after a collaborator call that ends nothing (`20_memory.md` R72). -/
theorem inv_afterCall_rxScan {s : State} (es : List Event) (h : Inv s) (hp : s.op.phase = .rxScan) :
    Inv (afterCall es s) := by
  obtain ⟨hen, hring, hframe, hfirst, hfresh, hinside, haddr, hshort, hchained⟩ := h.rxScan hp
  exact inv_rxScan (h.sound.of_carried_eng (carried_afterCall es s) rfl) hp (h.not_draining (by rw [hp]; nofun))
    (h.line_of_not_lanes (by rw [hp]; nofun)) ⟨hen, hring, hframe, hfirst, hfresh, hinside, haddr, hshort, hchained⟩

/-- A step of a delivery: the fetch of a descriptor and what it asks for (`43_rx_filter.md` R263, R266). -/
theorem advances_step_rxScan {s : State} (h : Inv s) (hp : s.op.phase = .rxScan) : Advances (step s) (workLeft s) := by
  have hpos : 0 < workLeft s := by
    rw [workLeft_rxScan hp]; exact Nat.sub_pos_of_lt (h.rxScan hp).chain_length_lt
  have hd := h.not_draining (by rw [hp]; nofun)
  have hcall (es : List Event) : Inv (afterCall es s) := inv_afterCall_rxScan es h hp
  obtain e | e | ⟨d, e⟩ := step_rxScan_cases s hp <;> rw [e]
  · exact advances_of_over (inv_overrun (hcall _).sound hd) (overrun_op _) hpos
  · exact advances_of_over (inv_overrun (hcall _).sound hd) (overrun_op _) hpos
  · exact advances_rxDescriptor d (hcall _) hp rfl

end Sys2Proof.Machine
end

section
/-!
SUPPORT. A machine at rest under the invariant: what each presented operation starts (`00_scope.md` R12).
-/

namespace Sys2Proof.Machine

/-- What a machine at rest does with the operation presented to it (`20_memory.md` R71, R73). -/
def presentedTo (s : State) : Input → State
  | .regRead o n => logEvent (.regData o n (readWindow s.cfg s.eng o n)) s
  | .regWrite o n v => { s with op := { phase := .lanes, lanes := coveredLanes o n v } }
  | .receive f => receive f s
  | .canReceive => canReceive s
  | .guestStore st => { s with mem := applyStores [st] s.mem }

/-- With nothing presented nothing happens (`70_reset_and_hazards.md` R381). -/
theorem step_noInput {s : State} (hp : s.op.phase = .idle) (hi : s.inputs = []) : step s = .next s := by
  simp only [step, fetchNext, hp, fetchInput, hi]

/-- The size code of a register read is the size's (assumption log 6). -/
theorem decode_regr (o : Byte) (n : AccessSize) : decode .regr [o, encodeSize n] = .ok (.regR o n) := by
  cases n <;> rfl

/-- A step at rest takes the next operation presented. -/
theorem step_input {s : State} {inp : Input} {rest : List Input} (hp : s.op.phase = .idle)
    (hi : s.inputs = inp :: rest) : step s = .next (presentedTo { s with inputs := rest } inp) := by
  cases inp with
  | regRead o n =>
    simp only [step, fetchNext, hp, fetchInput, hi, decode_regr]
    rfl
  | _ =>
    simp only [step, fetchNext, hp, fetchInput, hi]
    rfl

/-- A delivery starts at the cursor with nothing found yet (`43_rx_filter.md` R260 to R262). -/
theorem inv_receive {s : State} (f : List Byte) (hs : Sound s) (hd : s.eng.txState ≠ .draining)
    (hl : s.eng.irqLine = s.eng.lineWanted) : Inv (receive f s) := by
  obtain ⟨_, e⟩ | ⟨_, _, _, e⟩ | ⟨m, hen, hm, hc, e⟩ := receive_cases f s <;> rw [e]
  · exact inv_endOp hs hd hl
  · exact inv_overrun hs hd
  · have hlen : 6 ≤ (deliveryBytes s.eng f).length :=
      (classify_length s.eng f m hm).trans (deliveryBytes_length s.eng f)
    refine inv_rxScan ⟨hs.mem, hs.txr, hs.rxr, hs.pf⟩ rfl hd hl
      { enabled := hen, ring := hc, frame := hlen, first := rfl, fresh := List.nodup_singleton _, inside := ?_,
        addr := fun _ hsl => (List.not_mem_nil hsl).elim, short := ?_, chained := fun h => (h rfl).elim }
    · intro ix hix
      rw [List.mem_singleton.mp hix]
      exact hs.rxr.2 hc
    · exact Nat.lt_of_lt_of_le (Nat.succ_pos 5) hlen

/-- An operation presented to a machine at rest meets the invariant. -/
theorem inv_presentedTo {s : State} (inp : Input) (hs : Sound s) (ho : s.op = {}) (hd : s.eng.txState ≠ .draining)
    (hl : s.eng.irqLine = s.eng.lineWanted) : Inv (presentedTo s inp) := by
  cases inp with
  | regRead o n => exact inv_idle ⟨hs.mem, hs.txr, hs.rxr, hs.pf⟩ ho hd hl
  | regWrite o n v =>
    exact inv_lanes ⟨hs.mem, hs.txr, hs.rxr, hs.pf⟩ rfl hd (.inl hl) (coveredLanes_ne_nil o n v)
      (oneTrigger_coveredLanes o n v)
  | receive f => exact inv_receive f hs hd hl
  | canReceive => exact inv_idle ⟨hs.mem, hs.txr, hs.rxr, hs.pf⟩ ho hd hl
  | guestStore st => exact inv_idle ⟨applyStores_wf _ _ hs.mem, hs.txr, hs.rxr, hs.pf⟩ ho hd hl

/-- A step at rest answers a state that meets the invariant. -/
theorem step_idle_keeps_inv {s : State} (h : Inv s) (hp : s.op.phase = .idle) : ∃ t, step s = .next t ∧ Inv t := by
  have hd := h.not_draining (by rw [hp]; nofun)
  have hl := h.line_of_not_lanes (by rw [hp]; nofun)
  cases hi : s.inputs with
  | nil => exact ⟨s, step_noInput hp hi, h⟩
  | cons inp rest => exact ⟨_, step_input hp hi, inv_presentedTo inp ⟨h.mem, h.txr, h.rxr, h.pf⟩ (h.rest hp) hd hl⟩

end Sys2Proof.Machine
end

section
/-!
The invariant over every step, and whole operations (`10_state.md` R20 to R27).
-/

namespace Sys2Proof.Machine

/-- A step of an operation in progress answers a state that meets the invariant, with less work left. -/
theorem advances_step {s : State} (h : Inv s) (hp : s.op.phase ≠ .idle) : Advances (step s) (workLeft s) :=
  match hq : s.op.phase with
  | .idle => absurd hq hp
  | .lanes => advances_step_lanes h hq
  | .command => advances_step_command h hq
  | .txRun => advances_step_txRun h hq
  | .rxScan => advances_step_rxScan h hq

/-- From a state that meets the invariant a step answers another one. -/
theorem exists_step_inv {s : State} (h : Inv s) : ∃ t, step s = .next t ∧ Inv t := by
  by_cases hp : s.op.phase = .idle
  · exact step_idle_keeps_inv h hp
  · obtain ⟨t, ht, hi, _⟩ := advances_step h hp
    exact ⟨t, ht, hi⟩

/-- Settles O9: phase by phase, each step builds the invariant of the phase it leads to. -/
theorem stepKeepsInv : Obligations.StepKeepsInv := by
  intro s t h ht
  obtain ⟨u, hu, hi⟩ := exists_step_inv h
  obtain rfl : u = t := Host.Outcome.next.inj (hu.symm.trans ht)
  exact hi

/-- As many steps as there is work left end the operation in progress (`41_tx_path.md` R177, `43_rx_filter.md`
R266). -/
theorem settle_ends (n : Nat) (s : State) (h : Inv s) (hn : workLeft s ≤ n) :
    ∃ t, settle n s = .next t ∧ Inv t ∧ t.op.phase = .idle := by
  induction n generalizing s with
  | zero =>
    refine ⟨s, rfl, h, by_contra fun hp => ?_⟩
    obtain ⟨_, _, _, hlt⟩ := advances_step h hp
    omega
  | succ n ih =>
    by_cases hp : s.op.phase = .idle
    · exact ⟨s, settle_rest _ s hp, h, hp⟩
    · obtain ⟨t, ht, hi, hlt⟩ := advances_step h hp
      rw [settle_step n s t hp ht]
      exact ih t hi (by omega)

/-- Settles O10: the first step keeps the invariant, and the bound of `operate` covers the work that is left. -/
theorem operationSettles : Obligations.OperationSettles := by
  intro s h
  obtain ⟨t, ht, hi⟩ := exists_step_inv h
  obtain ⟨u, hu, hinv, hp⟩ := settle_ends (operationBound t) t hi (workLeft_le_operationBound t)
  refine ⟨u, ?_, hinv.rest hp, hinv.not_draining (by rw [hp]; nofun), hinv.line_of_not_lanes (by rw [hp]; nofun)⟩
  unfold operate
  rw [ht]
  exact hu

end Sys2Proof.Machine
end

section
/-!
SUPPORT. Which parts of the engine an instruction can change, row by row: the rings, and the protected registers
(the parameters, the station address and the causes once set).
-/

namespace Sys2Proof.Machine

/-! ## Rings and protected registers -/

/-- Neither ring has changed. -/
structure SameRings (s t : State) : Prop where
  txr : t.eng.txr = s.eng.txr
  rxr : t.eng.rxr = s.eng.rxr

theorem SameRings.trans {s t u : State} (h1 : SameRings s t) (h2 : SameRings t u) : SameRings s u :=
  ⟨h2.txr.trans h1.txr, h2.rxr.trans h1.rxr⟩

/-- The parameters and the station address have not changed, and no cause has been cleared (`10_state.md` R29, R35,
R45). -/
structure Protected (s t : State) : Prop where
  cfg : t.cfg = s.cfg
  macLo : t.eng.macLo = s.eng.macLo
  macHi : t.eng.macHi = s.eng.macHi
  icause : ∃ raised, t.eng.icause = s.eng.icause ||| raised

theorem Protected.trans {s t u : State} (h1 : Protected s t) (h2 : Protected t u) : Protected s u := by
  obtain ⟨r, hr⟩ := h1.icause
  obtain ⟨r', hr'⟩ := h2.icause
  exact ⟨h2.cfg.trans h1.cfg, h2.macLo.trans h1.macLo, h2.macHi.trans h1.macHi, r ||| r', by
    rw [hr', hr, BitVec.or_assoc]⟩

/-- With the causes as they were, nothing has been cleared. -/
theorem icause_kept {c c' : BitVec 4} (h : c' = c) : ∃ raised, c' = c ||| raised := ⟨0, by simp [h]⟩

/-- Causes that were only raised include the ones set before. -/
theorem cleared_eq_zero {c c' : BitVec 4} (h : ∃ raised, c' = c ||| raised) : c &&& ~~~c' = 0 := by
  obtain ⟨raised, rfl⟩ := h
  rw [BitVec.not_or, ← BitVec.and_assoc, BitVec.and_not_self]
  exact BitVec.zero_and

/-- Rings and protected registers together, for the many pieces of an operation that change neither. -/
structure Kept (s t : State) : Prop extends SameRings s t, Protected s t

/-- An engine with the same rings, station address and causes. -/
theorem Kept.of_eq {s t : State} (hc : t.cfg = s.cfg)
    (he : (t.eng.txr, t.eng.rxr, t.eng.macLo, t.eng.macHi, t.eng.icause)
      = (s.eng.txr, s.eng.rxr, s.eng.macLo, s.eng.macHi, s.eng.icause)) : Kept s t := by
  simp only [Prod.mk.injEq] at he
  obtain ⟨htxr, hrxr, hlo, hhi, hic⟩ := he
  exact ⟨⟨htxr, hrxr⟩, hc, hlo, hhi, icause_kept hic⟩

theorem Kept.trans {s t u : State} (h1 : Kept s t) (h2 : Kept t u) : Kept s u :=
  ⟨h1.toSameRings.trans h2.toSameRings, h1.toProtected.trans h2.toProtected⟩

/-! ## The ends of operations -/

theorem kept_endOp (s : State) : Kept s (endOp s) := .of_eq rfl rfl

theorem kept_endRun (st : TxState) (s : State) : Kept s (endRun st s) := by
  rw [endRun_eq]; exact ⟨⟨rfl, rfl⟩, rfl, rfl, rfl, _, BitVec.or_assoc _ _ _⟩

theorem kept_overrun (s : State) : Kept s (overrun s) := by
  rw [overrun_eq]; exact ⟨⟨rfl, rfl⟩, rfl, rfl, rfl, _, rfl⟩

theorem kept_rxSignal (s : State) : Kept s (rxSignal s) := by
  rw [rxSignal_eq]; exact ⟨⟨rfl, rfl⟩, rfl, rfl, rfl, _, rfl⟩

/-! ## Register writes -/

/-- The TX doorbell moves no cursor (`41_tx_path.md` R161, R162). -/
theorem kept_txStart (s : State) : Kept s (txStart s) := by
  cases hen : s.eng.txEn with
  | false => rw [txStart_disabled s hen]; exact kept_endOp s
  | true =>
    by_cases hc : s.eng.txr.cap = 0
    · rw [txStart_noRing s hen hc]; exact ⟨⟨rfl, rfl⟩, rfl, rfl, rfl, _, rfl⟩
    · rw [txStart_run s hen hc]; exact .of_eq rfl rfl

/-- What follows a lane changes no ring and clears no cause (`44_register_window.md` R293, R294). -/
theorem kept_endLane (s : State) : Kept s (endLane s) := by
  by_cases hne : s.op.lanes = []
  case neg => rw [endLane_more s hne]; exact .of_eq rfl rfl
  case pos =>
    match ht : s.op.trig with
    | none => rw [endLane_plain s hne ht]; exact .of_eq rfl rfl
    | some .command => rw [endLane_command s hne ht]; exact .of_eq rfl rfl
    | some .txDoorbell => rw [endLane_txDoorbell s hne ht]; exact kept_txStart s
    | some .rxDoorbell => rw [endLane_rxDoorbell s hne ht]; exact .of_eq rfl rfl
    | some .irqEval => rw [endLane_irqEval s hne ht]; exact .of_eq rfl rfl

/-! ## The TX rows -/

/-- A TX row is host-owned or device-owned (`30_encoding.md` R119). -/
theorem txd_rows {i : Instr} (hi : i.format = .txd) :
    (∃ ipcs l4cs tso d, i = .txdHost ipcs l4cs tso d) ∨ ∃ ipcs l4cs tso d, i = ownedTx ipcs l4cs tso d := by
  cases i with
  | txdHost ipcs l4cs tso d => exact .inl ⟨ipcs, l4cs, tso, d, rfl⟩
  | txdSend d => exact .inr ⟨false, false, false, d, rfl⟩
  | txdIpcs d => exact .inr ⟨true, false, false, d, rfl⟩
  | txdL4cs d => exact .inr ⟨false, true, false, d, rfl⟩
  | txdIpl4cs d => exact .inr ⟨true, true, false, d, rfl⟩
  | txdTso ipcs l4cs d => exact .inr ⟨ipcs, l4cs, true, d, rfl⟩
  | _ => cases hi

/-- A device-owned TX row takes one turn of the loop (`41_tx_path.md` R176). -/
theorem exec_ownedTx (ipcs l4cs tso : Bool) (d : TxFields) (s : State) :
    exec (ownedTx ipcs l4cs tso d) s = .next (txDescriptor ipcs l4cs tso d s) :=
  match tso, ipcs, l4cs with
  | true, _, _ => rfl
  | false, false, false => rfl
  | false, true, false => rfl
  | false, false, true => rfl
  | false, true, true => rfl

theorem TxWorked.kept {s u : State} (h : TxWorked s u) : Kept s u := by
  obtain ⟨_, _, _, heng⟩ := h.eng
  exact .of_eq h.carried.cfg (by rw [heng])

/-- A turn of the loop keeps the protected registers. -/
theorem protected_txAdvance (d : TxFields) (s : State) : Protected s (txAdvance d s) := by
  refine ⟨(carried_txAdvance d s).cfg, by rw [txAdvance_eng], by rw [txAdvance_eng], ?_⟩
  rw [txAdvance_eng]
  show ∃ raised, turnCauses s.eng d = _
  unfold turnCauses
  split
  · exact ⟨_, rfl⟩
  · exact icause_kept rfl

theorem protected_txDescriptor (ipcs l4cs tso : Bool) (d : TxFields) (s : State) :
    Protected s (txDescriptor ipcs l4cs tso d s) := by
  obtain ⟨_, e⟩ | ⟨_, u, hw, _, e | e⟩ := txDescriptor_outcome ipcs l4cs tso d s <;> rw [e]
  · exact (kept_endRun _ s).toProtected
  · exact (hw.kept.trans (kept_endRun _ u)).toProtected
  · exact hw.kept.toProtected.trans (protected_txAdvance d u)

/-- A turn of the loop advances the TX cursor or leaves it, and leaves the RX ring (`40_ring_and_descriptor.md`
R148). -/
theorem rings_txDescriptor (ipcs l4cs tso : Bool) (d : TxFields) (s : State) :
    SameRings s (txDescriptor ipcs l4cs tso d s)
      ∨ (txDescriptor ipcs l4cs tso d s).eng.txr = { s.eng.txr with idx := advance s.eng.txr s.eng.txr.idx d.eor }
        ∧ (txDescriptor ipcs l4cs tso d s).eng.rxr = s.eng.rxr := by
  obtain ⟨_, e⟩ | ⟨_, u, hw, _, e | e⟩ := txDescriptor_outcome ipcs l4cs tso d s <;> rw [e]
  · exact .inl (kept_endRun _ s).toSameRings
  · exact .inl (hw.kept.trans (kept_endRun _ u)).toSameRings
  · refine .inr ⟨?_, ?_⟩ <;> rw [txAdvance_eng]
    · show ({ u.eng.txr with idx := _ } : Cursor) = _
      rw [hw.kept.txr]
    · exact hw.kept.rxr

/-! ## The RX rows -/

theorem protected_rxWritten {s u : State} (h : RxWritten s u) : Protected s u := by
  obtain ⟨_, heng, _⟩ := h.eng
  exact ⟨h.carried.cfg, by rw [heng], by rw [heng], icause_kept (by rw [heng])⟩

theorem kept_counted (u : State) (frames errors : Word) : Kept u (counted u frames errors) := .of_eq rfl rfl

theorem protected_rxDescriptor (d : RxFields) (s : State) : Protected s (rxDescriptor d s) := by
  obtain ⟨u, hw, _, e | ⟨frames, errors, e⟩⟩ | e | ⟨_, e⟩ := rxDescriptor_outcome d s <;> rw [e]
  · exact (protected_rxWritten hw).trans (kept_endOp u).toProtected
  · exact (protected_rxWritten hw).trans ((kept_counted u frames errors).trans (kept_rxSignal _)).toProtected
  · exact (kept_overrun s).toProtected
  · exact ⟨rfl, rfl, rfl, icause_kept rfl⟩

/-- A descriptor of a delivery moves the RX cursor behind a fetched slot or leaves it, and leaves the TX ring
(`40_ring_and_descriptor.md` R148). -/
theorem rings_rxDescriptor (d : RxFields) (s : State) :
    (rxDescriptor d s).eng.txr = s.eng.txr ∧ RxMoved (fetchedChain s d) s (rxDescriptor d s) := by
  obtain ⟨u, hw, hm, hu⟩ | e | ⟨_, e⟩ := rxDescriptor_outcome d s
  · have hkept : Kept u (rxDescriptor d s) := by
      obtain e | ⟨frames, errors, e⟩ := hu <;> rw [e]
      · exact kept_endOp u
      · exact (kept_counted u frames errors).trans (kept_rxSignal _)
    obtain ⟨_, heng, _⟩ := hw.eng
    refine ⟨hkept.txr.trans (by rw [heng]), ?_⟩
    unfold RxMoved
    rw [hkept.rxr]
    exact hm
  · rw [e]
    exact ⟨(kept_overrun s).txr, .of_eq (kept_overrun s).rxr⟩
  · rw [e]
    exact ⟨rfl, .of_eq rfl⟩

end Sys2Proof.Machine
end

section
/-!
What the rows of the opcode table can change of the rings and of the protected registers (`10_state.md` R21, R29,
R35, R45).
-/

namespace Sys2Proof.Machine

/-- A lane changes no ring (`44_register_window.md` R292). -/
theorem sameRings_lane {i : Instr} {s t : State} (hi : i.format = .regw) (h : exec i s = .next t) : SameRings s t := by
  obtain ⟨e, hexec, hst⟩ := exec_lane_cases i hi s
  obtain rfl := Host.Outcome.next.inj (hexec.symm.trans h)
  exact SameRings.trans ⟨hst.txr, hst.rxr⟩ (kept_endLane (afterByte i e s)).toSameRings

/-- Settles O58, format by format: a load and the resets set an index to 0, the device-owned rows advance theirs, and
no other row touches a ring. -/
theorem ringsChangeOnlyByTheirRows : Obligations.RingsChangeOnlyByTheirRows := by
  intro i s t h
  match hi : i.format with
  | .txd =>
    obtain ⟨_, _, _, _, rfl⟩ | ⟨ipcs, l4cs, tso, d, rfl⟩ := txd_rows hi
    · obtain rfl := Host.Outcome.next.inj h
      exact ⟨.inl (kept_endRun _ s).txr, .inl (kept_endRun _ s).rxr⟩
    · obtain rfl := Host.Outcome.next.inj ((exec_ownedTx ipcs l4cs tso d s).symm.trans h)
      obtain hsame | ⟨htxr, hrxr⟩ := rings_txDescriptor ipcs l4cs tso d s
      · exact ⟨.inl hsame.txr, .inl hsame.rxr⟩
      · exact ⟨.inr (.inr ⟨ipcs, l4cs, tso, d, rfl, htxr⟩), .inl hrxr⟩
  | .rxd =>
    cases i with
    | rxdHost d =>
      obtain rfl := Host.Outcome.next.inj h
      exact ⟨.inl (kept_overrun s).txr, .inl (kept_overrun s).rxr⟩
    | rxdFree d =>
      obtain rfl := Host.Outcome.next.inj h
      obtain ⟨htxr, hrxr⟩ := rings_rxDescriptor d s
      exact ⟨.inl htxr, hrxr.imp_right fun ⟨sl, hm, he⟩ => .inr ⟨d, sl, rfl, hm, he⟩⟩
    | _ => cases hi
  | .cmd16 =>
    cases i with
    | softReset arg =>
      obtain rfl := Host.Outcome.next.inj h
      rw [resetTo_eq]
      exact ⟨.inr (.inl ⟨⟨arg, .inr (.inl rfl)⟩, rfl⟩), .inr (.inl ⟨⟨arg, .inr (.inl rfl)⟩, rfl⟩)⟩
    | hardReset arg =>
      obtain rfl := Host.Outcome.next.inj h
      rw [resetTo_eq]
      exact ⟨.inr (.inl ⟨⟨arg, .inr (.inr rfl)⟩, rfl⟩), .inr (.inl ⟨⟨arg, .inr (.inr rfl)⟩, rfl⟩)⟩
    | loadTxRing arg =>
      obtain rfl := Host.Outcome.next.inj h
      exact ⟨.inr (.inl ⟨⟨arg, .inl rfl⟩, rfl⟩), .inl rfl⟩
    | loadRxRing arg =>
      obtain rfl := Host.Outcome.next.inj h
      exact ⟨.inl rfl, .inr (.inl ⟨⟨arg, .inl rfl⟩, rfl⟩)⟩
    | cmdReserved op arg =>
      obtain rfl := Host.Outcome.next.inj h
      exact ⟨.inl rfl, .inl rfl⟩
    | _ => cases hi
  | .regw =>
    have hsame := sameRings_lane hi h
    exact ⟨.inl hsame.txr, .inl hsame.rxr⟩
  | .regr =>
    cases i with
    | regR off n =>
      obtain rfl := Host.Outcome.next.inj h
      exact ⟨.inl rfl, .inl rfl⟩
    | _ => cases hi

/-- What `ProtectedRegisters` says of one step of `i` from `s` to `t`. -/
def GuardedBy (i : Instr) (s t : State) : Prop :=
  t.cfg = s.cfg
    ∧ ((t.eng.macLo ≠ s.eng.macLo ∨ t.eng.macHi ≠ s.eng.macHi) →
        (∃ l v, i = .filterWMac l v) ∨ ∃ arg, i = .hardReset arg)
    ∧ (s.eng.icause &&& ~~~t.eng.icause ≠ 0 →
        (∃ l v, i = .icauseAck l v) ∨ ∃ arg, i = .softReset arg ∨ i = .hardReset arg)

/-- With the station address and the causes kept, there is nothing to show of the row. -/
theorem Protected.guardedBy {i : Instr} {s t : State} (h : Protected s t) : GuardedBy i s t :=
  ⟨h.cfg, fun hm => (hm.elim (· h.macLo) (· h.macHi)).elim, fun hc => (hc (cleared_eq_zero h.icause)).elim⟩

/-- A lane changes the station address only as `FILTER.W.MAC` and clears a cause only as `ICAUSE.ACK`
(`44_register_window.md` R299, `60_exceptions.md` R343). -/
theorem guardedBy_lane {i : Instr} {s t : State} (hi : i.format = .regw) (h : exec i s = .next t) :
    GuardedBy i s t := by
  obtain ⟨e, hexec, hst⟩ := exec_lane_cases i hi s
  obtain rfl := Host.Outcome.next.inj (hexec.symm.trans h)
  have hend := (kept_endLane (afterByte i e s)).toProtected
  refine ⟨hend.cfg, fun hm => .inl (by_contra fun hno => ?_), fun hc => .inl (by_contra fun hno => hc ?_)⟩
  · obtain ⟨hlo, hhi⟩ := hst.mac fun l v he => hno ⟨l, v, he⟩
    exact hm.elim (· (hend.macLo.trans hlo)) (· (hend.macHi.trans hhi))
  · have hic : e.icause = s.eng.icause := hst.icause fun l v he => hno ⟨l, v, he⟩
    rw [← hic]
    exact cleared_eq_zero hend.icause

/-- Settles O59, format by format: a descriptor and a read only raise causes, a lane writes its own register, and
among the commands the resets alone touch a protected register. -/
theorem protectedRegisters : Obligations.ProtectedRegisters := by
  intro i s t h
  show GuardedBy i s t
  match hi : i.format with
  | .txd =>
    obtain ⟨_, _, _, _, rfl⟩ | ⟨ipcs, l4cs, tso, d, rfl⟩ := txd_rows hi
    · obtain rfl := Host.Outcome.next.inj h
      exact (kept_endRun _ s).toProtected.guardedBy
    · obtain rfl := Host.Outcome.next.inj ((exec_ownedTx ipcs l4cs tso d s).symm.trans h)
      exact (protected_txDescriptor ipcs l4cs tso d s).guardedBy
  | .rxd =>
    cases i with
    | rxdHost d =>
      obtain rfl := Host.Outcome.next.inj h
      exact (kept_overrun s).toProtected.guardedBy
    | rxdFree d =>
      obtain rfl := Host.Outcome.next.inj h
      exact (protected_rxDescriptor d s).guardedBy
    | _ => cases hi
  | .cmd16 =>
    cases i with
    | softReset arg =>
      obtain rfl := Host.Outcome.next.inj h
      rw [resetTo_eq]
      exact ⟨rfl, fun hm => (hm.elim (· rfl) (· rfl)).elim, fun _ => .inr ⟨arg, .inl rfl⟩⟩
    | hardReset arg =>
      obtain rfl := Host.Outcome.next.inj h
      rw [resetTo_eq]
      exact ⟨rfl, fun _ => .inr ⟨arg, rfl⟩, fun _ => .inr ⟨arg, .inr rfl⟩⟩
    | loadTxRing arg =>
      obtain rfl := Host.Outcome.next.inj h
      exact Protected.guardedBy ⟨rfl, rfl, rfl, icause_kept rfl⟩
    | loadRxRing arg =>
      obtain rfl := Host.Outcome.next.inj h
      exact Protected.guardedBy ⟨rfl, rfl, rfl, icause_kept rfl⟩
    | cmdReserved op arg =>
      obtain rfl := Host.Outcome.next.inj h
      exact (kept_endOp s).toProtected.guardedBy
    | _ => cases hi
  | .regw => exact guardedBy_lane hi h
  | .regr =>
    cases i with
    | regR off n =>
      obtain rfl := Host.Outcome.next.inj h
      exact Protected.guardedBy ⟨rfl, rfl, rfl, icause_kept rfl⟩
    | _ => cases hi

end Sys2Proof.Machine
end

section
/-!
SUPPORT. What every instruction and every step carry along (`Carried`), row by row: the parameters, canonical guest
memory, the answers of the collaborator only used up, and the events only added to.
-/

namespace Sys2Proof.Machine

/-! ## The instructions -/

/-- A turn of the TX loop, wherever it stops (`41_tx_path.md` R176). -/
theorem carried_txDescriptor (ipcs l4cs tso : Bool) (d : TxFields) (s : State) :
    Carried s (txDescriptor ipcs l4cs tso d s) := by
  obtain ⟨_, e⟩ | ⟨_, u, hw, _, e | e⟩ := txDescriptor_outcome ipcs l4cs tso d s <;> rw [e]
  · exact carried_endRun _ s
  · exact hw.carried.trans (carried_endRun _ u)
  · exact hw.carried.trans (carried_txAdvance d u)

/-- A device-owned descriptor of a delivery, whatever it does (`43_rx_filter.md` R269). -/
theorem carried_rxDescriptor (d : RxFields) (s : State) : Carried s (rxDescriptor d s) := by
  obtain ⟨u, hw, _, e | ⟨frames, errors, e⟩⟩ | e | ⟨_, e⟩ := rxDescriptor_outcome d s <;> rw [e]
  · exact hw.carried.engine _ _
  · exact (hw.carried.engine _ _).trans (carried_rxSignal _)
  · exact carried_overrun s
  · exact (Carried.refl s).engine _ _

/-- A reset takes back none of the events (`44_register_window.md` R306, R307). -/
theorem carried_resetTo (e : Engine) (s : State) : Carried s (resetTo e s) :=
  (((Carried.refl s).engine _ _).trans (carried_irqEval _)).engine _ _

theorem carried_exec_cmd {i : Instr} {s t : State} (hi : i.format = .cmd16) (h : exec i s = .next t) :
    Carried s t := by
  cases i with
  | softReset arg => exact Host.Outcome.next.inj h ▸ carried_resetTo _ s
  | hardReset arg => exact Host.Outcome.next.inj h ▸ carried_resetTo _ s
  | loadTxRing arg => exact Host.Outcome.next.inj h ▸ (Carried.refl s).engine _ _
  | loadRxRing arg => exact Host.Outcome.next.inj h ▸ (Carried.refl s).engine _ _
  | cmdReserved op arg => exact Host.Outcome.next.inj h ▸ (Carried.refl s).engine _ _
  | _ => cases hi

/-- Every instruction carries the surroundings along, format by format. -/
theorem carried_exec {i : Instr} {s t : State} (h : exec i s = .next t) : Carried s t := by
  match hi : i.format with
  | .txd =>
    obtain ⟨_, _, _, _, rfl⟩ | ⟨ipcs, l4cs, tso, d, rfl⟩ := txd_rows hi
    · obtain rfl := Host.Outcome.next.inj h
      exact carried_endRun _ s
    · obtain rfl := Host.Outcome.next.inj ((exec_ownedTx ipcs l4cs tso d s).symm.trans h)
      exact carried_txDescriptor ipcs l4cs tso d s
  | .rxd =>
    cases i with
    | rxdHost d => exact Host.Outcome.next.inj h ▸ carried_overrun s
    | rxdFree d => exact Host.Outcome.next.inj h ▸ carried_rxDescriptor d s
    | _ => cases hi
  | .cmd16 => exact carried_exec_cmd hi h
  | .regw =>
    obtain ⟨e, hexec, _⟩ := exec_lane_cases i hi s
    obtain rfl := Host.Outcome.next.inj (hexec.symm.trans h)
    exact ((Carried.refl s).engine _ _).trans (carried_endLane (afterByte i e s))
  | .regr =>
    cases i with
    | regR off n => exact Host.Outcome.next.inj h ▸ (Carried.refl s).logEvent _
    | _ => cases hi

/-! ## The steps -/

/-- What `receive` does before its first fetch (`43_rx_filter.md` R269). -/
theorem carried_receive (f : List Byte) (s : State) : Carried s (receive f s) := by
  obtain ⟨_, e⟩ | ⟨_, _, _, e⟩ | ⟨m, _, _, _, e⟩ := receive_cases f s <;> rw [e]
  · exact (Carried.refl s).engine _ _
  · exact carried_overrun s
  · exact (Carried.refl s).engine _ _

/-- What a machine at rest does with the operation presented to it. -/
theorem carried_presentedTo (s : State) (inp : Input) : Carried s (presentedTo s inp) := by
  cases inp with
  | regRead o n => exact (Carried.refl s).logEvent _
  | regWrite o n v => exact (Carried.refl s).engine _ _
  | receive f => exact carried_receive f s
  | canReceive => exact (Carried.refl s).logEvent _
  | guestStore st => exact ⟨rfl, rfl, applyStores_wf _ _, List.suffix_rfl, [], by simp [presentedTo]⟩

/-- A register write with no lane left fires its trigger. -/
theorem step_noLane {s : State} (hp : s.op.phase = .lanes) (hl : s.op.lanes = []) : step s = .next (endLane s) := by
  simp only [step, fetchNext, hp, fetchLane, hl, endLane, if_pos]

/-- A step of an operation in progress carries the surroundings along: the fetch is at most one collaborator call, and
what it finds is an instruction or ends the operation. -/
theorem carried_step {s t : State} (hp : s.op.phase ≠ .idle) (h : step s = .next t) : Carried s t := by
  match hq : s.op.phase with
  | .idle => exact absurd hq hp
  | .lanes =>
    match hl : s.op.lanes with
    | [] => exact Host.Outcome.next.inj ((step_noLane hq hl).symm.trans h) ▸ carried_endLane s
    | (o, b) :: rest =>
      exact ((Carried.refl s).engine _ _).trans (carried_exec ((step_lane s o b rest hq hl).symm.trans h))
  | .command => exact carried_exec ((step_command s hq).symm.trans h)
  | .txRun =>
    have hcall (es : List Event) := carried_afterCall es s
    obtain e | ⟨_, _, _, e⟩ := step_txRun_cases s hq
    · exact Host.Outcome.next.inj (e.symm.trans h) ▸ (hcall _).trans (carried_endRun _ _)
    · exact (hcall _).trans (carried_exec (e.symm.trans h))
  | .rxScan =>
    have hcall (es : List Event) := carried_afterCall es s
    obtain e | e | ⟨d, e⟩ := step_rxScan_cases s hq <;> obtain rfl := Host.Outcome.next.inj (e.symm.trans h)
    · exact (hcall _).trans (carried_overrun _)
    · exact (hcall _).trans (carried_overrun _)
    · exact (hcall _).trans (carried_rxDescriptor d _)

theorem Carried.events_grow {s u : State} (h : Carried s u) : s.events <+: u.events := by
  obtain ⟨es, he⟩ := h.events
  exact ⟨es, he.symm⟩

/-- Settles O12: a step at rest adds what the presented operation puts out, and every other step carries the events
along. -/
theorem eventsOnlyGrow : Obligations.EventsOnlyGrow := by
  intro s t h
  by_cases hp : s.op.phase = .idle
  case neg => exact (carried_step hp h).events_grow
  case pos =>
    match hi : s.inputs with
    | [] => exact Host.Outcome.next.inj ((step_noInput hp hi).symm.trans h) ▸ ⟨[], List.append_nil _⟩
    | inp :: rest =>
      obtain rfl := Host.Outcome.next.inj ((step_input hp hi).symm.trans h)
      exact (carried_presentedTo { s with inputs := rest } inp).events_grow

end Sys2Proof.Machine
end

section
/-!
SUPPORT. Where the engine stores to guest memory: `WritesWithin`, and the addresses each piece of the TX path and of a
delivery can store to (`20_memory.md` R93; `40_ring_and_descriptor.md` R142, R143).
-/

namespace Sys2Proof.Machine

/-! ## Addresses and driver stores -/

/-- Fewer bytes from the same address reach no further. -/
theorem InRange.mono {a : Addr} {m n x : Nat} (h : InRange a m x) (hmn : m ≤ n) : InRange a n x := by
  obtain ⟨i, hi, hx⟩ := h
  exact ⟨i, Nat.lt_of_lt_of_le hi hmn, hx⟩

/-- Stores of the driver leave every byte that none of them names. -/
theorem applyStores_get_other (sts : List Store) (m : Memory) (x : Nat)
    (h : ∀ st ∈ sts, ¬InRange st.addr st.bytes.length x) : (applyStores sts m).get x = m.get x := by
  induction sts generalizing m with
  | nil => rfl
  | cons st sts ih =>
    have hst : (m.writeBytes st.addr.toNat st.bytes).get x = m.get x :=
      Memory.get_writeBytes_other _ _ _ _ fun i hi he => h st List.mem_cons_self ⟨i, hi, he⟩
    exact (ih _ fun st' hm => h st' (List.mem_cons_of_mem _ hm)).trans hst

/-- Before a collaborator call only the driver has stored (`20_memory.md` R86). -/
theorem memAtCall_get_other {s : State} {x : Nat} (h : ¬DriverTouches s x) :
    (memAtCall s.replies s.mem).get x = s.mem.get x := by
  match hr : s.replies with
  | [] => rfl
  | r :: rest =>
    exact applyStores_get_other _ _ _ fun st hst hx => h ⟨r, by rw [hr]; exact List.mem_cons_self, st, hst, hx⟩

/-- `u` comes after `s`, and between them guest memory changes only at the addresses `own` and by driver stores. -/
structure WritesWithin (own : Nat → Prop) (s u : State) : Prop where
  replies : u.replies <:+ s.replies
  mem : ∀ x, u.mem.get x ≠ s.mem.get x → DriverTouches s x ∨ own x

section
variable {own own' : Nat → Prop} {s t u : State}

theorem WritesWithin.mono (h : WritesWithin own s u) (ho : ∀ x, own x → own' x) : WritesWithin own' s u :=
  ⟨h.replies, fun x hx => (h.mem x hx).imp_right (ho x)⟩

/-- What the driver stores behind later calls it stores behind calls to come. -/
theorem WritesWithin.trans (h1 : WritesWithin own s t) (h2 : WritesWithin own t u) : WritesWithin own s u := by
  refine ⟨h2.replies.trans h1.replies, fun x hx => ?_⟩
  by_cases ht : t.mem.get x = s.mem.get x
  · refine (h2.mem x (ht ▸ hx)).imp_left fun ⟨r, hr, hst⟩ => ⟨r, h1.replies.mem hr, hst⟩
  · exact h1.mem x ht

/-- A piece of an operation that leaves guest memory alone. -/
theorem WritesWithin.of_mem (h : Carried s u) (hm : u.mem = s.mem) : WritesWithin own s u :=
  ⟨h.replies, fun x hx => (hx (by rw [hm])).elim⟩

/-- A change of engine or of run-locals stores nothing. -/
theorem WritesWithin.engine (h : WritesWithin own s u) (e : Engine) (o : Op) :
    WritesWithin own s { u with eng := e, op := o } := ⟨h.replies, h.mem⟩

end

/-- A call that stores nothing lets the driver's stores land. -/
theorem writesWithin_afterCall {own : Nat → Prop} (es : List Event) (s : State) :
    WritesWithin own s (afterCall es s) :=
  ⟨List.tail_suffix _, fun _ hx => .inl (by_contra fun hd => hx (memAtCall_get_other hd))⟩

/-- A write call stores to the bytes it names (`20_memory.md` R77). -/
theorem writesWithin_memWrite (a : Addr) (bs : List Byte) (s : State) :
    WritesWithin (InRange a bs.length) s (memWrite a bs s).2 := by
  refine ⟨(carried_memWrite a bs s).replies, fun x hx => or_iff_not_imp_left.mpr fun hd => ?_⟩
  by_contra hout
  exact hx ((memWrite_other a bs s x fun i hi he => hout ⟨i, hi, he⟩).trans (memAtCall_get_other hd))

/-- A writeback stores to word 0 of its descriptor (`40_ring_and_descriptor.md` R143). -/
theorem writesWithin_writeback (a : Addr) (w0 : Word) (s : State) :
    WritesWithin (InRange a 4) s (memWrite a (le32 w0) s).2 := writesWithin_memWrite a (le32 w0) s

/-! ## The ends of operations -/

theorem writesWithin_endRun {own : Nat → Prop} (st : TxState) (s : State) : WritesWithin own s (endRun st s) :=
  .of_mem (carried_endRun st s) (by rw [endRun_eq])

theorem writesWithin_overrun {own : Nat → Prop} (s : State) : WritesWithin own s (overrun s) :=
  .of_mem (carried_overrun s) (by rw [overrun_eq])

theorem writesWithin_rxSignal {own : Nat → Prop} (s : State) : WritesWithin own s (rxSignal s) :=
  .of_mem (carried_rxSignal s) (by rw [rxSignal_eq])

/-! ## The TX path -/

theorem writesWithin_txOpen {own : Nat → Prop} (fs : Bool) (s : State) : WritesWithin own s (txOpen fs s) :=
  .of_mem (txWorked_txOpen fs s).carried (by rw [txOpen_eq])

/-- The copy of a segment reads its buffer and stores nothing (`41_tx_path.md` R169). -/
theorem writesWithin_txCopy {own : Nat → Prop} (d : TxFields) (s : State) : WritesWithin own s (txCopy d s).2 := by
  have hcar := (txWorked_txCopy d s).carried
  obtain ⟨_, e⟩ | ⟨_, _, e⟩ | ⟨_, _, e⟩ | ⟨_, _, _, ⟨bs, _, _, e⟩ | ⟨_, e⟩⟩ := txCopy_cases d s
  · exact .of_mem hcar (by rw [e])
  · exact .of_mem hcar (by rw [e])
  · exact .of_mem hcar (by rw [e])
  · rw [e]; exact (writesWithin_afterCall _ s).engine _ _
  · rw [e]; exact writesWithin_afterCall _ s

theorem writesWithin_txFinish {own : Nat → Prop} (ls flag : Bool) (oc : OffloadCtx) (s : State) :
    WritesWithin own s (txFinish ls flag oc s).2 := by
  refine .of_mem (txWorked_txFinish ls flag oc s).carried ?_
  obtain ⟨_, e⟩ | ⟨_, _, e⟩ | ⟨_, _, _, _, e⟩ | ⟨_, _, _, e⟩ := txFinish_cases ls flag oc s <;> rw [e]

theorem writesWithin_txAdvance {own : Nat → Prop} (d : TxFields) (s : State) : WritesWithin own s (txAdvance d s) := by
  refine .of_mem (carried_txAdvance d s) ?_
  rw [txAdvance_eq]
  split <;> rfl

/-- Behind the writeback nothing is stored any more (`41_tx_path.md` R172). -/
theorem writesWithin_txComplete (a : Addr) (w0 st : Word) (d : TxFields) (s : State) :
    WritesWithin (InRange a 4) s (txComplete a w0 st d s) := by
  obtain ⟨u, ⟨hu, _⟩, ⟨_, e⟩ | ⟨_, e⟩⟩ := txComplete_cases a w0 st d s <;> rw [e] <;> subst hu
  · exact (writesWithin_writeback a _ s).trans (writesWithin_txAdvance d _)
  · exact (writesWithin_writeback a _ s).trans (writesWithin_endRun _ _)

/-- A turn of the loop stores to word 0 of the descriptor at the cursor alone (`40_ring_and_descriptor.md` R142). -/
theorem writesWithin_txDescriptor (ipcs l4cs tso : Bool) (d : TxFields) (s : State) :
    WritesWithin (InRange (txSlot s) 4) s (txDescriptor ipcs l4cs tso d s) := by
  obtain ⟨_, e⟩ | ⟨_, _, e⟩ | ⟨_, _, e⟩ := txDescriptor_cases ipcs l4cs tso d s <;> rw [e]
  · exact writesWithin_endRun _ s
  · exact (writesWithin_afterCall _ s).trans (writesWithin_endRun _ _)
  · exact (((writesWithin_txOpen _ s).trans (writesWithin_txCopy d _)).trans (writesWithin_txFinish _ _ _ _)).trans
      (writesWithin_txComplete _ _ _ d _)

/-! ## Deliveries -/

/-- The bytes of a fetched descriptor a delivery may store to: its word 0 and its buffer (`43_rx_filter.md` R267). -/
def RxSlot.Owns (sl : RxSlot) (x : Nat) : Prop := InRange sl.addr 4 x ∨ InRange sl.d.buf sl.d.len.toNat x

/-- The bytes the descriptors of a chain own. -/
def ChainOwns (chain : List RxSlot) (x : Nat) : Prop := ∃ sl ∈ chain, sl.Owns x

theorem writesWithin_rxStore (a : Addr) (bs : List Byte) (s : State) :
    WritesWithin (InRange a bs.length) s (rxStore a bs s).2 := by
  unfold rxStore
  split
  · exact .of_mem (.refl s) rfl
  · exact writesWithin_memWrite a bs s

/-- One element of the write phase stores at most `LEN` bytes of the buffer, then word 0 (`43_rx_filter.md` R267). -/
theorem writesWithin_rxWriteSlot (sl : RxSlot) (first last : Bool) (rest : List Byte) (s : State) :
    WritesWithin sl.Owns s (rxWriteSlot sl first last rest s).2 := by
  have hbuf : WritesWithin sl.Owns s (rxStore sl.d.buf (rest.take sl.d.len.toNat) s).2 :=
    (writesWithin_rxStore _ _ s).mono fun _ hx => .inr (hx.mono (List.length_take_le _ _))
  have hword (w0 : Word) (t : State) : WritesWithin sl.Owns t (memWrite sl.addr (le32 w0) t).2 :=
    (writesWithin_writeback _ w0 t).mono fun _ => .inl
  unfold rxWriteSlot writeback
  simp only
  split
  · split
    · exact (hbuf.trans (hword _ _)).engine _ _
    · exact hbuf.trans (hword _ _)
  · exact hbuf

theorem writesWithin_rxWriteChain (chain : List RxSlot) (first : Bool) (rest : List Byte) (s : State) :
    WritesWithin (ChainOwns chain) s (rxWriteChain chain first rest s).2 := by
  induction chain generalizing first rest s with
  | nil => exact .of_mem (.refl s) rfl
  | cons sl more ih =>
    have hslot := (writesWithin_rxWriteSlot sl first more.isEmpty rest s).mono (own' := ChainOwns (sl :: more))
      fun _ hx => ⟨sl, List.mem_cons_self, hx⟩
    unfold rxWriteChain
    simp only
    split
    · exact hslot.trans ((ih _ _ _).mono fun _ ⟨sl', hm, hx⟩ => ⟨sl', List.mem_cons_of_mem _ hm, hx⟩)
    · exact hslot

/-- The write phase and the completion (`43_rx_filter.md` R267, R268). -/
theorem writesWithin_rxDeliver (chain : List RxSlot) (s : State) :
    WritesWithin (ChainOwns chain) s (rxDeliver chain s) := by
  have hwrites := writesWithin_rxWriteChain chain true s.op.rx.data s
  unfold rxDeliver
  simp only
  split
  · exact (hwrites.engine _ _).trans (writesWithin_rxSignal _)
  · exact hwrites.engine _ _

/-- The oversize drop stores to word 0 of the descriptor just fetched (`43_rx_filter.md` R264). -/
theorem writesWithin_rxOversize (d : RxFields) (s : State) :
    WritesWithin (InRange (slotAddr s.eng.rxr s.op.rx.next) 4) s (rxOversize d s) := by
  obtain ⟨u, ⟨hu, _⟩, e | e⟩ := rxOversize_cases d s <;> rw [e] <;> subst hu
  · exact (writesWithin_writeback _ _ s).engine _ _
  · exact ((writesWithin_writeback _ _ s).engine _ _).trans (writesWithin_rxSignal _)

/-- A descriptor of a delivery stores to what the fetched descriptors own (`40_ring_and_descriptor.md` R142). -/
theorem writesWithin_rxDescriptor (d : RxFields) (s : State) :
    WritesWithin (ChainOwns (fetchedChain s d)) s (rxDescriptor d s) := by
  unfold rxDescriptor
  split
  · exact (writesWithin_rxOversize d s).mono fun _ hx => ⟨_, fetchedSlot_mem d s, .inl hx⟩
  · obtain ⟨_, e⟩ | ⟨_, _, e⟩ | ⟨_, _, e⟩ := rxExtend_cases d s <;> rw [e]
    · exact writesWithin_rxDeliver (fetchedChain s d) s
    · exact writesWithin_overrun s
    · exact .of_mem ((Carried.refl s).engine _ _) rfl

end Sys2Proof.Machine
end

section
/-!
What the rows of the opcode table can store to guest memory (`20_memory.md` R93; `40_ring_and_descriptor.md` R142,
R143).
-/

namespace Sys2Proof.Machine

/-- The TX doorbell touches no guest memory before the first fetch of its run (`41_tx_path.md` R161, R162). -/
@[simp] theorem txStart_mem (s : State) : (txStart s).mem = s.mem := by
  cases hen : s.eng.txEn with
  | false => rw [txStart_disabled s hen]; rfl
  | true =>
    by_cases hc : s.eng.txr.cap = 0
    · rw [txStart_noRing s hen hc]
    · rw [txStart_run s hen hc]

/-- What follows a lane touches no guest memory (`44_register_window.md` R293, R294). -/
@[simp] theorem endLane_mem (s : State) : (endLane s).mem = s.mem := by
  by_cases hne : s.op.lanes = []
  case neg => rw [endLane_more s hne]
  case pos =>
    match ht : s.op.trig with
    | none => rw [endLane_plain s hne ht]
    | some .command => rw [endLane_command s hne ht]
    | some .txDoorbell => rw [endLane_txDoorbell s hne ht, txStart_mem]
    | some .rxDoorbell => rw [endLane_rxDoorbell s hne ht]
    | some .irqEval => rw [endLane_irqEval s hne ht]

/-- A lane stores to a register, not to guest memory (`44_register_window.md` R292). -/
theorem exec_lane_mem {i : Instr} {s t : State} (hi : i.format = .regw) (h : exec i s = .next t) : t.mem = s.mem := by
  obtain ⟨e, hexec, _⟩ := exec_lane_cases i hi s
  obtain rfl := Host.Outcome.next.inj (hexec.symm.trans h)
  exact endLane_mem (afterByte i e s)

/-- A command touches no guest memory (`70_reset_and_hazards.md` R382). -/
theorem exec_cmd_mem {i : Instr} {s t : State} (hi : i.format = .cmd16) (h : exec i s = .next t) : t.mem = s.mem := by
  cases i with
  | softReset arg => obtain rfl := Host.Outcome.next.inj h; rw [resetTo_eq]
  | hardReset arg => obtain rfl := Host.Outcome.next.inj h; rw [resetTo_eq]
  | loadTxRing arg => obtain rfl := Host.Outcome.next.inj h; rfl
  | loadRxRing arg => obtain rfl := Host.Outcome.next.inj h; rfl
  | cmdReserved op arg => obtain rfl := Host.Outcome.next.inj h; rfl
  | _ => cases hi

/-- The addresses the instruction `i` may store to in the state `s` (`20_memory.md` R93). -/
def OwnedBy (i : Instr) (s : State) (x : Nat) : Prop :=
  (∃ ipcs l4cs tso d, i = ownedTx ipcs l4cs tso d ∧ InRange (txSlot s) 4 x)
    ∨ ∃ d sl, i = .rxdFree d ∧ sl ∈ fetchedChain s d ∧ sl.Owns x

/-- Format by format: a device-owned TX row stores to its own descriptor, a device-owned RX row to the chain it has
fetched, and no other row stores. -/
theorem writesWithin_exec {i : Instr} {s t : State} (h : exec i s = .next t) : WritesWithin (OwnedBy i s) s t := by
  match hi : i.format with
  | .txd =>
    obtain ⟨_, _, _, _, rfl⟩ | ⟨ipcs, l4cs, tso, d, rfl⟩ := txd_rows hi
    · obtain rfl := Host.Outcome.next.inj h
      exact writesWithin_endRun _ s
    · obtain rfl := Host.Outcome.next.inj ((exec_ownedTx ipcs l4cs tso d s).symm.trans h)
      exact (writesWithin_txDescriptor ipcs l4cs tso d s).mono fun _ hx => .inl ⟨ipcs, l4cs, tso, d, rfl, hx⟩
  | .rxd =>
    cases i with
    | rxdHost d =>
      obtain rfl := Host.Outcome.next.inj h
      exact writesWithin_overrun s
    | rxdFree d =>
      obtain rfl := Host.Outcome.next.inj h
      exact (writesWithin_rxDescriptor d s).mono fun _ ⟨sl, hm, hx⟩ => .inr ⟨d, sl, rfl, hm, hx⟩
    | _ => cases hi
  | .cmd16 => exact .of_mem (carried_exec h) (exec_cmd_mem hi h)
  | .regw => exact .of_mem (carried_exec h) (exec_lane_mem hi h)
  | .regr =>
    cases i with
    | regR off n =>
      obtain rfl := Host.Outcome.next.inj h
      exact .of_mem ((Carried.refl s).logEvent _) rfl
    | _ => cases hi

/-- Settles O57: a changed byte lies where the driver stores or where the instruction may store. -/
theorem engineWritesOnlyWhatItOwns : Obligations.EngineWritesOnlyWhatItOwns :=
  fun _ _ _ x h hx => (writesWithin_exec h).mem x hx

end Sys2Proof.Machine
end

section
/-!
SUPPORT. Words within a byte sequence: what `LE32` reads is what `le32` writes there, and the number it stands for
(`00_scope.md` R10).
-/

namespace Sys2Proof

/-- `le32` undoes `LE32` (`00_scope.md` R10). -/
theorem le32_le32At (bs : List Byte) (k : Nat) :
    le32 (le32At bs k) = [byteAt bs k, byteAt bs (k + 1), byteAt bs (k + 2), byteAt bs (k + 3)] := by
  simp (disch := decide) only [le32, le32At, BitVec.extractLsb'_append_eq_of_le, BitVec.extractLsb'_append_eq_right,
    Nat.reduceSub, BitVec.extractLsb'_eq_self]

/-- A byte sequence goes on with the four bytes of the word at its place. -/
theorem drop_eq_le32_append (bs : List Byte) (k : Nat) (h : k + 4 ≤ bs.length) :
    bs.drop k = le32 (le32At bs k) ++ bs.drop (k + 4) := by
  have byte (j : Nat) (hj : j < bs.length) : bs.drop j = byteAt bs j :: bs.drop (j + 1) := by
    rw [Machine.byteAt_getElem bs j hj, List.drop_eq_getElem_cons hj]
  rw [le32_le32At, byte k (by omega), byte (k + 1) (by omega), byte (k + 2) (by omega), byte (k + 3) (by omega)]
  rfl

/-- The 32 bytes of a descriptor are its eight words (`30_encoding.md` R109). -/
theorem eq_words {bs : List Byte} (h : bs.length = 32) :
    bs = le32 (le32At bs 0) ++ (le32 (le32At bs 4) ++ (le32 (le32At bs 8) ++ (le32 (le32At bs 12)
      ++ (le32 (le32At bs 16) ++ (le32 (le32At bs 20) ++ (le32 (le32At bs 24) ++ le32 (le32At bs 28))))))) := by
  have last : bs.drop 32 = [] := List.drop_eq_nil_of_le h.le
  calc bs = bs.drop 0 := rfl
    _ = _ := by
      rw [drop_eq_le32_append bs 0 (by omega), drop_eq_le32_append bs 4 (by omega),
        drop_eq_le32_append bs 8 (by omega), drop_eq_le32_append bs 12 (by omega),
        drop_eq_le32_append bs 16 (by omega), drop_eq_le32_append bs 20 (by omega),
        drop_eq_le32_append bs 24 (by omega), drop_eq_le32_append bs 28 (by omega), last, List.append_nil]

/-- A concatenation as a number. -/
theorem toNat_append_eq {m n : Nat} (x : BitVec m) (y : BitVec n) : (x ++ y).toNat = y.toNat + 2 ^ n * x.toNat := by
  rw [BitVec.toNat_append, Nat.shiftLeft_eq, Nat.mul_comm, ← Nat.two_pow_add_eq_or_of_lt y.isLt, Nat.add_comm]

/-- `LE32` as a number (`00_scope.md` R10). -/
theorem toNat_le32At (bs : List Byte) (k : Nat) :
    (le32At bs k).toNat = (byteAt bs k).toNat + 2 ^ 8 * (byteAt bs (k + 1)).toNat
      + 2 ^ 16 * (byteAt bs (k + 2)).toNat + 2 ^ 24 * (byteAt bs (k + 3)).toNat := by
  simp only [le32At, toNat_append_eq]
  omega

/-- A bit as a range of one bit. -/
theorem ofBool_getLsbD (w : Word) (i : Nat) : BitVec.ofBool (w.getLsbD i) = w.extractLsb' i 1 := by
  apply BitVec.eq_of_getLsbD_eq
  intro j hj
  obtain rfl : j = 0 := by omega
  simp

/-- A bit of the high part of a concatenation. -/
theorem getLsbD_append_of_le {m n i : Nat} {x : BitVec m} {y : BitVec n} (h : n ≤ i) :
    (x ++ y).getLsbD i = x.getLsbD (i - n) := by
  rw [BitVec.getLsbD_append, if_neg (by omega)]

/-- The lowest bit of a concatenation that ends with a single bit. -/
theorem getLsbD_append_ofBool {m : Nat} (x : BitVec m) (b : Bool) : (x ++ BitVec.ofBool b).getLsbD 0 = b := by
  rw [BitVec.getLsbD_append, if_pos Nat.one_pos]
  simp

/-- A bit range as a number. -/
theorem toNat_extract {n : Nat} (w : BitVec n) (start len : Nat) :
    (w.extractLsb' start len).toNat = w.toNat / 2 ^ start % 2 ^ len := by
  rw [BitVec.extractLsb'_toNat, Nat.shiftRight_eq_div_pow]

end Sys2Proof
end

section
/-!
SUPPORT. The two descriptor formats (`30_encoding.md` R101, R106, R109): fields and words determine each other.
-/

namespace Sys2Proof

/-! ## Word 0 -/

/-- Word 0 of a TX descriptor is put together from the bits its fields are read from (`30_encoding.md` R101). -/
theorem txWord0_decodeTxFields (bs : List Byte) :
    txWord0 ((le32At bs 0).getLsbD 31) ((le32At bs 0).getLsbD 26) ((le32At bs 0).getLsbD 25)
      ((le32At bs 0).getLsbD 24) (decodeTxFields bs) = le32At bs 0 := by
  simp (disch := decide) only [txWord0, decodeTxFields, ofBool_getLsbD,
    BitVec.extractLsb'_append_extractLsb'_eq_extractLsb']
  exact BitVec.extractLsb'_eq_self

/-- Word 0 of an RX descriptor is put together from the bits its fields are read from (`30_encoding.md` R106). -/
theorem rxWord0_decodeRxFields (bs : List Byte) :
    rxWord0 ((le32At bs 0).getLsbD 31) (decodeRxFields bs) = le32At bs 0 := by
  simp (disch := decide) only [rxWord0, decodeRxFields, ofBool_getLsbD,
    BitVec.extractLsb'_append_extractLsb'_eq_extractLsb']
  exact BitVec.extractLsb'_eq_self

/-- The bits of word 0 that select the TX row are the ones put there (`30_encoding.md` R101, R119). -/
theorem getLsbD_txWord0 (own ipcs l4cs tso : Bool) (d : TxFields) :
    (txWord0 own ipcs l4cs tso d).getLsbD 31 = own ∧ (txWord0 own ipcs l4cs tso d).getLsbD 26 = ipcs
      ∧ (txWord0 own ipcs l4cs tso d).getLsbD 25 = l4cs ∧ (txWord0 own ipcs l4cs tso d).getLsbD 24 = tso := by
  simp (disch := decide) only [txWord0, getLsbD_append_of_le, getLsbD_append_ofBool, Nat.reduceSub]
  cases own <;> decide

/-- The bit of word 0 that selects the RX row is the one put there (`30_encoding.md` R106, R119). -/
theorem getLsbD_rxWord0 (own : Bool) (d : RxFields) : (rxWord0 own d).getLsbD 31 = own := by
  simp (disch := decide) only [rxWord0, getLsbD_append_of_le, Nat.reduceSub]
  cases own <;> decide

/-! ## Fields -/

/-- The operands of an encoded TX descriptor are read back (`30_encoding.md` R101, R109). -/
theorem decodeTxFields_encodeTx (own ipcs l4cs tso : Bool) (d : TxFields) :
    decodeTxFields (encodeTx own ipcs l4cs tso d) = d := by
  have last : le32At (le32 d.w7) 0 = d.w7 := le32At_le32 d.w7 []
  simp only [decodeTxFields, encodeTx, encodeTxTail, List.append_assoc, le32At_le32, le32At_skip, last]
  simp (disch := decide) only [txWord0, wide, getLsbD_append_of_le, getLsbD_append_ofBool,
    BitVec.extractLsb'_append_eq_of_le, BitVec.extractLsb'_append_eq_of_add_le, Nat.reduceSub,
    BitVec.extractLsb'_eq_self, BitVec.extractLsb'_append_extractLsb']

/-- The operands of an encoded RX descriptor are read back (`30_encoding.md` R106, R109). -/
theorem decodeRxFields_encodeRx (own : Bool) (d : RxFields) : decodeRxFields (encodeRx own d) = d := by
  have last : le32At (le32 d.w7) 0 = d.w7 := le32At_le32 d.w7 []
  simp only [decodeRxFields, encodeRx, encodeRxTail, List.append_assoc, le32At_le32, le32At_skip, last]
  simp (disch := decide) only [rxWord0, wide, getLsbD_append_of_le, getLsbD_append_ofBool,
    BitVec.extractLsb'_append_eq_of_le, BitVec.extractLsb'_append_eq_of_add_le, Nat.reduceSub,
    BitVec.extractLsb'_eq_self, BitVec.extractLsb'_append_extractLsb']

/-- The 32 bytes a TX descriptor is decoded from are the encoding of its operands (`30_encoding.md` R101, R109). -/
theorem encodeTx_decodeTxFields {bs : List Byte} (h : bs.length = 32) :
    encodeTx ((le32At bs 0).getLsbD 31) ((le32At bs 0).getLsbD 26) ((le32At bs 0).getLsbD 25)
      ((le32At bs 0).getLsbD 24) (decodeTxFields bs) = bs := by
  rw [encodeTx, txWord0_decodeTxFields]
  conv_rhs => rw [eq_words h]
  simp (disch := decide) only [encodeTxTail, decodeTxFields, List.append_assoc, wide,
    BitVec.extractLsb'_append_eq_left, BitVec.extractLsb'_append_eq_right,
    BitVec.extractLsb'_append_extractLsb'_eq_extractLsb', BitVec.extractLsb'_eq_self]

/-- The 32 bytes an RX descriptor is decoded from are the encoding of its operands (`30_encoding.md` R106, R109). -/
theorem encodeRx_decodeRxFields {bs : List Byte} (h : bs.length = 32) :
    encodeRx ((le32At bs 0).getLsbD 31) (decodeRxFields bs) = bs := by
  rw [encodeRx, rxWord0_decodeRxFields]
  conv_rhs => rw [eq_words h]
  simp only [encodeRxTail, decodeRxFields, List.append_assoc, wide,
    BitVec.extractLsb'_append_eq_left, BitVec.extractLsb'_append_eq_right]

/-! ## Rows -/

/-- Bits 31, 26, 25 and 24 of word 0 choose the TX row (`30_encoding.md` R119). -/
theorem decodeTx_eq (bs : List Byte) :
    decodeTx bs = if (le32At bs 0).getLsbD 31
      then Machine.ownedTx ((le32At bs 0).getLsbD 26) ((le32At bs 0).getLsbD 25) ((le32At bs 0).getLsbD 24)
        (decodeTxFields bs)
      else .txdHost ((le32At bs 0).getLsbD 26) ((le32At bs 0).getLsbD 25) ((le32At bs 0).getLsbD 24)
        (decodeTxFields bs) := by
  simp only [decodeTx]
  generalize (le32At bs 0).getLsbD 26 = ipcs, (le32At bs 0).getLsbD 25 = l4cs, (le32At bs 0).getLsbD 24 = tso
  match tso, ipcs, l4cs with
  | true, _, _ => rfl
  | false, false, false => rfl
  | false, true, false => rfl
  | false, false, true => rfl
  | false, true, true => rfl

/-- The encoding of a device-owned TX row (`30_encoding.md` R119). -/
theorem encode_ownedTx (ipcs l4cs tso : Bool) (d : TxFields) :
    encode (Machine.ownedTx ipcs l4cs tso d) = encodeTx true ipcs l4cs tso d := by
  unfold Machine.ownedTx
  split <;> rfl

theorem wellFormed_ownedTx (ipcs l4cs tso : Bool) (d : TxFields) :
    (Machine.ownedTx ipcs l4cs tso d).WellFormed = true := by
  unfold Machine.ownedTx
  split <;> rfl

/-- An encoded TX descriptor is decoded to the row its offload requests and its owner name. -/
theorem decodeTx_encodeTx (own ipcs l4cs tso : Bool) (d : TxFields) :
    decodeTx (encodeTx own ipcs l4cs tso d)
      = if own then Machine.ownedTx ipcs l4cs tso d else .txdHost ipcs l4cs tso d := by
  obtain ⟨hown, hipcs, hl4cs, htso⟩ := getLsbD_txWord0 own ipcs l4cs tso d
  have hw : le32At (encodeTx own ipcs l4cs tso d) 0 = txWord0 own ipcs l4cs tso d := le32At_le32 _ _
  rw [decodeTx_eq, decodeTxFields_encodeTx, hw, hown, hipcs, hl4cs, htso]

/-- An encoded RX descriptor is decoded to the row its owner names. -/
theorem decodeRx_encodeRx (own : Bool) (d : RxFields) :
    decodeRx (encodeRx own d) = if own then .rxdFree d else .rxdHost d := by
  have hw : le32At (encodeRx own d) 0 = rxWord0 own d := le32At_le32 _ _
  rw [decodeRx, decodeRxFields_encodeRx, hw, getLsbD_rxWord0]

/-- What 32 bytes decode to as a TX descriptor is encoded as these bytes. -/
theorem encode_decodeTx {bs : List Byte} (h : bs.length = 32) : encode (decodeTx bs) = bs := by
  have he := encodeTx_decodeTxFields h
  rw [decodeTx_eq]
  split
  next hown => rw [encode_ownedTx]; rwa [hown] at he
  next hown => rw [Bool.not_eq_true] at hown; rwa [hown] at he

/-- What 32 bytes decode to as an RX descriptor is encoded as these bytes. -/
theorem encode_decodeRx {bs : List Byte} (h : bs.length = 32) : encode (decodeRx bs) = bs := by
  have he := encodeRx_decodeRxFields h
  rw [decodeRx]
  split
  next hown => rwa [hown] at he
  next hown => rw [Bool.not_eq_true] at hown; rwa [hown] at he

end Sys2Proof
end

section
/-!
SUPPORT. Commands, lanes of register writes and register reads (`30_encoding.md` R111, R112, R119): each operand and
its bytes determine each other, and the two default rows take what the other rows leave.
-/

namespace Sys2Proof

/-! ## Commands -/

/-- Bytes that both outcomes of a row's test are encoded as. -/
theorem encode_ite {c : Prop} [Decidable c] {i j : Instr} {bs : List Byte} (hi : c → encode i = bs)
    (hj : ¬c → encode j = bs) : encode (if c then i else j) = bs :=
  iteInduction (motive := fun r => encode r = bs) hi hj

/-- An instruction that both outcomes of a row's test leave well-formed. -/
theorem wellFormed_ite {c : Prop} [Decidable c] {i j : Instr} (hi : i.WellFormed = true)
    (hj : ¬c → j.WellFormed = true) : (if c then i else j).WellFormed = true :=
  iteInduction (motive := fun r : Instr => r.WellFormed = true) (fun _ => hi) hj

/-- What an opcode and its argument decode to is encoded as these bytes (`30_encoding.md` R111). -/
theorem encode_decodeCmd (op arg : Byte) : encode (decodeCmd op arg) = [arg, op] :=
  encode_ite (fun h => h ▸ rfl) fun _ => encode_ite (fun h => h ▸ rfl) fun _ =>
    encode_ite (fun h => h ▸ rfl) fun _ => encode_ite (fun h => h ▸ rfl) fun _ => rfl

/-- A reserved command has an opcode of no other row (`30_encoding.md` R111). -/
theorem wellFormed_decodeCmd (op arg : Byte) : (decodeCmd op arg).WellFormed = true :=
  wellFormed_ite rfl fun h01 => wellFormed_ite rfl fun h02 => wellFormed_ite rfl fun h10 =>
    wellFormed_ite rfl fun h11 => by
      simp only [Instr.WellFormed, definedOpcode, beq_false_of_ne h01, beq_false_of_ne h02, beq_false_of_ne h10,
        beq_false_of_ne h11, Bool.or_self, Bool.not_false]

/-- An opcode of no other row is a reserved command (`30_encoding.md` R111). -/
theorem decodeCmd_reserved {op : Byte} (h : definedOpcode op = false) (arg : Byte) :
    decodeCmd op arg = .cmdReserved op arg := by
  simp only [definedOpcode, Bool.or_eq_false_iff, beq_eq_false_iff_ne] at h
  obtain ⟨⟨⟨h01, h02⟩, h10⟩, h11⟩ := h
  rw [decodeCmd, if_neg h01, if_neg h02, if_neg h10, if_neg h11]

/-! ## Lanes -/

/-- An offset whose upper bits are `hi` is `hi` and its lower bits: the lanes of one register lie in a block
(`10_state.md` R30). -/
theorem append_extract_of_mask {m n : Nat} {hi : BitVec m} {o : BitVec (m + n)}
    (h : o &&& (BitVec.allOnes m ++ 0#n) = hi ++ 0#n) : hi ++ o.extractLsb' 0 n = o := by
  have split : o.extractLsb' n m ++ o.extractLsb' 0 n = o := BitVec.extractLsb'_append_extractLsb'
  rw [← split, BitVec.and_append, BitVec.and_allOnes, BitVec.and_zero, BitVec.append_left_inj] at h
  rw [← h, split]

/-- A lane of a 4-byte register, from the test of its row (`30_encoding.md` R112). -/
theorem lane_of_mask4 (hi : BitVec 6) {o : Byte} (v : Byte) (h : o &&& 0xFC = hi ++ 0#2) :
    [hi ++ o.extractLsb' 0 2, v] = [o, v] :=
  congrArg (fun p => [p, v]) (append_extract_of_mask h)

/-- A lane of an 8-byte register, from the test of its row (`30_encoding.md` R112). -/
theorem lane_of_mask8 (hi : BitVec 5) {o : Byte} (v : Byte) (h : o &&& 0xF8 = hi ++ 0#3) :
    [hi ++ o.extractLsb' 0 3, v] = [o, v] :=
  congrArg (fun p => [p, v]) (append_extract_of_mask h)

/-- What a lane decodes to is encoded as its offset and its byte (`30_encoding.md` R112, R119). -/
theorem encode_decodeLane (o v : Byte) : encode (decodeLane o v) = [o, v] :=
  encode_ite (lane_of_mask4 0b000001 v) fun _ =>
    encode_ite (fun h => h ▸ rfl) fun _ => encode_ite (fun h => h ▸ rfl) fun _ =>
    encode_ite (lane_of_mask4 0b000100 v) fun _ => encode_ite (lane_of_mask4 0b000101 v) fun _ =>
    encode_ite (lane_of_mask8 0b00100 v) fun _ => encode_ite (lane_of_mask4 0b001010 v) fun _ =>
    encode_ite (lane_of_mask8 0b00110 v) fun _ => encode_ite (lane_of_mask4 0b001110 v) fun _ =>
    encode_ite (fun h => h ▸ rfl) fun _ => encode_ite (fun h => h ▸ rfl) fun _ =>
    encode_ite (lane_of_mask8 0b01001 v) fun _ => encode_ite (lane_of_mask8 0b01010 v) fun _ =>
    encode_ite (lane_of_mask4 0b010110 v) fun _ => rfl

/-- The claimed lanes are those some row's test accepts (`30_encoding.md` R112, R119). -/
theorem claimedLane_iff : ∀ o : Byte, claimedLane o = true ↔
    o &&& 0xFC = 0x04 ∨ o = 0x08 ∨ o = 0x09 ∨ o &&& 0xFC = 0x10 ∨ o &&& 0xFC = 0x14 ∨ o &&& 0xF8 = 0x20
      ∨ o &&& 0xFC = 0x28 ∨ o &&& 0xF8 = 0x30 ∨ o &&& 0xFC = 0x38 ∨ o = 0x40 ∨ o = 0x44 ∨ o &&& 0xF8 = 0x48
      ∨ o &&& 0xF8 = 0x50 ∨ o &&& 0xFC = 0x58 := by decide +kernel

/-- A lane no other row claims has the default row (`30_encoding.md` R119). -/
theorem decodeLane_unclaimed {o : Byte} (h : claimedLane o = false) (v : Byte) : decodeLane o v = .regwNone o v := by
  have hrows := (claimedLane_iff o).not.mp (by simp [h])
  simp only [not_or] at hrows
  simp only [decodeLane, hrows, if_false]

/-- The default row of a lane names a lane no other row claims (`30_encoding.md` R119). -/
theorem wellFormed_decodeLane (o v : Byte) : (decodeLane o v).WellFormed = true := by
  cases hc : claimedLane o with
  | false => simp only [decodeLane_unclaimed hc, Instr.WellFormed, hc, Bool.not_false]
  | true =>
    have hrows := (claimedLane_iff o).mp hc
    exact wellFormed_ite rfl fun h04 => wellFormed_ite rfl fun h08 => wellFormed_ite rfl fun h09 =>
      wellFormed_ite rfl fun h10 => wellFormed_ite rfl fun h14 => wellFormed_ite rfl fun h20 =>
      wellFormed_ite rfl fun h28 => wellFormed_ite rfl fun h30 => wellFormed_ite rfl fun h38 =>
      wellFormed_ite rfl fun h40 => wellFormed_ite rfl fun h44 => wellFormed_ite rfl fun h48 =>
      wellFormed_ite rfl fun h50 => wellFormed_ite rfl fun h58 => by
        simp only [h04, h08, h09, h10, h14, h20, h28, h30, h38, h40, h44, h48, h50, h58, or_self] at hrows

/-- A row of a 4-byte register takes each lane of it (`30_encoding.md` R112). -/
theorem decode_lane4 (hi : BitVec 6) (v : Byte) (row : BitVec 2 → Byte → Instr)
    (h0 : decodeLane (hi ++ 0#2) v = row 0 v) (h1 : decodeLane (hi ++ 1#2) v = row 1 v)
    (h2 : decodeLane (hi ++ 2#2) v = row 2 v) (h3 : decodeLane (hi ++ 3#2) v = row 3 v) (lane : BitVec 2) :
    decode .regw [hi ++ lane, v] = .ok (row lane v) := by
  have lanes : ∀ l : BitVec 2, l = 0 ∨ l = 1 ∨ l = 2 ∨ l = 3 := by decide
  refine congrArg Except.ok ?_
  obtain rfl | rfl | rfl | rfl := lanes lane <;> assumption

/-- A row of an 8-byte register takes each lane of it (`30_encoding.md` R112). -/
theorem decode_lane8 (hi : BitVec 5) (v : Byte) (row : BitVec 3 → Byte → Instr)
    (h0 : decodeLane (hi ++ 0#3) v = row 0 v) (h1 : decodeLane (hi ++ 1#3) v = row 1 v)
    (h2 : decodeLane (hi ++ 2#3) v = row 2 v) (h3 : decodeLane (hi ++ 3#3) v = row 3 v)
    (h4 : decodeLane (hi ++ 4#3) v = row 4 v) (h5 : decodeLane (hi ++ 5#3) v = row 5 v)
    (h6 : decodeLane (hi ++ 6#3) v = row 6 v) (h7 : decodeLane (hi ++ 7#3) v = row 7 v) (lane : BitVec 3) :
    decode .regw [hi ++ lane, v] = .ok (row lane v) := by
  have lanes : ∀ l : BitVec 3, l = 0 ∨ l = 1 ∨ l = 2 ∨ l = 3 ∨ l = 4 ∨ l = 5 ∨ l = 6 ∨ l = 7 := by decide
  refine congrArg Except.ok ?_
  obtain rfl | rfl | rfl | rfl | rfl | rfl | rfl | rfl := lanes lane <;> assumption

/-- The encoding of a well-formed row of a lane decodes to the row (`30_encoding.md` R112, R119). -/
theorem decode_encode_regw {i : Instr} (hf : i.format = .regw) (hw : i.WellFormed = true) :
    decode .regw (encode i) = .ok i := by
  cases i with
  | ctrlW lane v => exact decode_lane4 0b000001 v .ctrlW rfl rfl rfl rfl lane
  | cmdStore v => exact congrArg Except.ok (rfl : decodeLane 0x08 v = _)
  | cmdX v => exact congrArg Except.ok (rfl : decodeLane 0x09 v = _)
  | icauseAck lane v => exact decode_lane4 0b000100 v .icauseAck rfl rfl rfl rfl lane
  | imaskW lane v => exact decode_lane4 0b000101 v .imaskW rfl rfl rfl rfl lane
  | ringStageTxBase lane v => exact decode_lane8 0b00100 v .ringStageTxBase rfl rfl rfl rfl rfl rfl rfl rfl lane
  | ringStageTxLen lane v => exact decode_lane4 0b001010 v .ringStageTxLen rfl rfl rfl rfl lane
  | ringStageRxBase lane v => exact decode_lane8 0b00110 v .ringStageRxBase rfl rfl rfl rfl rfl rfl rfl rfl lane
  | ringStageRxLen lane v => exact decode_lane4 0b001110 v .ringStageRxLen rfl rfl rfl rfl lane
  | txDbW v => exact congrArg Except.ok (rfl : decodeLane 0x40 v = _)
  | rxDbW v => exact congrArg Except.ok (rfl : decodeLane 0x44 v = _)
  | filterWMac lane v => exact decode_lane8 0b01001 v .filterWMac rfl rfl rfl rfl rfl rfl rfl rfl lane
  | filterWMhash lane v => exact decode_lane8 0b01010 v .filterWMhash rfl rfl rfl rfl rfl rfl rfl rfl lane
  | filterWRxFilter lane v => exact decode_lane4 0b010110 v .filterWRxFilter rfl rfl rfl rfl lane
  | regwNone off v =>
    have hu : claimedLane off = false := by simpa [Instr.WellFormed] using hw
    exact congrArg Except.ok (decodeLane_unclaimed hu v)
  | _ => cases hf

end Sys2Proof
end

section
/-!
The encodings: decoder and encoder undo each other in every format, the fields of a descriptor as numbers, and the
instruction a step runs (`30_encoding.md` R100, R109, R119).
-/

namespace Sys2Proof.Machine

/-! ## The decoder, format by format -/

theorem decode_txd {bs : List Byte} (h : bs.length = 32) : decode .txd bs = .ok (decodeTx bs) := if_pos h

theorem decode_rxd {bs : List Byte} (h : bs.length = 32) : decode .rxd bs = .ok (decodeRx bs) := if_pos h

theorem decode_cmd16 (op arg : Byte) : decode .cmd16 [arg, op] = .ok (decodeCmd op arg) := rfl

theorem decode_regw (o v : Byte) : decode .regw [o, v] = .ok (decodeLane o v) := rfl

/-- Only bytes of its format's length decode (`30_encoding.md` R100). -/
theorem length_of_decode {fmt : Format} {bs : List Byte} {i : Instr} (h : decode fmt bs = .ok i) :
    bs.length = formatBytes fmt := by
  by_contra hl
  unfold decode at h
  rw [if_neg hl] at h
  cases h

/-- The code of the size a code names is that code (assumption log 6). -/
theorem encodeSize_of_decodeSize {c : Byte} {n : AccessSize} (h : decodeSize c = some n) : encodeSize n = c := by
  unfold decodeSize at h
  split_ifs at h with h0 h1 h2
  · obtain rfl := Option.some.inj h; exact h0.symm
  · obtain rfl := Option.some.inj h; exact h1.symm
  · obtain rfl := Option.some.inj h; exact h2.symm

/-- What decodes as a register read is a read at its offset, with the size its code names (assumption log 6). -/
theorem regr_of_decode {o c : Byte} {i : Instr} (h : decode .regr [o, c] = .ok i) :
    ∃ n, i = .regR o n ∧ encodeSize n = c := by
  unfold decode at h
  have hl : [o, c].length = formatBytes .regr := rfl
  rw [if_pos hl] at h
  dsimp only at h
  split at h
  next n hn => exact ⟨n, (Except.ok.inj h).symm, encodeSize_of_decodeSize hn⟩
  next => cases h

/-! ## Decoding an encoding -/

theorem decode_encode_txd {i : Instr} (hf : i.format = .txd) : decode .txd (encode i) = .ok i := by
  obtain ⟨ipcs, l4cs, tso, d, rfl⟩ | ⟨ipcs, l4cs, tso, d, rfl⟩ := txd_rows hf
  · exact (decode_txd (length_encodeTx ..)).trans (congrArg Except.ok (decodeTx_encodeTx false ipcs l4cs tso d))
  · rw [encode_ownedTx, decode_txd (length_encodeTx ..), decodeTx_encodeTx, if_pos rfl]

theorem decode_encode_rxd {i : Instr} (hf : i.format = .rxd) : decode .rxd (encode i) = .ok i := by
  cases i with
  | rxdHost d => exact (decode_rxd (length_encodeRx ..)).trans (congrArg Except.ok (decodeRx_encodeRx false d))
  | rxdFree d => exact (decode_rxd (length_encodeRx ..)).trans (congrArg Except.ok (decodeRx_encodeRx true d))
  | _ => cases hf

theorem decode_encode_cmd16 {i : Instr} (hf : i.format = .cmd16) (hw : i.WellFormed = true) :
    decode .cmd16 (encode i) = .ok i := by
  cases i with
  | softReset arg => rfl
  | hardReset arg => rfl
  | loadTxRing arg => rfl
  | loadRxRing arg => rfl
  | cmdReserved op arg =>
    have hu : definedOpcode op = false := by simpa [Instr.WellFormed] using hw
    exact congrArg Except.ok (decodeCmd_reserved hu arg)
  | _ => cases hf

/-- Settles O1, format by format. -/
theorem decodeEncodeAgree : Obligations.DecodeEncodeAgree := by
  intro i hw
  match hf : i.format with
  | .txd => exact decode_encode_txd hf
  | .rxd => exact decode_encode_rxd hf
  | .cmd16 => exact decode_encode_cmd16 hf hw
  | .regw => exact decode_encode_regw hf hw
  | .regr =>
    cases i with
    | regR off n => exact decode_regr off n
    | _ => cases hf

/-! ## Encoding what was decoded -/

theorem wellFormed_decodeTx (bs : List Byte) : (decodeTx bs).WellFormed = true := by
  rw [decodeTx_eq]
  exact wellFormed_ite (wellFormed_ownedTx ..) fun _ => rfl

theorem decodeRx_format (bs : List Byte) : (decodeRx bs).format = .rxd := by
  unfold decodeRx
  split <;> rfl

theorem wellFormed_decodeRx (bs : List Byte) : (decodeRx bs).WellFormed = true := wellFormed_ite rfl fun _ => rfl

/-- Settles O2, format by format. -/
theorem encodeDecodeAgree : Obligations.EncodeDecodeAgree := by
  intro fmt bs i h
  have hl := length_of_decode h
  match fmt with
  | .txd =>
    obtain rfl := Except.ok.inj ((decode_txd hl).symm.trans h)
    exact ⟨decodeTx_format bs, wellFormed_decodeTx bs, encode_decodeTx hl⟩
  | .rxd =>
    obtain rfl := Except.ok.inj ((decode_rxd hl).symm.trans h)
    exact ⟨decodeRx_format bs, wellFormed_decodeRx bs, encode_decodeRx hl⟩
  | .cmd16 =>
    obtain ⟨arg, op, rfl⟩ := List.length_eq_two.mp hl
    obtain rfl := Except.ok.inj ((decode_cmd16 op arg).symm.trans h)
    exact ⟨decodeCmd_format op arg, wellFormed_decodeCmd op arg, encode_decodeCmd op arg⟩
  | .regw =>
    obtain ⟨o, v, rfl⟩ := List.length_eq_two.mp hl
    obtain rfl := Except.ok.inj ((decode_regw o v).symm.trans h)
    exact ⟨decodeLane_format o v, wellFormed_decodeLane o v, encode_decodeLane o v⟩
  | .regr =>
    obtain ⟨o, c, rfl⟩ := List.length_eq_two.mp hl
    obtain ⟨n, rfl, hc⟩ := regr_of_decode h
    exact ⟨rfl, rfl, by rw [encode, hc]⟩

/-! ## Descriptor fields as numbers -/

/-- A field that ends at the top of its word needs no cut. -/
theorem toNat_extract_top {n : Nat} (w : BitVec n) {start len : Nat} (h : start + len = n) :
    (w.extractLsb' start len).toNat = w.toNat / 2 ^ start := by
  rw [toNat_extract, Nat.mod_eq_of_lt]
  exact Nat.div_lt_of_lt_mul (by rw [← Nat.pow_add, h]; exact w.isLt)

/-- A field at the bottom of its word. -/
theorem toNat_extract_zero {n : Nat} (w : BitVec n) (len : Nat) : (w.extractLsb' 0 len).toNat = w.toNat % 2 ^ len := by
  rw [toNat_extract, Nat.pow_zero, Nat.div_one]

theorem toNat_wide (hi lo : Word) : (wide hi lo).toNat = hi.toNat * 2 ^ 32 + lo.toNat := by
  rw [wide, toNat_append_eq, Nat.add_comm, Nat.mul_comm]

/-- Settles O3: the fields are bit ranges of the words, and a word as a number is that of its four bytes. -/
theorem descriptorDecode : Obligations.DescriptorDecode := by
  intro bs hl w
  have hw (k : Nat) : w k = (le32At bs (4 * k)).toNat := (toNat_le32At bs (4 * k)).symm
  have bit (i : Nat) : (w 0).testBit i = (le32At bs 0).getLsbD i := by rw [hw]; rfl
  simp only [bit]
  simp only [hw]
  refine ⟨⟨decodeTxFields bs, ?row, ?word, rfl, rfl, rfl, rfl, rfl, ?len, ?tci, ?mss, ?buf, ?ipStart, ?ipCso, ?l4Start,
    ?l4Cso, ?hdrLen⟩, decodeRxFields bs, ?rxRow, ?rxWord, rfl, ?rxLen, ?rxBuf⟩
  case row => rw [decode_txd hl, decodeTx_eq]
  case word => rw [txWord0_decodeTxFields]
  case rxRow => rw [decode_rxd hl, decodeRx]
  case rxWord => rw [rxWord0_decodeRxFields]
  case buf | rxBuf => exact toNat_wide _ _
  case len | tci | ipStart | hdrLen | rxLen => exact toNat_extract_zero _ _
  case mss | l4Cso => exact toNat_extract_top _ rfl
  case ipCso | l4Start => exact toNat_extract _ _ _

/-! ## Written words -/

/-- Settles O4, by running the decoder on each. -/
theorem writtenWordsDecode : Obligations.WrittenWordsDecode :=
  ⟨by decide +kernel, by decide +kernel, rfl, rfl, rfl, rfl, rfl, rfl, rfl⟩

/-! ## Steps -/

/-- A step runs what is decoded from the bytes fetched (`30_encoding.md` R100). -/
theorem step_of_fetched {s t : State} {fmt : Format} {bs : List Byte} {i : Instr}
    (hf : fetchNext s = .instr fmt bs t) (hd : decode fmt bs = .ok i) : step s = exec i t := by
  simp only [step, hf, hd]

/-- At rest the register read presented is fetched (`00_scope.md` R12). -/
theorem fetchNext_regRead {s : State} {o : Byte} {n : AccessSize} {rest : List Input} (hp : s.op.phase = .idle)
    (hi : s.inputs = .regRead o n :: rest) :
    fetchNext s = .instr .regr [o, encodeSize n] { s with inputs := rest } := by
  simp only [fetchNext, hp, fetchInput, hi]

/-- In a register write the next lane is fetched (`44_register_window.md` R292). -/
theorem fetchNext_lane {s : State} {o b : Byte} {rest : List (Byte × Byte)} (hp : s.op.phase = .lanes)
    (hl : s.op.lanes = (o, b) :: rest) : fetchNext s = .instr .regw [o, b] { s with op.lanes := rest } := by
  simp only [fetchNext, hp, fetchLane, hl]

/-- The command to execute is the one in `CMD` (`30_encoding.md` R111). -/
theorem fetchNext_command {s : State} (hp : s.op.phase = .command) :
    fetchNext s = .instr .cmd16 (le16 s.eng.cmd) s := by
  simp only [fetchNext, hp]

/-- In a TX run the descriptor at the cursor is fetched (`41_tx_path.md` R164). -/
theorem fetchNext_txRun {s t : State} {bs : List Byte} (hp : s.op.phase = .txRun)
    (hr : memRead (txSlot s) 32 s = (some bs, t)) : fetchNext s = .instr .txd bs t := by
  have hf : fetchSlot s.eng.txr s.eng.txr.idx s = (some bs, t) := hr
  simp only [fetchNext, hp, fetchTx, hf]

/-- In a delivery the descriptor it needs next is fetched (`43_rx_filter.md` R263, R266). -/
theorem fetchNext_rxScan {s t : State} {bs : List Byte} (hp : s.op.phase = .rxScan)
    (hr : memRead (slotAddr s.eng.rxr s.op.rx.next) 32 s = (some bs, t)) : fetchNext s = .instr .rxd bs t := by
  have hf : fetchSlot s.eng.rxr s.op.rx.next s = (some bs, t) := hr
  simp only [fetchNext, hp, fetchRx, hf]

/-- Settles O5: each phase fetches from its place. -/
theorem stepRunsDecodedInstruction : Obligations.StepRunsDecodedInstruction :=
  ⟨fun _ o n _ hp hi => step_of_fetched (fetchNext_regRead hp hi) (decode_regr o n),
    fun _ _ _ _ _ hp hl => step_of_fetched (fetchNext_lane hp hl),
    fun _ _ hp => step_of_fetched (fetchNext_command hp),
    fun _ _ _ _ hp hr => step_of_fetched (fetchNext_txRun hp hr),
    fun _ _ _ _ hp hr => step_of_fetched (fetchNext_rxScan hp hr)⟩

end Sys2Proof.Machine
end

section
/-!
The ring cursor, the descriptor codec and the ownership of a descriptor (`40_ring_and_descriptor.md` R140, R145, R146).
-/

namespace Sys2Proof.Machine

/-! ## Fetch -/

/-- The address of a slot as a number (`20_memory.md` R79). -/
theorem slotAddr_toNat (r : Cursor) (i : Half) :
    (slotAddr r i).toNat = (r.base.toNat + 32 * i.toNat) % 2 ^ 64 := by
  rw [slotAddr, BitVec.toNat_add, BitVec.toNat_ofNat, Nat.add_mod_mod, descStride]

/-- A fetch from plain RAM (`40_ring_and_descriptor.md` R140). -/
theorem fetchSlot_plain (r : Cursor) (i : Half) (s : State) (h : s.replies = []) :
    fetchSlot r i s
      = (some (s.mem.readBytes (slotAddr r i).toNat 32), logEvent (.memRead (slotAddr r i) 32 true) s) :=
  memRead_plain (slotAddr r i) descStride s h

/-- A byte of a sequence read, by its place. -/
theorem getElem?_readBytes (m : Memory) (a : Nat) {n k : Nat} (h : k < n) :
    (m.readBytes a n)[k]? = some (m.get ((a + k) % gpaSpace)) := by
  have hk : k < (m.readBytes a n).length := by rwa [Memory.length_readBytes]
  rw [List.getElem?_eq_getElem hk, Memory.getElem_readBytes]

/-- Settles O6: a fetch is one read, at the slot's address. -/
theorem fetchReadsSlot : Obligations.FetchReadsSlot := by
  intro r i s h
  refine ⟨_, fetchSlot_plain r i s h, slotAddr_toNat r i, Memory.length_readBytes _ _ _, fun k hk => ?_⟩
  rw [getElem?_readBytes _ _ hk, slotAddr_toNat, gpaSpace, Nat.mod_add_mod]

/-! ## Ownership -/

/-- A status sets no bit outside the device-written ones. -/
theorem getLsbD_status {st dev : Word} (h : st &&& ~~~dev = 0) {i : Nat} (hi : i < 32) (hd : dev.getLsbD i = false) :
    st.getLsbD i = false := by
  have hbit := congrArg (·.getLsbD i) h
  simpa only [BitVec.getLsbD_and, BitVec.getLsbD_not, hi, hd, decide_true, Bool.not_false, Bool.and_true,
    BitVec.getLsbD_zero, BitVec.ofNat_eq_ofNat] using hbit

/-- A writeback takes the device-written bits from the status and the others from the word (`30_encoding.md` R103,
R107). -/
theorem getLsbD_merged {w st dev : Word} (h : st &&& ~~~dev = 0) {i : Nat} (hi : i < 32) :
    (w &&& ~~~dev ||| st).getLsbD i = if dev.getLsbD i then st.getLsbD i else w.getLsbD i := by
  simp only [BitVec.getLsbD_or, BitVec.getLsbD_and, BitVec.getLsbD_not, hi, decide_true, Bool.true_and]
  cases hd : dev.getLsbD i with
  | true => simp
  | false => simp [getLsbD_status h hi hd]

/-- A writeback leaves the bits of the word the device does not write. -/
theorem merged_and_not {w st dev : Word} (h : st &&& ~~~dev = 0) :
    (w &&& ~~~dev ||| st) &&& ~~~dev = w &&& ~~~dev := by
  refine BitVec.eq_of_getLsbD_eq fun i hi => ?_
  rw [BitVec.getLsbD_and, getLsbD_merged h hi, BitVec.getLsbD_and, BitVec.getLsbD_not]
  cases dev.getLsbD i <;> simp

/-- A writeback leaves the status in the bits the device writes. -/
theorem merged_and {w st dev : Word} (h : st &&& ~~~dev = 0) : (w &&& ~~~dev ||| st) &&& dev = st := by
  refine BitVec.eq_of_getLsbD_eq fun i hi => ?_
  rw [BitVec.getLsbD_and, getLsbD_merged h hi]
  cases hd : dev.getLsbD i with
  | true => simp
  | false => simp [getLsbD_status h hi hd]

/-- A word just stored to plain RAM reads back (`20_memory.md` R75). -/
theorem le32At_readBytes_writeBytes {m : Memory} (a : Nat) (w : Word) (h : m.wf = true) :
    le32At ((m.writeBytes a (le32 w)).readBytes a 4) 0 = w := by
  have hread : (m.writeBytes a (le32 w)).readBytes a 4 = le32 w :=
    Memory.readBytes_writeBytes m a (le32 w) (by simp [gpaSpace]) h
  rw [hread]
  exact le32At_le32 w []

/-- The writeback value of either format (`30_encoding.md` R103, R107). -/
theorem writebackWord_eq {dev : Word} (w0 st : Word) (hdev : dev = 0x807C0000 ∨ dev = 0xB0F3FFFF) :
    (if dev = 0x807C0000 then txWritebackWord w0 st else rxWritebackWord w0 st) = w0 &&& ~~~dev ||| st := by
  obtain rfl | rfl := hdev
  · rw [if_pos rfl]; rfl
  · rw [if_neg (by decide)]; rfl

/-- Settles O36: the store is word 0 alone, and `OWN` is a device-written bit the status has clear. -/
theorem writebackFlipsOwnership : Obligations.WritebackFlipsOwnership := by
  intro s a w0 st dev hwf hplain hdev hst hown w0'
  have hw : w0' = w0 &&& ~~~dev ||| st := writebackWord_eq w0 st hdev
  have howned : dev.getLsbD 31 = true := by obtain rfl | rfl := hdev <;> rfl
  refine ⟨_, memWrite_plain a (le32 w0') s hplain, rfl, rfl, le32At_readBytes_writeBytes _ _ hwf, ?_, ?_, ?_, ?_⟩
  · rw [hw, getLsbD_merged hst (by decide), if_pos howned, hown]
  · rw [hw, merged_and_not hst]
  · rw [hw, merged_and hst]
  · exact fun x hx => Memory.get_writeBytes_other _ _ _ _ fun i hi he => hx ⟨i, hi, he⟩

/-! ## Advance -/

/-- Settles O37. -/
theorem advanceWraps : Obligations.AdvanceWraps := by
  intro r i eor hcap _
  refine ⟨?_, advance_lt r i eor hcap⟩
  cases eor with
  | true => rfl
  | false => exact advance_toNat r i hcap

/-- Settles O38, by induction on the number of advances. -/
theorem advanceIterates : Obligations.AdvanceIterates := by
  intro r start n hcap hstart
  induction n with
  | zero => exact (Nat.mod_eq_of_lt hstart).symm
  | succ n ih => rw [Function.iterate_succ_apply', advance_toNat _ _ hcap, ih, Nat.mod_add_mod, Nat.add_assoc]

end Sys2Proof.Machine
end

section
/-!
SUPPORT. One descriptor of a TX run whose buffer read is answered as plain RAM, in one form at every point of it: what
the framing step, the copy, the closing step and the writeback each make of `afterWork` (`41_tx_path.md` R165 to R172).
-/

namespace Sys2Proof.Machine

/-- What the work on a descriptor leaves before its writeback, after the answers `pre` and before the answers `rest`:
the events `es`, the pending frame `pf` and the two counts. -/
def afterWork (s : State) (pre rest : List Reply) (es : List Event) (pf : PendingFrame) (sent rejected : Nat) : State :=
  { s with
    replies := rest
    mem := driverStores pre s.mem
    events := s.events ++ es
    eng := { s.eng with
      pf := pf
      cntTxFrames := s.eng.cntTxFrames + BitVec.ofNat 32 sent
      cntTxRej := s.eng.cntTxRej + BitVec.ofNat 32 rejected } }

/-! ## The framing step -/

/-- The effective framing bits (`41_tx_path.md` R165). -/
theorem framing_eq (e : Engine) (d : TxFields) :
    framing e d = (if e.txChain then d.fs else true, if e.txChain then d.ls else true) := by
  unfold framing
  split <;> rfl

/-- A first segment, or one that continues a good frame, goes on with a good frame (`41_tx_path.md` R166, R167). -/
theorem openFrame_good {fs : Bool} {pf : PendingFrame} (h : fs = false → pf.isOpen = true ∧ pf.err = none) :
    openFrame fs pf = { isOpen := true, buf := if fs then [] else pf.buf, err := none } := by
  cases fs with
  | true => rfl
  | false =>
    obtain ⟨isOpen, buf, err⟩ := pf
    obtain ⟨rfl, rfl⟩ := h rfl
    rfl

/-- A segment that continues a rejected frame, or no frame, goes on with a rejected one (`41_tx_path.md` R167). -/
theorem openFrame_rejected_err {pf : PendingFrame} {m : ErrMark}
    (h : pf.isOpen = true ∧ pf.err = some m ∨ pf.isOpen = false ∧ m = .seqErr) : (openFrame false pf).err = some m := by
  obtain ⟨ho, he⟩ | ⟨ho, rfl⟩ := h
  · simp only [openFrame, ho, Bool.false_eq_true, if_false, if_true, he]
  · simp only [openFrame, ho, Bool.false_eq_true, if_false]

/-- The framing step counts a discarded frame (`41_tx_path.md` R166). -/
theorem txOpen_afterWork (fs : Bool) (s : State) :
    txOpen fs s = afterWork s [] s.replies [] (openFrame fs s.eng.pf) 0 (if seqFlag fs s.eng.pf then 1 else 0) := by
  rw [txOpen_eq]
  cases seqFlag fs s.eng.pf <;> simp [afterWork, driverStores]

/-! ## The copy -/

section
variable {s : State} {d : TxFields} {pre rest : List Reply} {es : List Event} {pf : PendingFrame}
  {sent rejected : Nat}

/-- A frame in the rejected condition takes no bytes (`41_tx_path.md` R169). -/
theorem txCopy_afterWork_rejected (h : pf.err ≠ none) :
    txCopy d (afterWork s pre rest es pf sent rejected) = (true, afterWork s pre rest es pf sent rejected) :=
  if_pos h

/-- A segment too long for the frame marks it and is not read (`41_tx_path.md` R168). -/
theorem txCopy_afterWork_oversize (hpf : pf.err = none) (hlen : ¬d.len.toNat ≤ s.cfg.maxFrame - pf.buf.length) :
    txCopy d (afterWork s pre rest es pf sent rejected)
      = (true, afterWork s pre rest es { pf with err := some .oversize } sent rejected) :=
  (if_neg (not_not.mpr hpf)).trans (if_pos (Nat.lt_of_not_le hlen))

/-- A segment that fits is appended, with one read unless it is empty (`41_tx_path.md` R169). -/
theorem txCopy_afterWork_fits (hpf : pf.err = none) (hlen : d.len.toNat ≤ s.cfg.maxFrame - pf.buf.length)
    (hpre : pre.map Reply.answer = if d.len = 0 then [] else [.plain]) :
    txCopy d (afterWork s [] (pre ++ rest) [] pf sent rejected)
      = (true, afterWork s pre rest (if d.len = 0 then [] else [.memRead d.buf d.len.toNat true])
          { pf with buf := pf.buf ++ (driverStores pre s.mem).readBytes d.buf.toNat d.len.toNat } sent rejected) := by
  refine (if_neg (not_not.mpr hpf)).trans ((if_neg (Nat.not_lt.mpr hlen)).trans ?_)
  by_cases h0 : d.len = 0
  · rw [if_pos h0] at hpre
    obtain rfl := List.map_eq_nil_iff.mp hpre
    rw [if_pos h0, if_pos h0, h0]
    simp [Memory.readBytes]
  · rw [if_neg h0] at hpre
    obtain ⟨p, rfl, hp⟩ := List.map_eq_singleton_iff.mp hpre
    rw [if_neg h0, if_neg h0]
    obtain ⟨stores, answer⟩ := p
    obtain rfl : answer = .plain := hp
    simp [memRead, takeReply, afterWork, driverStores, logEvent]

/-- The framing step and the copy of a segment that fits a good frame (`41_tx_path.md` R166, R167, R169). -/
theorem txCopy_txOpen_fits {fs : Bool} (hgood : fs = false → s.eng.pf.isOpen = true ∧ s.eng.pf.err = none)
    (hlen : d.len.toNat ≤ s.cfg.maxFrame - (if fs then [] else s.eng.pf.buf).length)
    (hreplies : s.replies = pre ++ rest) (hpre : pre.map Reply.answer = if d.len = 0 then [] else [.plain]) :
    txCopy d (txOpen fs s)
      = (true, afterWork s pre rest (if d.len = 0 then [] else [.memRead d.buf d.len.toNat true])
          { isOpen := true
            buf := (if fs then [] else s.eng.pf.buf)
              ++ (driverStores pre s.mem).readBytes d.buf.toNat d.len.toNat
            err := none }
          0 (if seqFlag fs s.eng.pf then 1 else 0)) := by
  rw [txOpen_afterWork, openFrame_good hgood, hreplies]
  exact txCopy_afterWork_fits rfl hlen hpre

/-- The framing step and the copy of a segment too long for a good frame (`41_tx_path.md` R166 to R168). -/
theorem txCopy_txOpen_oversize {fs : Bool} (hgood : fs = false → s.eng.pf.isOpen = true ∧ s.eng.pf.err = none)
    (hlen : ¬d.len.toNat ≤ s.cfg.maxFrame - (if fs then [] else s.eng.pf.buf).length) :
    txCopy d (txOpen fs s)
      = (true, afterWork s [] s.replies []
          { isOpen := true, buf := if fs then [] else s.eng.pf.buf, err := some .oversize }
          0 (if seqFlag fs s.eng.pf then 1 else 0)) := by
  rw [txOpen_afterWork, openFrame_good hgood]
  exact txCopy_afterWork_oversize rfl hlen

/-- The framing step and the copy of a segment of a frame in the rejected condition (`41_tx_path.md` R167, R169). -/
theorem txCopy_txOpen_rejected {m : ErrMark}
    (h : s.eng.pf.isOpen = true ∧ s.eng.pf.err = some m ∨ s.eng.pf.isOpen = false ∧ m = .seqErr) :
    txCopy d (txOpen false s) = (true, afterWork s [] s.replies [] (openFrame false s.eng.pf) 0 0) := by
  rw [txOpen_afterWork]
  exact txCopy_afterWork_rejected (by rw [openFrame_rejected_err h]; nofun)

/-! ## The closing step -/

/-- One rejected frame more. -/
theorem countTxRej_afterWork :
    countTxRej (afterWork s pre rest es pf sent rejected) = afterWork s pre rest es pf sent (rejected + 1) := by
  simp [countTxRej, afterWork, BitVec.ofNat_add, BitVec.add_assoc]

theorem sendAll_afterWork (wires : List (List Byte)) :
    sendAll wires (afterWork s pre rest es pf sent rejected)
      = afterWork s pre rest (es ++ wires.map Event.send) pf (sent + wires.length) rejected := by
  simp [sendAll_eq, afterWork, BitVec.ofNat_add, BitVec.add_assoc]

/-- The closing step of a last segment: the frame is closed and the pending frame reset (`41_tx_path.md` R171). -/
theorem txFinish_last {oc : OffloadCtx} {t : State} (flag : Bool)
    (h : txClose oc t = afterWork s pre rest es pf sent rejected) :
    txFinish true flag oc t = (txStatus flag pf.err, afterWork s pre rest es {} sent rejected) := by
  simp only [txFinish, if_true, h]
  rfl

/-- A frame in the rejected condition: its last segment drops and counts it (`41_tx_path.md` R171, R172). -/
theorem txFinish_afterWork_rejected {m : ErrMark} (ls flag : Bool) (oc : OffloadCtx) (h : pf.err = some m) :
    txFinish ls flag oc (afterWork s pre rest es pf sent rejected)
      = (txStatus flag (some m),
          afterWork s pre rest es (if ls then {} else pf) sent (rejected + if ls then 1 else 0)) := by
  rw [← h]
  cases ls with
  | false => rfl
  | true =>
    refine txFinish_last flag ?_
    obtain ⟨_, e⟩ | ⟨_, hgood, _⟩ | ⟨hgood, _⟩ := txClose_cases oc (afterWork s pre rest es pf sent rejected)
    · exact e.trans countTxRej_afterWork
    · exact nomatch h.symm.trans hgood
    · exact nomatch h.symm.trans hgood

/-- A good frame: its last segment sends what `Emit` answers (`41_tx_path.md` R171, R172). -/
theorem txFinish_afterWork_good {ls : Bool} {oc : OffloadCtx} {wires : List (List Byte)} (flag : Bool)
    (hpf : pf.err = none) (hemit : if ls then emit oc pf.buf = some wires else wires = []) :
    txFinish ls flag oc (afterWork s pre rest es pf sent rejected)
      = (txStatus flag none,
          afterWork s pre rest (es ++ wires.map Event.send) (if ls then {} else pf) (sent + wires.length)
            rejected) := by
  cases ls with
  | false =>
    obtain rfl : wires = [] := hemit
    simp [txFinish, afterWork, hpf]
  | true =>
    refine (txFinish_last (pf := pf) flag ?_).trans (by rw [hpf]; rfl)
    obtain ⟨h, _⟩ | ⟨frames, _, h, e⟩ | ⟨_, h, _⟩ := txClose_cases oc (afterWork s pre rest es pf sent rejected)
    · exact absurd hpf h
    · obtain rfl := Option.some.inj (h.symm.trans hemit)
      rw [e, sendAll_afterWork]
    · exact nomatch h.symm.trans hemit

/-- A frame `Emit` rejects is dropped at its last segment and counted (`41_tx_path.md` R171). -/
theorem txFinish_afterWork_badOfl {oc : OffloadCtx} (flag : Bool) (hpf : pf.err = none)
    (hemit : emit oc pf.buf = none) :
    txFinish true flag oc (afterWork s pre rest es pf sent rejected)
      = (txStatus flag (some .badOfl), afterWork s pre rest es {} sent (rejected + 1)) := by
  refine txFinish_last (pf := { pf with err := some .badOfl }) flag ?_
  obtain ⟨h, _⟩ | ⟨_, _, h, _⟩ | ⟨_, _, e⟩ := txClose_cases oc (afterWork s pre rest es pf sent rejected)
  · exact absurd hpf h
  · exact nomatch h.symm.trans hemit
  · rw [e, ← countTxRej_afterWork]; rfl

/-! ## The writeback -/

/-- The status of `41_tx_path.md` R172 merged into word 0 (`30_encoding.md` R103), the `SEQERR` of a discarded frame
apart. -/
theorem txWritebackWord_txStatus (w0 : Word) (flag : Bool) (err : Option ErrMark) :
    txWritebackWord w0 (txStatus flag err)
      = (w0 &&& ~~~0x807C0000) ||| txStatus false err ||| if flag then 0x00040000 else 0 := by
  have hstatus : txStatus flag err = txStatus false err ||| if flag then 0x00040000 else 0 := by
    have hdone : stDone ||| bitIf false stSeqErr = stDone := BitVec.or_zero
    unfold txStatus
    rw [hdone, BitVec.or_assoc, BitVec.or_comm (bitIf flag stSeqErr), ← BitVec.or_assoc]
    rfl
  rw [txWritebackWord, hstatus, BitVec.or_assoc]
  rfl

/-- The end of a run behind the events `es` (`41_tx_path.md` R174). -/
theorem endRun_eq_afterRun (st : TxState) (s : State) (es : List Event) :
    endRun st { s with events := s.events ++ es } = afterRun s st es := by
  rw [endRun_eq]
  rfl

/-- A faulting write stores nothing and is reported (`20_memory.md` R81; `60_exceptions.md` R336). -/
theorem memWrite_fault {r : Reply} {t : State} (a : Addr) (bs : List Byte) (hr : t.replies = r :: rest)
    (hf : r.answer = .fault) :
    memWrite a bs t = (false, { t with
      replies := rest
      mem := applyStores r.stores t.mem
      events := t.events ++ [.memWrite a bs false, .platformFault a bs.length .write] }) := by
  simp [memWrite, takeReply, hr, hf, platformFault, logEvent]

/-- A faulting writeback ends the run, and the work on the descriptor stands (`41_tx_path.md` R172). -/
theorem txComplete_afterWork_fault {r : Reply} (w0 st : Word) (hf : r.answer = .fault) :
    txComplete (txSlot s) w0 st d (afterWork s pre (r :: rest) es pf sent rejected)
      = afterFaultedTurn s pre r rest (txWritebackWord w0 st) es pf sent rejected := by
  rw [txComplete, writeback, memWrite_fault _ _ rfl hf]
  refine Eq.trans ?_ (endRun_eq_afterRun _ _ _)
  simp [afterWork]

end

/-! ## The turn -/

/-- A turn of a run below its bound, from its copy and its closing step (`41_tx_path.md` R176). -/
theorem exec_ownedTx_of_finished {s t u : State} {ipcs l4cs tso fs ls : Bool} {d : TxFields} {st : Word}
    (hne : s.op.consumed ≠ s.eng.txr.cap.toNat) (hframing : framing s.eng d = (fs, ls))
    (hcopy : txCopy d (txOpen fs s) = (true, t))
    (hfinish : txFinish ls (seqFlag fs s.eng.pf) (offloadCtx ipcs l4cs tso d) t = (st, u)) :
    exec (ownedTx ipcs l4cs tso d) s
      = .next (txComplete (txSlot s) (txWord0 true ipcs l4cs tso d) st d u) := by
  rw [exec_ownedTx, txDescriptor, if_neg hne]
  simp only [hframing, hcopy, if_true, hfinish]

/-- A turn whose writeback faults leaves what it did before (`40_ring_and_descriptor.md` R144, `41_tx_path.md` R172). -/
theorem exec_ownedTx_writeback_fault {s t : State} {ipcs l4cs tso fs ls : Bool} {d : TxFields} {pre rest : List Reply}
    {r : Reply} {es : List Event} {pf : PendingFrame} {sent rejected : Nat} {err : Option ErrMark} {st : Word}
    (hne : s.op.consumed ≠ s.eng.txr.cap.toNat) (hframing : framing s.eng d = (fs, ls)) (hf : r.answer = .fault)
    (hcopy : txCopy d (txOpen fs s) = (true, t))
    (hfinish : txFinish ls (seqFlag fs s.eng.pf) (offloadCtx ipcs l4cs tso d) t
      = (txStatus (seqFlag fs s.eng.pf) err, afterWork s pre (r :: rest) es pf sent rejected))
    (hst : txStatus false err = st) :
    exec (ownedTx ipcs l4cs tso d) s
      = .next (afterFaultedTurn s pre r rest
          ((txWord0 true ipcs l4cs tso d &&& ~~~0x807C0000) ||| st ||| if seqFlag fs s.eng.pf then 0x00040000 else 0)
          es pf sent rejected) := by
  rw [exec_ownedTx_of_finished hne hframing hcopy hfinish, txComplete_afterWork_fault _ _ hf, txWritebackWord_txStatus,
    hst]

end Sys2Proof.Machine
end

section
/-!
A TX writeback that faults (`40_ring_and_descriptor.md` R144; `41_tx_path.md` R165 to R172).
-/

namespace Sys2Proof.Machine

/-- Settles O35: each way through the framing step and the copy, and the closing step behind it. -/
theorem txWritebackFaultStands : Obligations.TxWritebackFaultStands := by
  intro s ipcs l4cs tso d pre r rest fs ls before frame discards w0 reads good fits answered hne hreplies hf
  have hframing : framing s.eng d = (fs, ls) := framing_eq s.eng d
  refine ⟨fun sent hgood hfits hans hemit => ?good, fun hgood hfits hans hls hemit => ?badOfl,
    fun hgood hlong hpre => ?oversize, fun m hfs hpre hm => ?rejected⟩
  case good =>
    rw [← Nat.zero_add sent.length]
    exact exec_ownedTx_writeback_fault hne hframing hf (txCopy_txOpen_fits hgood hfits hreplies hans)
      (txFinish_afterWork_good _ rfl hemit) rfl
  case badOfl =>
    have hcount : (if discards then 1 else 0) + 1 = if discards then 2 else 1 := by split <;> rfl
    rw [hls] at hframing
    rw [← hcount]
    exact exec_ownedTx_writeback_fault hne hframing hf (txCopy_txOpen_fits hgood hfits hreplies hans)
      (txFinish_afterWork_badOfl _ rfl hemit) rfl
  case oversize =>
    subst hpre
    have hcopy := txCopy_txOpen_oversize hgood hlong
    rw [hreplies] at hcopy
    exact exec_ownedTx_writeback_fault hne hframing hf hcopy (txFinish_afterWork_rejected _ _ _ rfl) rfl
  case rejected =>
    subst hpre
    have hcopy := txCopy_txOpen_rejected (d := d) hm
    rw [hreplies] at hcopy
    rw [hfs] at hframing
    have hdiscards : discards = seqFlag false s.eng.pf := by simp only [discards, hfs]; rfl
    simp only [w0, hdiscards]
    rw [← Nat.zero_add (if ls then 1 else 0)]
    refine exec_ownedTx_writeback_fault hne hframing hf hcopy
      (txFinish_afterWork_rejected _ _ _ (openFrame_rejected_err hm)) ?_
    cases m <;> rfl

end Sys2Proof.Machine
end

section
/-!
SUPPORT. The collaborator calls of a TX run, counted piece by piece (`41_tx_path.md` R177): how many reads and writes
each operation of the TX path makes at most, whatever guest memory answers.
-/

namespace Sys2Proof.Machine

/-! ## Counting -/

@[simp] theorem readCalls_append (es fs : List Event) : readCalls (es ++ fs) = readCalls es + readCalls fs := by
  simp [readCalls]

@[simp] theorem writeCalls_append (es fs : List Event) : writeCalls (es ++ fs) = writeCalls es + writeCalls fs := by
  simp [writeCalls]

/-- An evaluation of the line calls nobody (`60_exceptions.md` R341). -/
theorem calls_lineEvents (e : Engine) (c : BitVec 4) :
    readCalls (lineEvents e c) = 0 ∧ writeCalls (lineEvents e c) = 0 := by
  unfold lineEvents
  split <;> exact ⟨rfl, rfl⟩

/-- Sending a frame makes no memory access (`42_offload.md` R222). -/
theorem calls_sends (wires : List (List Byte)) :
    readCalls (wires.map Event.send) = 0 ∧ writeCalls (wires.map Event.send) = 0 := by
  simp [readCalls, writeCalls]

/-- From `s` to `u` the engine makes at most `r` reads and at most `w` writes. -/
def CallsAtMost (r w : Nat) (s u : State) : Prop :=
  ∃ es, u.events = s.events ++ es ∧ readCalls es ≤ r ∧ writeCalls es ≤ w

theorem CallsAtMost.of_events_eq {s u : State} (h : u.events = s.events) : CallsAtMost 0 0 s u :=
  ⟨[], by rw [h, List.append_nil], Nat.le_refl _, Nat.le_refl _⟩

theorem CallsAtMost.trans {r r' w w' : Nat} {s t u : State} (h1 : CallsAtMost r w s t) (h2 : CallsAtMost r' w' t u) :
    CallsAtMost (r + r') (w + w') s u := by
  obtain ⟨es, he, hr, hw⟩ := h1
  obtain ⟨fs, hf, hr', hw'⟩ := h2
  exact ⟨es ++ fs, by rw [hf, he, List.append_assoc], by rw [readCalls_append]; omega,
    by rw [writeCalls_append]; omega⟩

theorem CallsAtMost.mono {r r' w w' : Nat} {s u : State} (h : CallsAtMost r w s u) (hr : r ≤ r') (hw : w ≤ w') :
    CallsAtMost r' w' s u := by
  obtain ⟨es, he, hr', hw'⟩ := h
  exact ⟨es, he, hr'.trans hr, hw'.trans hw⟩

/-! ## The pieces of a turn -/

theorem callsAtMost_endRun (st : TxState) (s : State) : CallsAtMost 0 0 s (endRun st s) := by
  rw [endRun_eq]
  exact ⟨_, rfl, (calls_lineEvents _ _).1.le, (calls_lineEvents _ _).2.le⟩

/-- The length check and the copy read the buffer at most once (`41_tx_path.md` R168, R169). -/
theorem callsAtMost_txCopy (d : TxFields) (s : State) : CallsAtMost 1 0 s (txCopy d s).2 := by
  have hnone {u : State} (h : u.events = s.events) : CallsAtMost 1 0 s u :=
    (CallsAtMost.of_events_eq h).mono (Nat.zero_le _) (Nat.le_refl _)
  obtain ⟨_, e⟩ | ⟨_, _, e⟩ | ⟨_, _, e⟩ | ⟨_, _, _, ⟨bs, _, _, e⟩ | ⟨_, e⟩⟩ := txCopy_cases d s <;> rw [e]
  · exact hnone rfl
  · exact hnone rfl
  · exact hnone rfl
  · exact ⟨_, rfl, Nat.le_refl _, Nat.le_refl _⟩
  · exact ⟨_, rfl, Nat.le_refl _, Nat.le_refl _⟩

/-- The closing step accesses no memory (`41_tx_path.md` R171). -/
theorem callsAtMost_txFinish (ls flag : Bool) (oc : OffloadCtx) (s : State) :
    CallsAtMost 0 0 s (txFinish ls flag oc s).2 := by
  obtain ⟨_, e⟩ | ⟨_, _, e⟩ | ⟨frames, _, _, _, e⟩ | ⟨_, _, _, e⟩ := txFinish_cases ls flag oc s <;> rw [e]
  · exact .of_events_eq rfl
  · exact .of_events_eq rfl
  · exact ⟨_, rfl, (calls_sends frames).1.le, (calls_sends frames).2.le⟩
  · exact .of_events_eq rfl

theorem callsAtMost_memWrite (a : Addr) (bs : List Byte) (s : State) : CallsAtMost 0 1 s (memWrite a bs s).2 := by
  obtain e | e | e := memWrite_cases a bs s <;> rw [e] <;> exact ⟨_, rfl, Nat.le_refl _, Nat.le_refl _⟩

theorem callsAtMost_txAdvance (d : TxFields) (s : State) : CallsAtMost 0 0 s (txAdvance d s) := by
  rw [txAdvance_eq]
  split
  · exact ⟨_, rfl, (calls_lineEvents _ _).1.le, (calls_lineEvents _ _).2.le⟩
  · exact .of_events_eq rfl

/-- The writeback and what follows it write once (`41_tx_path.md` R172). -/
theorem callsAtMost_txComplete (a : Addr) (w0 st : Word) (d : TxFields) (s : State) :
    CallsAtMost 0 1 s (txComplete a w0 st d s) := by
  obtain ⟨u, ⟨rfl, _⟩, ⟨_, e⟩ | ⟨_, e⟩⟩ := txComplete_cases a w0 st d s <;> rw [e]
  · exact (callsAtMost_memWrite _ _ s).trans (callsAtMost_txAdvance d _)
  · exact (callsAtMost_memWrite _ _ s).trans (callsAtMost_endRun _ _)

/-- A turn of a run reads one buffer and writes one descriptor back, at most; at the run bound it does neither
(`41_tx_path.md` R163, R176). -/
theorem callsAtMost_txDescriptor (ipcs l4cs tso : Bool) (d : TxFields) (s : State) :
    CallsAtMost 1 1 s (txDescriptor ipcs l4cs tso d s)
      ∧ (s.op.consumed = s.eng.txr.cap.toNat → CallsAtMost 0 0 s (txDescriptor ipcs l4cs tso d s)) := by
  obtain ⟨_, e⟩ | ⟨hne, _, e⟩ | ⟨hne, _, e⟩ := txDescriptor_cases ipcs l4cs tso d s <;> rw [e]
  · have hend := callsAtMost_endRun .stalled s
    exact ⟨hend.mono (Nat.zero_le _) (Nat.zero_le _), fun _ => hend⟩
  · have hread : CallsAtMost 1 0 s
        (afterCall [.memRead d.buf d.len.toNat false, .platformFault d.buf d.len.toNat .read] s) :=
      ⟨_, rfl, Nat.le_refl _, Nat.le_refl _⟩
    exact ⟨(hread.trans (callsAtMost_endRun _ _)).mono (Nat.le_refl _) (Nat.zero_le _), fun h => absurd h hne⟩
  · have hopen (fs : Bool) : CallsAtMost 0 0 s (txOpen fs s) := .of_events_eq (by rw [txOpen_eq])
    exact ⟨(((hopen _).trans (callsAtMost_txCopy d _)).trans (callsAtMost_txFinish _ _ _ _)).trans
      (callsAtMost_txComplete _ _ _ d _), fun h => absurd h hne⟩

/-! ## A step of a run -/

/-- A turn ends the run or comes back to the loop head (`41_tx_path.md` R176). -/
theorem txDescriptor_op (ipcs l4cs tso : Bool) (d : TxFields) (s : State) :
    (txDescriptor ipcs l4cs tso d s).op = {} ∨ (txDescriptor ipcs l4cs tso d s).op.phase = .txRun := by
  obtain ⟨_, e⟩ | ⟨_, u, _, _, e | e⟩ := txDescriptor_outcome ipcs l4cs tso d s <;> rw [e]
  · exact .inl (endRun_op _ _)
  · exact .inl (endRun_op _ _)
  · exact .inr (by rw [txAdvance_op])

/-- A step of a run fetches once and takes at most one turn; at the run bound it only fetches (`41_tx_path.md` R163,
R164). -/
theorem step_txRun_calls {s t : State} (hp : s.op.phase = .txRun) (h : step s = .next t) :
    (t.op = {} ∨ t.op.phase = .txRun) ∧ CallsAtMost 2 1 s t
      ∧ (s.op.consumed = s.eng.txr.cap.toNat → CallsAtMost 1 0 s t) := by
  have hover {es : List Event} (hr : readCalls es ≤ 1) (hw : writeCalls es ≤ 0) :
      CallsAtMost 1 0 s (endRun .idle (afterCall es s)) :=
    CallsAtMost.trans ⟨es, rfl, hr, hw⟩ (callsAtMost_endRun _ _)
  obtain e | ⟨bs, _, _, e⟩ := step_txRun_cases s hp
  · obtain rfl := Host.Outcome.next.inj (e.symm.trans h)
    have hcalls := hover (es := [.memRead (txSlot s) 32 false, .platformFault (txSlot s) 32 .read])
      (Nat.le_refl _) (Nat.le_refl _)
    exact ⟨.inl (endRun_op _ _), hcalls.mono (by omega) (by omega), fun _ => hcalls⟩
  · have hfetch : CallsAtMost 1 0 s (afterCall [.memRead (txSlot s) 32 true] s) :=
      ⟨_, rfl, Nat.le_refl _, Nat.le_refl _⟩
    obtain ⟨_, _, _, _, _, e'⟩ | ⟨ipcs, l4cs, tso, d, e'⟩ := exec_txd_cases (decodeTx bs) (decodeTx_format bs)
      (afterCall [.memRead (txSlot s) 32 true] s)
    · obtain rfl := Host.Outcome.next.inj ((e.trans e').symm.trans h)
      have hcalls := hover (es := [.memRead (txSlot s) 32 true]) (Nat.le_refl _) (Nat.le_refl _)
      exact ⟨.inl (endRun_op _ _), hcalls.mono (by omega) (by omega), fun _ => hcalls⟩
    · obtain rfl := Host.Outcome.next.inj ((e.trans e').symm.trans h)
      obtain ⟨hturn, hbound⟩ := callsAtMost_txDescriptor ipcs l4cs tso d (afterCall [.memRead (txSlot s) 32 true] s)
      exact ⟨txDescriptor_op _ _ _ _ _, hfetch.trans hturn, fun hc => hfetch.trans (hbound hc)⟩

end Sys2Proof.Machine
end

section
/-!
A TX run and its bound on memory accesses (`41_tx_path.md` R163, R177).
-/

namespace Sys2Proof.Machine

/-- A run with `n` descriptors left to take ends within `n + 1` steps: each step but the last takes one of them, with a
fetch, a buffer read and a writeback, and the last may find the run at its bound. -/
theorem settle_txRun_calls (n : Nat) (s : State) (h : Inv s) (hp : s.op.phase = .txRun) (hn : workLeft s ≤ n + 1) :
    ∃ t, settle (n + 1) s = .next t ∧ t.op = {} ∧ CallsAtMost (2 * n + 1) n s t := by
  induction n generalizing s with
  | zero =>
    obtain ⟨_, _, hle, _⟩ := h.txRun hp
    obtain ⟨t, ht, _, hlt⟩ := advances_step h (by rw [hp]; nofun)
    obtain ⟨hop, _, hbound⟩ := step_txRun_calls hp ht
    rw [workLeft_txRun hp] at hn hlt
    have hover : t.op = {} := hop.resolve_right fun hq => by rw [workLeft_txRun hq] at hlt; omega
    exact ⟨t, settle_step 0 s t (by rw [hp]; nofun) ht, hover, hbound (by omega)⟩
  | succ n ih =>
    obtain ⟨t, ht, hinv, hlt⟩ := advances_step h (by rw [hp]; nofun)
    obtain ⟨hop, hcalls, _⟩ := step_txRun_calls hp ht
    rw [settle_step (n + 1) s t (by rw [hp]; nofun) ht]
    obtain hover | hq := hop
    · exact ⟨t, settle_rest _ t (by rw [hover]), hover, hcalls.mono (by omega) (by omega)⟩
    · obtain ⟨u, hu, hover, hrest⟩ := ih t hinv hq (by omega)
      exact ⟨u, hu, hover, (hcalls.trans hrest).mono (by omega) (by omega)⟩

/-- Settles O11, by induction on the descriptors the run has left: at its start, as many as the ring has slots. -/
theorem txRunAccessBound : Obligations.TxRunAccessBound := by
  intro s h hop
  have hp : s.op.phase = .txRun := by rw [hop]
  obtain ⟨t, ht, hover, es, he, hr, hw⟩ := settle_txRun_calls s.eng.txr.cap.toNat s h hp
    (by rw [workLeft_txRun hp]; omega)
  exact ⟨t, es, ht, hover, he, hr, hw⟩

end Sys2Proof.Machine
end

section
/-!
SUPPORT. The two collaborator calls of a TX turn: the buffer read and the writeback with guest memory as plain RAM,
and the buffer read that faults (`41_tx_path.md` R169, R170, R172, R173).
-/

namespace Sys2Proof.Machine

/-! ## Plain RAM -/

/-- The framing step and the copy of a segment that fits a good frame, read from plain RAM (`41_tx_path.md` R166, R167,
R169). -/
theorem txCopy_txOpen_plain {s : State} {d : TxFields} {fs : Bool}
    (hgood : fs = false → s.eng.pf.isOpen = true ∧ s.eng.pf.err = none)
    (hlen : d.len.toNat ≤ s.cfg.maxFrame - (if fs then [] else s.eng.pf.buf).length) (hplain : s.replies = []) :
    txCopy d (txOpen fs s)
      = (true, afterWork s [] [] (if d.len = 0 then [] else [.memRead d.buf d.len.toNat true])
          { isOpen := true
            buf := (if fs then [] else s.eng.pf.buf) ++ s.mem.readBytes d.buf.toNat d.len.toNat
            err := none }
          0 (if seqFlag fs s.eng.pf then 1 else 0)) := by
  rw [txOpen_afterWork, openFrame_good hgood, hplain]
  refine (if_neg (not_not.mpr rfl)).trans ((if_neg (Nat.not_lt.mpr hlen)).trans ?_)
  by_cases h0 : d.len = 0
  · rw [if_pos h0, if_pos h0, h0]
    simp [Memory.readBytes]
  · rw [if_neg h0, if_neg h0, memRead_plain _ _ _ rfl]
    simp [afterWork, logEvent]

/-- With guest memory as plain RAM the descriptor is written back and the cursor advances (`41_tx_path.md` R172,
R173). -/
theorem txComplete_afterWork_plain {s : State} {d : TxFields} {es : List Event} {pf : PendingFrame}
    {sent rejected : Nat} (w0 st : Word) (hplain : s.replies = []) :
    txComplete (txSlot s) w0 st d (afterWork s [] [] es pf sent rejected)
      = afterTurn s d (txWritebackWord w0 st) es pf sent rejected := by
  rw [txComplete, writeback, memWrite_plain _ _ _ rfl]
  refine (txAdvance_eq d _).trans ?_
  rw [afterTurn, turnCauses, hplain]
  cases d.irq with
  | true => rfl
  | false => simp [afterWork, logEvent]

/-- A turn with guest memory as plain RAM, from its copy and its closing step (`41_tx_path.md` R172, R173). -/
theorem exec_ownedTx_plain {s t : State} {ipcs l4cs tso fs ls : Bool} {d : TxFields} {es : List Event}
    {pf : PendingFrame} {sent rejected : Nat} {err : Option ErrMark} {st : Word}
    (hne : s.op.consumed ≠ s.eng.txr.cap.toNat) (hframing : framing s.eng d = (fs, ls)) (hplain : s.replies = [])
    (hcopy : txCopy d (txOpen fs s) = (true, t))
    (hfinish : txFinish ls (seqFlag fs s.eng.pf) (offloadCtx ipcs l4cs tso d) t
      = (txStatus (seqFlag fs s.eng.pf) err, afterWork s [] [] es pf sent rejected))
    (hst : txStatus false err = st) :
    exec (ownedTx ipcs l4cs tso d) s
      = .next (afterTurn s d
          ((txWord0 true ipcs l4cs tso d &&& ~~~0x807C0000) ||| st ||| if seqFlag fs s.eng.pf then 0x00040000 else 0)
          es pf sent rejected) := by
  rw [exec_ownedTx_of_finished hne hframing hcopy hfinish, txComplete_afterWork_plain _ _ hplain,
    txWritebackWord_txStatus, hst]

/-! ## A buffer read that faults -/

/-- A faulting read answers no bytes and is reported (`20_memory.md` R81; `60_exceptions.md` R336). -/
theorem memRead_fault {r : Reply} {rest : List Reply} {s : State} (a : Addr) (n : Nat) (hr : s.replies = r :: rest)
    (hf : r.answer = .fault) :
    memRead a n s = (none, afterCall [.memRead a n false, .platformFault a n .read] s) := by
  simp [memRead, takeReply, hr, hf, afterCall, memAtCall, platformFault, logEvent]

/-- The copy of a segment that fits a good frame fails with its read (`41_tx_path.md` R170). -/
theorem txCopy_fault {r : Reply} {rest : List Reply} {d : TxFields} {s : State} (hpf : s.eng.pf.err = none)
    (hlen : d.len.toNat ≤ s.cfg.maxFrame - s.eng.pf.buf.length) (h0 : d.len ≠ 0) (hr : s.replies = r :: rest)
    (hf : r.answer = .fault) : (txCopy d s).1 = false := by
  obtain ⟨h, _⟩ | ⟨_, h, _⟩ | ⟨_, h, _⟩ | ⟨_, _, _, ⟨_, _, e, _⟩ | ⟨_, e⟩⟩ := txCopy_cases d s
  · exact absurd hpf h
  · omega
  · exact absurd h h0
  · exact nomatch (memRead_fault d.buf d.len.toNat hr hf).symm.trans e
  · rw [e]

/-- The call the fault `r` answers, and the end of the run behind it (`41_tx_path.md` R170, R174). -/
theorem endRun_afterCall {r : Reply} {rest : List Reply} {s : State} (st : TxState) (es : List Event)
    (hr : s.replies = r :: rest) :
    endRun st (afterCall es s)
      = afterRun { s with replies := rest, mem := applyStores r.stores s.mem } st es := by
  rw [← endRun_eq_afterRun, afterCall, hr]
  rfl

end Sys2Proof.Machine
end

section
/-!
The descriptors of a TX run below its bound, with guest memory as plain RAM and with a buffer read that faults
(`41_tx_path.md` R165 to R173).
-/

namespace Sys2Proof.Machine

/-- Settles O30: the segment fits a good frame and is appended, and what `Emit` answers for a last one is sent. -/
theorem txDescriptorCompletes : Obligations.TxDescriptorCompletes := by
  intro s ipcs l4cs tso d sent fs ls before frame discards hplain hne hgood hfits hemit
  rw [← Nat.zero_add sent.length]
  exact exec_ownedTx_plain hne (framing_eq s.eng d) hplain (txCopy_txOpen_plain hgood hfits hplain)
    (txFinish_afterWork_good _ rfl hemit) rfl

/-- Settles O31: the segment is copied as that of a good frame, and its closing step drops the frame. -/
theorem txBadOffloadRejected : Obligations.TxBadOffloadRejected := by
  intro s ipcs l4cs tso d fs before discards hplain hne hls hgood hfits hemit
  have hlast : (if s.eng.txChain then d.ls else true) = true := by
    split
    · next hchain => exact hls hchain
    · rfl
  have hframing : framing s.eng d = (fs, true) := by rw [framing_eq, hlast]
  have hcount : (if discards then 1 else 0) + 1 = if discards then 2 else 1 := by split <;> rfl
  rw [← hcount]
  exact exec_ownedTx_plain hne hframing hplain (txCopy_txOpen_plain hgood hfits hplain)
    (txFinish_afterWork_badOfl _ rfl hemit) rfl

/-- Settles O32: the segment too long for its frame marks it unread, and the closing step counts a marked frame. -/
theorem txOversizeRejected : Obligations.TxOversizeRejected := by
  intro s ipcs l4cs tso d fs ls before discards hplain hne hgood hlong
  have hcopy := txCopy_txOpen_oversize hgood (Nat.not_le.mpr hlong)
  rw [hplain] at hcopy
  exact exec_ownedTx_plain hne (framing_eq s.eng d) hplain hcopy (txFinish_afterWork_rejected _ _ _ rfl) rfl

/-- Settles O33: the frame stays in the rejected condition it is in or is opened in, and no first segment shows
`SEQERR`. -/
theorem txRejectedFrameContinues : Obligations.TxRejectedFrameContinues := by
  intro s ipcs l4cs tso d m hplain hne hchain hfs hm
  have hframing : framing s.eng d = (false, d.ls) := by rw [framing_eq, hchain, hfs]; rfl
  have hcopy := txCopy_txOpen_rejected (d := d) hm
  rw [hplain] at hcopy
  rw [← Nat.zero_add (if d.ls then 1 else 0)]
  refine (exec_ownedTx_plain hne hframing hplain hcopy
    (txFinish_afterWork_rejected _ _ _ (openFrame_rejected_err hm)) rfl).trans ?_
  have hunflagged (w : Word) : (w ||| if seqFlag false s.eng.pf then 0x00040000 else 0) = w := BitVec.or_zero
  rw [hunflagged, BitVec.or_assoc]
  cases m <;> rfl

/-- Settles O34: the copy is the step that fails, and the end of the run is all that is left of the turn. -/
theorem txBufferFaultUndone : Obligations.TxBufferFaultUndone := by
  intro s ipcs l4cs tso d r rest fs before hreplies hf hne hgood h0 hfits
  have hopened : (txOpen fs s).eng.pf = { isOpen := true, buf := before, err := none } := by
    rw [txOpen_eq]; exact openFrame_good hgood
  have hfault : (txCopy d (txOpen fs s)).1 = false := by
    refine txCopy_fault (by rw [hopened]) ?_ h0 (by rw [txOpen_eq]; exact hreplies) hf
    rw [hopened, txOpen_eq]
    exact hfits
  rw [exec_ownedTx, ← endRun_afterCall _ _ hreplies]
  obtain ⟨h, _⟩ | ⟨_, _, e⟩ | ⟨_, h, _⟩ := txDescriptor_cases ipcs l4cs tso d s
  · exact absurd h hne
  · rw [e]
  · rw [framing_eq] at h
    exact nomatch hfault.symm.trans h

end Sys2Proof.Machine
end

section
/-!
Where a TX run starts and where it ends without a descriptor (`41_tx_path.md` R161 to R164, R174).
-/

namespace Sys2Proof.Machine

/-- Settles O19: the doorbell lane notes its trigger, which fires behind the last lane of the access. -/
theorem txDoorbell : Obligations.TxDoorbell := by
  intro s v
  let noted := noteTrigger .txDoorbell s
  have hfire (hlast : s.op.lanes = []) : exec (.txDbW v) s = .next (txStart noted) :=
    congrArg Host.Outcome.next (endLane_txDoorbell noted hlast rfl)
  refine ⟨fun hmore => ?more, fun hlast hen => ?disabled, fun hlast hen hcap => ?noRing, fun hlast hen hcap => ?run⟩
  case more => exact congrArg Host.Outcome.next (endLane_more noted hmore)
  case disabled => rw [hfire hlast, txStart_disabled noted hen]; rfl
  case noRing => rw [hfire hlast, txStart_noRing noted hen hcap]; rfl
  case run => rw [hfire hlast, txStart_run noted hen hcap]; rfl

/-- Settles O28: a host-owned descriptor ends the run with no event of its own, a faulting fetch with the call and its
report. -/
theorem txNoDescriptorEndsRun : Obligations.TxNoDescriptorEndsRun := by
  refine ⟨fun s ipcs l4cs tso d => ?host, fun s r rest hp hreplies hf => ?fault⟩
  case host =>
    rw [← endRun_eq_afterRun, List.append_nil]
    rfl
  case fault =>
    rw [← endRun_afterCall _ _ hreplies]
    obtain e | ⟨bs, e, _⟩ := step_txRun_cases s hp
    · exact e
    · exact nomatch (memRead_fault _ _ hreplies hf).symm.trans e

/-- Settles O29: at the bound a turn is the end of the run. -/
theorem txBoundStalls : Obligations.TxBoundStalls := by
  intro s ipcs l4cs tso d hbound
  obtain ⟨_, e⟩ | ⟨hne, _⟩ | ⟨hne, _⟩ := txDescriptor_cases ipcs l4cs tso d s
  · rw [exec_ownedTx, e, ← endRun_eq_afterRun, List.append_nil]
  · exact absurd hbound hne
  · exact absurd hbound hne

end Sys2Proof.Machine
end

section
/-!
SUPPORT. How `tx_state` moves, piece by piece and phase by phase (`41_tx_path.md` R160).
-/

namespace Sys2Proof.Machine

/-! ## Reports to the platform -/

/-- Between `s` and `t` a faulting access was reported to the platform (`60_exceptions.md` R336). -/
def Reported (s t : State) : Prop := ∃ es a n dir, t.events = s.events ++ es ∧ .platformFault a n dir ∈ es

theorem Reported.after {s t u : State} (h : Reported t u) (hc : Carried s t) : Reported s u := by
  obtain ⟨es, a, n, dir, he, hm⟩ := h
  obtain ⟨fs, hf⟩ := hc.events
  exact ⟨fs ++ es, a, n, dir, by rw [he, hf, List.append_assoc], List.mem_append_right _ hm⟩

theorem Reported.before {s t u : State} (h : Reported s t) (hc : Carried t u) : Reported s u := by
  obtain ⟨es, a, n, dir, he, hm⟩ := h
  obtain ⟨fs, hf⟩ := hc.events
  exact ⟨es ++ fs, a, n, dir, by rw [hf, he, List.append_assoc], List.mem_append_left _ hm⟩

/-- A faulting call records itself and its report. -/
theorem reported_afterCall (call : Event) (a : Addr) (n : Nat) (dir : Dir) (s : State) :
    Reported s (afterCall [call, .platformFault a n dir] s) :=
  ⟨_, a, n, dir, rfl, List.mem_cons_of_mem _ (List.mem_singleton_self _)⟩

theorem reported_memWrite {a : Addr} {bs : List Byte} {s : State} (h : (memWrite a bs s).1 = false) :
    Reported s (memWrite a bs s).2 := by
  obtain e | e | e := memWrite_cases a bs s <;> rw [e] at h ⊢
  · cases h
  · cases h
  · exact reported_afterCall _ _ _ _ _

/-! ## The end of a run and of a turn -/

@[simp] theorem endRun_txState (st : TxState) (s : State) : (endRun st s).eng.txState = st := by rw [endRun_eq]

/-- A run that stalls raises `TXSTALL` (`41_tx_path.md` R174). -/
theorem endRun_stalled_icause (s : State) : (endRun .stalled s).eng.icause.getLsbD 3 = true := by
  rw [endRun_eq]
  simp [Engine.withCauses, causeTxStall]

theorem TxWorked.txState {s u : State} (h : TxWorked s u) : u.eng.txState = s.eng.txState := by
  obtain ⟨_, _, _, heng⟩ := h.eng
  rw [heng]

/-- All the work on a descriptor before its writeback (`41_tx_path.md` R166 to R171). -/
theorem txWorked_finished (fs ls flag : Bool) (oc : OffloadCtx) (d : TxFields) (s : State) :
    TxWorked s (txFinish ls flag oc (txCopy d (txOpen fs s)).2).2 :=
  ((txWorked_txOpen fs s).trans (txWorked_txCopy d _)).trans (txWorked_txFinish ls flag oc _)

/-- A writeback leaves the run going on, or ends it at a reported fault (`41_tx_path.md` R172). -/
theorem txComplete_txState (a : Addr) (w0 st : Word) (d : TxFields) (s : State) :
    (txComplete a w0 st d s).eng.txState = s.eng.txState
      ∨ ((txComplete a w0 st d s).eng.txState = .idle ∧ Reported s (txComplete a w0 st d s)) := by
  obtain ⟨u, ⟨rfl, heng, _⟩, ⟨_, e⟩ | ⟨hfault, e⟩⟩ := txComplete_cases a w0 st d s <;> rw [e]
  · exact .inl (by rw [txAdvance_eng, heng])
  · exact .inr ⟨endRun_txState _ _, (reported_memWrite hfault).before (carried_endRun _ _)⟩

/-- A turn stays in the run, stalls at the bound, or ends the run at a reported fault (`41_tx_path.md` R163, R170,
R172). -/
theorem txDescriptor_txState (ipcs l4cs tso : Bool) (d : TxFields) (s : State) :
    (txDescriptor ipcs l4cs tso d s).eng.txState = s.eng.txState
      ∨ (s.op.consumed = s.eng.txr.cap.toNat ∧ txDescriptor ipcs l4cs tso d s = endRun .stalled s)
      ∨ ((txDescriptor ipcs l4cs tso d s).eng.txState = .idle ∧ Reported s (txDescriptor ipcs l4cs tso d s)) := by
  obtain ⟨hc, e⟩ | ⟨_, _, e⟩ | ⟨_, _, e⟩ := txDescriptor_cases ipcs l4cs tso d s
  · exact .inr (.inl ⟨hc, e⟩)
  · rw [e]
    exact .inr (.inr ⟨endRun_txState _ _, (reported_afterCall _ _ _ _ s).before (carried_endRun _ _)⟩)
  · rw [e]
    have hworked := txWorked_finished (framing s.eng d).1 (framing s.eng d).2 (seqFlag (framing s.eng d).1 s.eng.pf)
      (offloadCtx ipcs l4cs tso d) d s
    obtain ht | ⟨ht, hr⟩ := txComplete_txState (txSlot s) (txWord0 true ipcs l4cs tso d) _ d _
    · exact .inl (ht.trans hworked.txState)
    · exact .inr (.inr ⟨ht, hr.after hworked.carried⟩)

/-! ## The moves -/

/-- The ways `tx_state` can move in a step from `s` to `t` (`41_tx_path.md` R160). -/
inductive TxMoved (s t : State) : Prop
  /-- It does not. -/
  | stays (ht : t.eng.txState = s.eng.txState)
  /-- The doorbell starts a run. -/
  | starts (ht : t.eng.txState = .draining) (hp : s.op.phase = .lanes) (hm : s.op.Mentions .txDoorbell)
      (hen : t.eng.txEn = true) (hcap : t.eng.txr.cap ≠ 0)
  /-- The doorbell finds no ring. -/
  | stallsAtOnce (ht : t.eng.txState = .stalled) (hp : s.op.phase = .lanes) (hm : s.op.Mentions .txDoorbell)
      (hen : t.eng.txEn = true) (hcap : t.eng.txr.cap = 0) (hcause : t.eng.icause.getLsbD 3 = true)
  /-- A run meets a host-owned descriptor. -/
  | endsAtHostOwned (ht : t.eng.txState = .idle) (hp : s.op.phase = .txRun) {bs : List Byte} {u : State}
      {ipcs l4cs tso : Bool} {d : TxFields} (hread : memRead (txSlot s) 32 s = (some bs, u))
      (hhost : decode .txd bs = .ok (.txdHost ipcs l4cs tso d))
  /-- A run meets a faulting access. -/
  | endsAtFault (ht : t.eng.txState = .idle) (hp : s.op.phase = .txRun) (hr : Reported s t)
  /-- A run has consumed as many descriptors as the ring has slots. -/
  | stallsAtBound (ht : t.eng.txState = .stalled) (hp : s.op.phase = .txRun)
      (hbound : s.op.consumed = s.eng.txr.cap.toNat) (hcause : t.eng.icause.getLsbD 3 = true)
  /-- A command resets the TX path. -/
  | commanded (ht : t.eng.txState = .idle) (hp : s.op.phase = .command) {i : Instr} {arg : Byte}
      (hdecode : decode .cmd16 (le16 s.eng.cmd) = .ok i)
      (hi : i = .loadTxRing arg ∨ i = .softReset arg ∨ i = .hardReset arg)

/-- A machine at rest leaves `tx_state` alone, whatever is presented to it. -/
theorem presentedTo_txState (s : State) (inp : Input) : (presentedTo s inp).eng.txState = s.eng.txState := by
  cases inp with
  | receive f =>
    show (receive f s).eng.txState = _
    obtain ⟨_, e⟩ | ⟨_, _, _, e⟩ | ⟨_, _, _, _, e⟩ := receive_cases f s <;> rw [e]
    · rfl
    · rw [overrun_eq]; rfl
  | _ => rfl

theorem txMoved_idle {s t : State} (hp : s.op.phase = .idle) (h : step s = .next t) : TxMoved s t := by
  match hi : s.inputs with
  | [] => exact Host.Outcome.next.inj ((step_noInput hp hi).symm.trans h) ▸ .stays rfl
  | inp :: rest =>
    obtain rfl := Host.Outcome.next.inj ((step_input hp hi).symm.trans h)
    exact .stays (presentedTo_txState _ inp)

/-- Behind a lane only the TX doorbell can move `tx_state` (`44_register_window.md` R294). -/
theorem endLane_txState (s : State) :
    (endLane s).eng.txState = s.eng.txState ∨ (s.op.trig = some .txDoorbell ∧ endLane s = txStart s) := by
  by_cases hne : s.op.lanes = []
  case neg => rw [endLane_more s hne]; exact .inl rfl
  case pos =>
    match ht : s.op.trig with
    | none => rw [endLane_plain s hne ht]; exact .inl rfl
    | some .command => rw [endLane_command s hne ht]; exact .inl rfl
    | some .txDoorbell => exact .inr ⟨rfl, endLane_txDoorbell s hne ht⟩
    | some .rxDoorbell => rw [endLane_rxDoorbell s hne ht]; exact .inl rfl
    | some .irqEval => rw [endLane_irqEval s hne ht]; exact .inl rfl

/-- A lane of a register write moves `tx_state` only through the TX doorbell it or an earlier lane covered
(`41_tx_path.md` R161, R162). -/
theorem txMoved_lanes {s t : State} (hne : s.op.lanes ≠ []) (hp : s.op.phase = .lanes) (h : step s = .next t) :
    TxMoved s t := by
  obtain ⟨⟨o, b⟩, rest, hl⟩ := List.exists_cons_of_ne_nil hne
  obtain ⟨e, hexec, hst⟩ := exec_lane_cases (decodeLane o b) (decodeLane_format o b) { s with op.lanes := rest }
  obtain rfl := Host.Outcome.next.inj ((step_lane s o b rest hp hl ▸ hexec).symm.trans h)
  set stored := afterByte (decodeLane o b) e { s with op.lanes := rest }
  have hsame : stored.eng.txState = s.eng.txState := hst.txState
  obtain e' | ⟨htrig, e'⟩ := endLane_txState stored
  · exact .stays (e'.trans hsame)
  · have hm : s.op.Mentions .txDoorbell := by
      refine mentions_of_stored_lane hl (p := s.op.phase) (.inl ?_)
      rw [← trigger_decodeLane o b]
      exact htrig
    rw [e']
    cases hen : stored.eng.txEn with
    | false => rw [txStart_disabled stored hen]; exact .stays hsame
    | true =>
      by_cases hcap : stored.eng.txr.cap = 0
      · rw [txStart_noRing stored hen hcap]
        exact .stallsAtOnce rfl hp hm hen hcap (by simp [Engine.withCauses, causeTxStall])
      · rw [txStart_run stored hen hcap]
        exact .starts rfl hp hm hen hcap

/-- Among the commands, the load of the TX ring and the resets set `tx_state` to `Idle` (`44_register_window.md` R302,
R306, R307). -/
theorem exec_cmd_txState {i : Instr} {s t : State} (hi : i.format = .cmd16) (h : exec i s = .next t) :
    t.eng.txState = s.eng.txState
      ∨ (t.eng.txState = .idle ∧ ∃ arg, i = .loadTxRing arg ∨ i = .softReset arg ∨ i = .hardReset arg) := by
  cases i with
  | softReset arg =>
    obtain rfl := Host.Outcome.next.inj h
    exact .inr ⟨by rw [resetTo_eq]; rfl, arg, .inr (.inl rfl)⟩
  | hardReset arg =>
    obtain rfl := Host.Outcome.next.inj h
    exact .inr ⟨by rw [resetTo_eq]; rfl, arg, .inr (.inr rfl)⟩
  | loadTxRing arg => exact .inr ⟨Host.Outcome.next.inj h ▸ rfl, arg, .inl rfl⟩
  | loadRxRing arg => exact .inl (Host.Outcome.next.inj h ▸ rfl)
  | cmdReserved op arg => exact .inl (Host.Outcome.next.inj h ▸ rfl)
  | _ => cases hi

theorem txMoved_command {s t : State} (hp : s.op.phase = .command) (h : step s = .next t) : TxMoved s t := by
  obtain ht | ⟨ht, arg, hi⟩ := exec_cmd_txState (decodeCmd_format _ _) ((step_command s hp).symm.trans h)
  · exact .stays ht
  · exact .commanded ht hp rfl hi

/-- A run goes on, or ends at its bound, at a host-owned descriptor or at a fault (`41_tx_path.md` R163, R164, R170,
R172). -/
theorem txMoved_txRun {s t : State} (hp : s.op.phase = .txRun) (h : step s = .next t) : TxMoved s t := by
  obtain e | ⟨bs, hread, hdecode, e⟩ := step_txRun_cases s hp
  · obtain rfl := Host.Outcome.next.inj (e.symm.trans h)
    exact .endsAtFault (endRun_txState _ _) hp ((reported_afterCall _ _ _ _ s).before (carried_endRun _ _))
  · set fetched := afterCall [.memRead (txSlot s) 32 true] s
    obtain ⟨_, _, _, _, hhost, e'⟩ | ⟨ipcs, l4cs, tso, d, e'⟩ :=
      exec_txd_cases (decodeTx bs) (decodeTx_format bs) fetched
    · obtain rfl := Host.Outcome.next.inj ((e.trans e').symm.trans h)
      exact .endsAtHostOwned (endRun_txState _ _) hp hread (hhost ▸ hdecode)
    · obtain rfl := Host.Outcome.next.inj ((e.trans e').symm.trans h)
      obtain ht | ⟨hbound, e''⟩ | ⟨ht, hr⟩ := txDescriptor_txState ipcs l4cs tso d fetched
      · exact .stays ht
      · rw [e'']
        exact .stallsAtBound (endRun_txState _ _) hp hbound (endRun_stalled_icause _)
      · exact .endsAtFault ht hp (hr.after (carried_afterCall _ s))

/-- A descriptor of a delivery leaves `tx_state` alone (`43_rx_filter.md` R269). -/
theorem rxDescriptor_txState (d : RxFields) (s : State) : (rxDescriptor d s).eng.txState = s.eng.txState := by
  obtain ⟨u, hw, _, hu⟩ | e | ⟨_, e⟩ := rxDescriptor_outcome d s
  · obtain ⟨_, heng, _⟩ := hw.eng
    have hsame : u.eng.txState = s.eng.txState := by rw [heng]
    obtain e | ⟨_, _, e⟩ := hu <;> rw [e]
    · exact hsame
    · rw [rxSignal_eq]; exact hsame
  · rw [e, overrun_eq]; rfl
  · rw [e]; rfl

theorem txMoved_rxScan {s t : State} (hp : s.op.phase = .rxScan) (h : step s = .next t) : TxMoved s t := by
  obtain e | e | ⟨d, e⟩ := step_rxScan_cases s hp <;> obtain rfl := Host.Outcome.next.inj (e.symm.trans h)
  · exact .stays (by rw [overrun_eq]; rfl)
  · exact .stays (by rw [overrun_eq]; rfl)
  · exact .stays (rxDescriptor_txState d _)

/-- Every step of a sound state moves `tx_state` in one of these ways, phase by phase. -/
theorem txMoved_step {s t : State} (hinv : Inv s) (h : step s = .next t) : TxMoved s t :=
  match hp : s.op.phase with
  | .idle => txMoved_idle hp h
  | .lanes => txMoved_lanes (hinv.lanes hp).1 hp h
  | .command => txMoved_command hp h
  | .txRun => txMoved_txRun hp h
  | .rxScan => txMoved_rxScan hp h

end Sys2Proof.Machine
end

section
/-!
The moves of `tx_state` over every step (`41_tx_path.md` R160).
-/

namespace Sys2Proof.Machine

/-- Settles O60: the way the step moved `tx_state` says what it was before, as `Draining` holds only inside a run. -/
theorem txStateMoves : Obligations.TxStateMoves := by
  intro s t hinv hstep hne
  have hrun (hp : s.op.phase = .txRun) : s.eng.txState = .draining := hinv.draining.mpr hp
  cases txMoved_step hinv hstep with
  | stays ht => exact absurd ht hne
  | starts ht hp hm hen hcap =>
    rw [ht]
    cases s.eng.txState <;> exact ⟨hp, hm, hen, hcap⟩
  | stallsAtOnce ht hp hm hen hcap hcause =>
    rw [ht]
    match hs : s.eng.txState with
    | .draining => exact absurd hs (hinv.not_draining (by rw [hp]; nofun))
    | .idle | .stalled => exact ⟨hp, hm, hen, hcap, hcause⟩
  | endsAtHostOwned ht hp hread hhost =>
    rw [ht, hrun hp]
    exact ⟨hp, .inl ⟨_, _, _, _, _, _, hread, hhost⟩⟩
  | endsAtFault ht hp hr =>
    rw [ht, hrun hp]
    exact ⟨hp, .inr hr⟩
  | stallsAtBound ht hp hbound hcause =>
    rw [ht, hrun hp]
    exact ⟨hp, hbound, hcause⟩
  | commanded ht hp hdecode hi =>
    rw [ht]
    have hcmd := hi.imp (· ▸ hdecode) (Or.imp (· ▸ hdecode) (· ▸ hdecode))
    match hs : s.eng.txState with
    | .draining => exact absurd hs (hinv.not_draining (by rw [hp]; nofun))
    | .idle | .stalled => exact ⟨hp, _, hcmd⟩

end Sys2Proof.Machine
end

section
/-!
The checksum of the offload engine (`42_offload.md` R208, R209, R211): its value as an end-around-carry sum, what the
two inserts store and leave, and that a checksum inserted over its own range verifies.
-/

namespace Sys2Proof.Machine

/-! ## The end-around-carry sum -/

/-- The value the end-around carry of R208 ends with: 0 for 0, else the representative modulo 0xFFFF from 1 on. -/
def endAround (s : Nat) : Nat := if s = 0 then 0 else (s - 1) % 65535 + 1

theorem endAround_of_lt {s : Nat} (h : s < 65536) : endAround s = s := by unfold endAround; split <;> omega

/-- One turn of the carry keeps the value. -/
theorem endAround_carry {s : Nat} (h : 65536 ≤ s) : endAround (s % 65536 + s / 65536) = endAround s := by
  unfold endAround
  rw [if_neg (by omega), if_neg (by omega)]
  omega

/-- A sum and its complement add up to a multiple of 0xFFFF that is not 0. -/
theorem endAround_add_complement (s : Nat) : endAround (s + (65535 - endAround s)) = 65535 := by
  unfold endAround
  split <;> rw [if_neg (by omega)] <;> omega

theorem foldCarry_eq {turns s : Nat} (h : s ≤ turns) : foldCarry turns s = endAround s := by
  induction turns generalizing s with
  | zero =>
    obtain rfl : s = 0 := Nat.le_zero.mp h
    rfl
  | succ turns ih =>
    rw [foldCarry]
    split
    · next hlt => exact (endAround_of_lt hlt).symm
    · next hge => rw [ih (by omega), endAround_carry (by omega)]

theorem csum_eq (b : List Byte) : csum b = BitVec.ofNat 16 (65535 - endAround (sumWords b)) :=
  congrArg (fun t => BitVec.ofNat 16 (65535 - t)) (foldCarry_eq (Nat.le_refl _))

theorem toNat_csum (b : List Byte) : (csum b).toNat = 65535 - endAround (sumWords b) := by
  rw [csum_eq, BitVec.toNat_ofNat]
  omega

/-- The words of R208 read by their places; the byte beyond an odd end reads as 0. -/
theorem sumWords_eq_sum (b : List Byte) :
    sumWords b = ((List.range ((b.length + 1) / 2)).map
      fun i => (byteAt b (2 * i)).toNat * 256 + (byteAt b (2 * i + 1)).toNat).sum := by
  induction b using sumWords.induct with
  | case1 => rfl
  | case2 c => simp [sumWords, byteAt]
  | case3 c d rest ih =>
    have hlen : ((c :: d :: rest).length + 1) / 2 = (rest.length + 1) / 2 + 1 := by
      simp only [List.length_cons]; omega
    have htail (i : Nat) : byteAt (c :: d :: rest) (2 * (i + 1)) = byteAt rest (2 * i)
        ∧ byteAt (c :: d :: rest) (2 * (i + 1) + 1) = byteAt rest (2 * i + 1) := ⟨rfl, rfl⟩
    rw [sumWords, ih, hlen, List.range_succ_eq_map, List.map_cons, List.map_map, List.sum_cons]
    simp only [Function.comp_def, Nat.succ_eq_add_one, htail]
    rfl

/-- Settles O39: the carry ends with the representative of the sum of the words. -/
theorem checksumValue : Obligations.ChecksumValue := by
  intro b
  rw [toNat_csum, sumWords_eq_sum]
  rfl

/-! ## Slices of a frame with bytes replaced -/

theorem slice_putByte (f : List Byte) (k i j : Nat) (b : Byte) (h : i ≤ k) :
    slice (putByte f k b) i j = putByte (slice f i j) (k - i) b := by
  rw [slice, putByte, List.drop_set, if_neg (by omega), List.take_set]
  rfl

/-- A halfword inside a slice, or behind it. -/
theorem slice_putBe16 (f : List Byte) (k i j : Nat) (v : Half) (h : i ≤ k) :
    slice (putBe16 f k v) i j = putBe16 (slice f i j) (k - i) v := by
  rw [putBe16, slice_putByte _ _ _ _ _ (by omega), slice_putByte _ _ _ _ _ h, Nat.sub_add_comm h]
  rfl

theorem putByte_beyond (f : List Byte) (k : Nat) (b : Byte) (h : f.length ≤ k) : putByte f k b = f :=
  List.set_eq_of_length_le h

theorem putBe16_beyond (f : List Byte) (k : Nat) (v : Half) (h : f.length ≤ k) : putBe16 f k v = f := by
  rw [putBe16, putByte_beyond f k _ h, putByte_beyond f _ _ (by omega)]

/-- A halfword behind a slice is not seen in it. -/
theorem slice_putBe16_behind (f : List Byte) (k i j : Nat) (v : Half) (h : i ≤ k) (hj : j ≤ k) :
    slice (putBe16 f k v) i j = slice f i j := by
  rw [slice_putBe16 _ _ _ _ _ h, putBe16_beyond]
  rw [length_slice]
  omega

/-- Halfwords at places apart can be put in either order. -/
theorem putBe16_comm (f : List Byte) (i k : Nat) (v w : Half) (h : i + 2 ≤ k) :
    putBe16 (putBe16 f i v) k w = putBe16 (putBe16 f k w) i v := by
  unfold putBe16 putByte
  rw [List.set_comm _ _ (show i + 1 ≠ k by omega), List.set_comm _ _ (show i ≠ k by omega),
    List.set_comm _ _ (show i + 1 ≠ k + 1 by omega), List.set_comm _ _ (show i ≠ k + 1 by omega)]

theorem append_putBe16 (f g : List Byte) (k : Nat) (v : Half) :
    f ++ putBe16 g k v = putBe16 (f ++ g) (f.length + k) v := by
  unfold putBe16 putByte
  rw [List.set_append_right _ _ (by omega), List.set_append_right _ _ (by omega)]
  congr <;> omega

/-- A halfword replaced, with or without room for both of its bytes. -/
theorem byteAt_putBe16_apart (f : List Byte) (k j : Nat) (v : Half) (h : j ≠ k) (h' : j ≠ k + 1) :
    byteAt (putBe16 f k v) j = byteAt f j := by
  rw [putBe16, byteAt_putByte, byteAt_putByte, if_neg (by omega), if_neg (by omega)]

/-! ## The two inserts -/

/-- The bytes a checksum is taken over when its store position counts as zero (R209, R211). -/
theorem slice_zeroStore {g : List Byte} {i j pos : Nat} (hj : j ≤ g.length) (hpos : pos + 2 ≤ g.length) :
    slice (zeroStore g pos) i j
      = (List.range (j - i)).map fun k => if i + k = pos ∨ i + k = pos + 1 then 0 else byteAt g (i + k) := by
  refine ext_byteAt _ _ (by simp only [length_slice, length_zeroStore, List.length_map, List.length_range]; omega)
    fun k hk => ?_
  replace hk : k < j - i := by rw [length_slice] at hk; omega
  rw [byteAt_slice _ _ _ _ hk, byteAt_map_range _ _ _ hk, zeroStore, byteAt_putBe16 _ _ _ _ hpos]
  by_cases h1 : i + k = pos
  · simp [h1]
  · by_cases h2 : i + k = pos + 1 <;> simp [h1, h2]

/-- What a frame reads as behind the insert of a checksum at `pos`. -/
theorem stored_putBe16 {g : List Byte} {pos : Nat} (v : Half) (hpos : pos + 2 ≤ g.length) :
    (putBe16 g pos v).length = g.length
      ∧ byteAt (putBe16 g pos v) pos ++ byteAt (putBe16 g pos v) (pos + 1) = v
      ∧ ∀ k, k ≠ pos → k ≠ pos + 1 → byteAt (putBe16 g pos v) k = byteAt g k :=
  ⟨length_putBe16 _ _ _, be16At_putBe16 g pos v hpos, fun k => byteAt_putBe16_apart g pos k v⟩

/-- Settles O40: the insert is one halfword, the checksum of the range with zeros at the store position. -/
theorem ipCkStores : Obligations.IpCkStores := by
  intro g ipStart l4Start ipCso _ hend hpos
  rw [← slice_zeroStore hend hpos]
  exact stored_putBe16 _ hpos

theorem slice_eq_map_range {g : List Byte} {i j n : Nat} (hj : j ≤ g.length) (hn : j = i + n) :
    slice g i j = (List.range n).map fun k => byteAt g (i + k) := by
  refine ext_byteAt _ _ (by simp only [length_slice, List.length_map, List.length_range]; omega) fun k hk => ?_
  replace hk : k < n := by rw [length_slice] at hk; omega
  rw [byteAt_slice _ _ _ _ (by omega), byteAt_map_range _ _ _ hk]

/-- The pseudo-header of R211 byte by byte. -/
theorem pseudoHeader_eq {g : List Byte} {ipStart : Nat} (l4Start : Nat) (h : ipStart + 20 ≤ g.length) :
    let len := (g.length - l4Start) % 2 ^ 16
    pseudoHeader g ipStart l4Start = ((List.range 8).map fun k => byteAt g (ipStart + 12 + k))
      ++ [0, byteAt g (ipStart + 9), BitVec.ofNat 8 (len / 256), BitVec.ofNat 8 (len % 256)] := by
  have hhigh (n : Nat) : (BitVec.ofNat 16 n).extractLsb' 8 8 = BitVec.ofNat 8 (n % 2 ^ 16 / 256) := by
    apply BitVec.eq_of_toNat_eq
    simp [BitVec.extractLsb'_toNat, Nat.shiftRight_eq_div_pow]
  have hlow (n : Nat) : (BitVec.ofNat 16 n).extractLsb' 0 8 = BitVec.ofNat 8 (n % 2 ^ 16 % 256) := by
    apply BitVec.eq_of_toNat_eq
    simp [BitVec.extractLsb'_toNat]
  intro len
  rw [pseudoHeader, slice_eq_map_range h (show ipStart + 20 = ipStart + 12 + 8 by omega), hhigh, hlow]

/-- Settles O41: the insert is one halfword, the checksum of the pseudo-header and of the L4 part with zeros at the
store position. -/
theorem l4CkStores : Obligations.L4CkStores := by
  intro g ipStart l4Start l4Cso hip _ hpos len ps z
  have hps : pseudoHeader g ipStart l4Start = ps := pseudoHeader_eq l4Start hip
  have hz : slice (zeroStore g l4Cso) l4Start g.length = z := slice_zeroStore (Nat.le_refl _) hpos
  rw [← hps, ← hz]
  exact stored_putBe16 _ hpos

/-! ## Inserting twice -/

theorem zeroStore_putBe16 (g : List Byte) (pos : Nat) (v : Half) : zeroStore (putBe16 g pos v) pos = zeroStore g pos :=
  putBe16_putBe16 g pos v 0

/-- The IP checksum does not depend on what its store position holds. -/
theorem ipCk_ipCk (g : List Byte) (ipStart l4Start ipCso : Nat) :
    ipCk (ipCk g ipStart l4Start ipCso) ipStart l4Start ipCso = ipCk g ipStart l4Start ipCso := by
  unfold ipCk
  rw [zeroStore_putBe16, putBe16_putBe16]

/-- A halfword behind the range of the IP checksum and its store position does not matter to it. -/
theorem ipCk_putBe16_behind (g : List Byte) {ipStart l4Start ipCso k : Nat} (v : Half)
    (hi : ipStart ≤ k) (hl : l4Start ≤ k) (hp : ipCso + 2 ≤ k) :
    ipCk (putBe16 g k v) ipStart l4Start ipCso = putBe16 (ipCk g ipStart l4Start ipCso) k v := by
  have hzero : zeroStore (putBe16 g k v) ipCso = putBe16 (zeroStore g ipCso) k v := (putBe16_comm g _ _ _ _ hp).symm
  rw [ipCk, hzero, slice_putBe16_behind _ _ _ _ _ hi hl, ← putBe16_comm _ _ _ _ _ hp]
  rfl

/-- A halfword behind the IP header does not matter to the pseudo-header. -/
theorem pseudoHeader_putBe16_behind (g : List Byte) {ipStart k : Nat} (l4Start : Nat) (v : Half)
    (h : ipStart + 20 ≤ k) :
    pseudoHeader (putBe16 g k v) ipStart l4Start = pseudoHeader g ipStart l4Start := by
  unfold pseudoHeader
  rw [slice_putBe16_behind _ _ _ _ _ (by omega) h, byteAt_putBe16_apart _ _ _ _ (by omega) (by omega), length_putBe16]

/-- The L4 checksum stored behind the IP header does not depend on what its store position holds. -/
theorem l4Ck_l4Ck (g : List Byte) {ipStart l4Cso : Nat} (l4Start : Nat) (h : ipStart + 20 ≤ l4Cso) :
    l4Ck (l4Ck g ipStart l4Start l4Cso) ipStart l4Start l4Cso = l4Ck g ipStart l4Start l4Cso := by
  unfold l4Ck
  rw [pseudoHeader_putBe16_behind _ _ _ h, zeroStore_putBe16, length_putBe16, putBe16_putBe16]

theorem singleFrame_eq (oc : OffloadCtx) (f : List Byte) :
    singleFrame oc f = match oc.ipcs, oc.l4cs with
      | false, false => f
      | true, false => ipCk f oc.ipStart oc.l4Start oc.ipCso
      | false, true => l4Ck f oc.ipStart oc.l4Start oc.l4Cso
      | true, true => l4Ck (ipCk f oc.ipStart oc.l4Start oc.ipCso) oc.ipStart oc.l4Start oc.l4Cso := by
  unfold singleFrame
  cases oc.ipcs <;> cases oc.l4cs <;> rfl

/-- Settles O42: each insert reads its own store position as zero, and with both the L4 checksum lies behind all that
the IP checksum reads. -/
theorem checksumIdempotent : Obligations.ChecksumIdempotent := by
  refine ⟨ipCk_ipCk, fun oc f hip hipCso hl4Cso => ?_⟩
  have hl4 (g : List Byte) := l4Ck_l4Ck (ipStart := oc.ipStart) (l4Cso := oc.l4Cso) g oc.l4Start (by omega)
  simp only [singleFrame_eq]
  match oc.ipcs, oc.l4cs with
  | false, false => rfl
  | true, false => exact ipCk_ipCk f _ _ _
  | false, true => exact hl4 f
  | true, true =>
    let g := ipCk f oc.ipStart oc.l4Start oc.ipCso
    have hkept : ipCk (l4Ck g oc.ipStart oc.l4Start oc.l4Cso) oc.ipStart oc.l4Start oc.ipCso
        = l4Ck g oc.ipStart oc.l4Start oc.l4Cso :=
      (ipCk_putBe16_behind g _ (by omega) hl4Cso (by omega)).trans
        (congrArg (putBe16 · oc.l4Cso _) (ipCk_ipCk f _ _ _))
    exact (congrArg (l4Ck · _ _ _) hkept).trans (hl4 g)

/-! ## Verifying a checksum -/

/-- A halfword at an even place adds its value to the sum. -/
theorem sumWords_putBe16 (b : List Byte) (i : Nat) (v : Half) (h : 2 * i + 2 ≤ b.length) :
    sumWords (putBe16 b (2 * i) v) = sumWords (putBe16 b (2 * i) 0) + v.toNat := by
  induction b using sumWords.induct generalizing i with
  | case1 => simp at h
  | case2 c => simp at h
  | case3 c d rest ih =>
    cases i with
    | zero =>
      have hput (w : Half) : putBe16 (c :: d :: rest) 0 w = w.extractLsb' 8 8 :: w.extractLsb' 0 8 :: rest := rfl
      have hval : (v.extractLsb' 8 8).toNat * 256 + (v.extractLsb' 0 8).toNat = v.toNat := by
        simp only [BitVec.extractLsb'_toNat, Nat.shiftRight_eq_div_pow]
        omega
      simp only [Nat.mul_zero, hput, sumWords, hval]
      simp [Nat.add_comm]
    | succ i =>
      have hput (w : Half) : putBe16 (c :: d :: rest) (2 * (i + 1)) w = c :: d :: putBe16 rest (2 * i) w := rfl
      simp only [List.length_cons] at h
      rw [hput, hput, sumWords, sumWords, ih i (by omega)]
      omega

/-- A range that holds its own checksum at an even place sums to a multiple of 0xFFFF (R220). -/
theorem csum_putBe16_csum (b : List Byte) (i : Nat) (h : 2 * i + 2 ≤ b.length) :
    csum (putBe16 b (2 * i) (csum (putBe16 b (2 * i) 0))) = 0 := by
  apply BitVec.eq_of_toNat_eq
  rw [toNat_csum, sumWords_putBe16 b i _ h, toNat_csum, endAround_add_complement]
  rfl

theorem csum_slice_ipCk {g : List Byte} {ipStart l4Start : Nat} (i : Nat) (h : ipStart + 2 * i + 2 ≤ l4Start)
    (hlen : l4Start ≤ g.length) :
    csum (slice (ipCk g ipStart l4Start (ipStart + 2 * i)) ipStart l4Start) = 0 := by
  unfold ipCk zeroStore
  rw [slice_putBe16 _ _ _ _ _ (by omega), slice_putBe16 _ _ _ _ _ (by omega), Nat.add_sub_cancel_left]
  apply csum_putBe16_csum
  rw [length_slice]
  omega

theorem csum_l4_l4Ck {g : List Byte} {ipStart l4Start : Nat} (i : Nat) (hip : ipStart + 20 ≤ l4Start)
    (h : l4Start + 2 * i + 2 ≤ g.length) :
    let g' := l4Ck g ipStart l4Start (l4Start + 2 * i)
    csum (pseudoHeader g' ipStart l4Start ++ slice g' l4Start g'.length) = 0 := by
  have hps : (pseudoHeader g ipStart l4Start).length = 2 * 6 := by
    simp only [pseudoHeader, List.length_append, length_slice, List.length_cons, List.length_nil]
    omega
  unfold l4Ck zeroStore
  simp only
  rw [pseudoHeader_putBe16_behind _ _ _ (by omega), length_putBe16, slice_putBe16 _ _ _ _ _ (by omega),
    slice_putBe16 _ _ _ _ _ (by omega), Nat.add_sub_cancel_left, append_putBe16, append_putBe16, hps, ← Nat.mul_add]
  apply csum_putBe16_csum
  rw [List.length_append, hps, length_slice]
  omega

end Sys2Proof.Machine
end

section
/-!
What `Emit` rejects and what it sends (`42_offload.md` R203 to R207, R212 to R214, R221, R223).
-/

namespace Sys2Proof.Machine

/-! ## Validity -/

theorem vlanValid_iff (oc : OffloadCtx) (flen : Nat) :
    vlanValid oc flen = true ↔ ¬(oc.vlan = true ∧ flen < 12) := by
  cases h : oc.vlan <;> simp [vlanValid, h]

theorem ipcsValid_iff (oc : OffloadCtx) (flen : Nat) :
    ipcsValid oc flen = true
      ↔ ¬(oc.ipcs = true ∧ ¬(oc.ipStart ≤ oc.l4Start ∧ oc.l4Start ≤ flen ∧ oc.ipCso + 2 ≤ flen)) := by
  cases h : oc.ipcs <;> simp [ipcsValid, h, and_assoc]

theorem l4csValid_iff (oc : OffloadCtx) (flen : Nat) :
    l4csValid oc flen = true
      ↔ ¬(oc.l4cs = true ∧ ¬(oc.ipStart + 20 ≤ flen ∧ oc.l4Start ≤ flen ∧ oc.l4Cso + 2 ≤ flen)) := by
  cases h : oc.l4cs <;> simp [l4csValid, h, and_assoc]

theorem tsoValid_iff (oc : OffloadCtx) (f : List Byte) :
    tsoValid oc f = true
      ↔ 1 ≤ oc.mss ∧ oc.ipStart + 20 ≤ oc.l4Start ∧ oc.l4Start + 20 ≤ oc.hdrLen ∧ oc.hdrLen ≤ f.length
        ∧ oc.ipCso + 2 ≤ oc.hdrLen ∧ oc.l4Cso + 2 ≤ oc.hdrLen ∧ byteAt f (oc.ipStart + 9) = 6 := by
  simp [tsoValid, and_assoc]

/-! ## What `Emit` answers -/

theorem emit_nil (oc : OffloadCtx) : emit oc [] = some [] := rfl

/-- A frame with a segmentation request. -/
theorem emit_tso {oc : OffloadCtx} {f : List Byte} (hne : f ≠ []) (htso : oc.tso = true) :
    emit oc f = if vlanValid oc f.length = true ∧ tsoValid oc f = true
      then some ((List.range (segCount oc f)).map fun k => wireFrame oc (segment oc f k)) else none := by
  rw [emit, if_neg (mt List.length_eq_zero_iff.mp hne), htso]
  cases vlanValid oc f.length <;> cases tsoValid oc f <;> rfl

/-- A frame without a segmentation request. -/
theorem emit_single {oc : OffloadCtx} {f : List Byte} (hne : f ≠ []) (htso : oc.tso = false) :
    emit oc f = if vlanValid oc f.length = true ∧ ipcsValid oc f.length = true ∧ l4csValid oc f.length = true
      then some [wireFrame oc (singleFrame oc f)] else none := by
  rw [emit, if_neg (mt List.length_eq_zero_iff.mp hne), htso]
  cases vlanValid oc f.length <;> cases ipcsValid oc f.length <;> cases l4csValid oc f.length <;> rfl

/-- Settles O43: each path of `Emit` answers unless one of its own conditions fails. -/
theorem emitRejectsExactly : Obligations.EmitRejectsExactly := by
  refine fun oc f => ⟨fun h => h ▸ emit_nil oc, fun hne => ?_⟩
  cases htso : oc.tso with
  | true =>
    rw [emit_tso hne htso, ite_eq_right_iff, vlanValid_iff, tsoValid_iff]
    simp [imp_iff_not_or]
  | false =>
    rw [emit_single hne htso, ite_eq_right_iff, vlanValid_iff, ipcsValid_iff, l4csValid_iff]
    simp [imp_iff_not_or]

/-! ## The wire frame -/

theorem wireFrame_untagged {oc : OffloadCtx} (g : List Byte) (h : oc.vlan = false) : wireFrame oc g = g := by
  simp [wireFrame, h]

/-- The tag stands behind the 12 bytes of the addresses (R221). -/
theorem wireFrame_tagged {oc : OffloadCtx} {g : List Byte} (h : oc.vlan = true) (hlen : 12 ≤ g.length) :
    (wireFrame oc g).length = g.length + 4 ∧ (wireFrame oc g).take 12 = g.take 12
      ∧ ((wireFrame oc g).drop 12).take 4 = [0x81, 0x00, oc.tci.extractLsb' 8 8, oc.tci.extractLsb' 0 8]
      ∧ (wireFrame oc g).drop 16 = g.drop 12 := by
  have haddr : (slice g 0 12).length = 12 := by rw [length_slice]; omega
  have hwire : wireFrame oc g = slice g 0 12
      ++ ([0x81, 0x00, oc.tci.extractLsb' 8 8, oc.tci.extractLsb' 0 8] ++ g.drop 12) := by
    rw [wireFrame, if_pos h, List.append_assoc]
  have hbehind := congrArg (List.drop 12) hwire
  rw [List.drop_left' haddr] at hbehind
  refine ⟨?_, ?_, by rw [hbehind]; rfl, ?_⟩
  · rw [hwire, List.length_append, haddr, List.length_append, List.length_drop]
    simp only [List.length_cons, List.length_nil]
    omega
  · rw [hwire, List.take_left' haddr]
    rfl
  · rw [show 16 = 12 + 4 from rfl, ← List.drop_drop, hbehind]
    rfl

/-- Settles O44: the one frame is the wire frame of the single-frame path, whose inserts keep the length. -/
theorem emitSingleFrame : Obligations.EmitSingleFrame := by
  intro oc f sent hne htso hsent
  rw [emit_single hne htso, Option.ite_none_right_eq_some, Option.some.injEq] at hsent
  obtain ⟨⟨hvlan, -, -⟩, rfl⟩ := hsent
  have hlen : (singleFrame oc f).length = f.length := length_singleFrame oc f
  refine ⟨singleFrame oc f, wireFrame oc (singleFrame oc f), rfl, fun hi hl => ?_, fun hi hl => ?_, fun hi hl => ?_,
    fun hi hl => ?_, hlen, wireFrame_untagged _, fun htag => ?_⟩
  case refine_5 =>
    have h12 : 12 ≤ (singleFrame oc f).length := by
      rw [hlen]
      exact Nat.le_of_not_lt fun hshort => (vlanValid_iff _ _).mp hvlan ⟨htag, hshort⟩
    exact ⟨h12, wireFrame_tagged htag h12⟩
  all_goals rw [singleFrame_eq, hi, hl]

/-! ## Segments -/

/-- There is a segment `k` exactly when payload is left at its start. -/
theorem lt_segCount_iff {oc : OffloadCtx} (f : List Byte) (k : Nat) (hmss : 1 ≤ oc.mss) :
    k < segCount oc f ↔ k * oc.mss < payloadLen oc f := by
  rw [segCount, ← Nat.succ_le_iff, Nat.le_div_iff_mul_le hmss, Nat.succ_mul]
  omega

theorem drop_putByte (f : List Byte) {k n : Nat} (b : Byte) (h : k < n) : (putByte f k b).drop n = f.drop n := by
  rw [putByte, List.drop_set, if_pos h]

theorem drop_putBe16 (f : List Byte) {k n : Nat} (v : Half) (h : k + 2 ≤ n) : (putBe16 f k v).drop n = f.drop n := by
  rw [putBe16, drop_putByte _ _ (by omega), drop_putByte _ _ (by omega)]

theorem drop_putBe32 (f : List Byte) {k n : Nat} (w : Word) (h : k + 4 ≤ n) : (putBe32 f k w).drop n = f.drop n := by
  rw [putBe32, drop_putBe16 _ _ (by omega), drop_putBe16 _ _ (by omega)]

theorem drop_clearPshFin (oc : OffloadCtx) (f : List Byte) (k : Nat) (seg : List Byte) {n : Nat}
    (h : oc.l4Start + 14 ≤ n) : (clearPshFin oc f k seg).drop n = seg.drop n := by
  unfold clearPshFin
  split
  · exact drop_putByte _ _ (by omega)
  · rfl

theorem length_header {oc : OffloadCtx} {f : List Byte} (h : oc.hdrLen ≤ f.length) :
    (slice f 0 oc.hdrLen).length = oc.hdrLen := by
  rw [length_slice]
  omega

/-- Everything R215 to R217 rewrite lies in the header. -/
theorem drop_segment {oc : OffloadCtx} {f : List Byte} (k : Nat) (hvalid : tsoValid oc f = true) :
    (segment oc f k).drop oc.hdrLen = ((f.drop oc.hdrLen).drop (k * oc.mss)).take oc.mss := by
  obtain ⟨_, hip, hl4, hhdr, hipCso, hl4Cso, _⟩ := (tsoValid_iff oc f).mp hvalid
  rw [segment, l4Ck, drop_putBe16 _ _ hl4Cso, ipCk, drop_putBe16 _ _ hipCso, drop_clearPshFin _ _ _ _ (by omega),
    rewriteFields, drop_putBe32 _ _ (by omega), drop_putBe16 _ _ (by omega), drop_putBe16 _ _ (by omega),
    rawSegment, List.drop_left' (length_header hhdr), slice, Nat.add_sub_cancel_left, List.drop_drop, chunkLen,
    List.take_eq_take_min, List.take_eq_take_min (i := oc.mss), payloadLen, List.length_drop]
  congr 1
  omega

theorem length_segment_eq {oc : OffloadCtx} {f : List Byte} (k : Nat) (hvalid : tsoValid oc f = true) :
    (segment oc f k).length = oc.hdrLen + chunkLen oc f k := by
  obtain ⟨_, _, _, hhdr, _, _, _⟩ := (tsoValid_iff oc f).mp hvalid
  rw [length_segment, rawSegment, List.length_append, length_header hhdr, length_slice, chunkLen, payloadLen]
  omega

/-- Pieces of `m` elements, one after the other, make up the list as far as they reach. -/
theorem flatten_pieces {α : Type} (p : List α) (m n : Nat) :
    ((List.range n).map fun k => (p.drop (k * m)).take m).flatten = p.take (n * m) := by
  induction n with
  | zero => simp
  | succ n ih => simp [List.range_succ, ih, Nat.succ_mul, List.take_add]

/-- Settles O45: nothing beyond the header is rewritten, and the payload pieces of the segments cover it. -/
theorem tsoPayload : Obligations.TsoPayload := by
  intro oc f sent hne htso hsent n
  rw [emit_tso hne htso, Option.ite_none_right_eq_some, Option.some.injEq] at hsent
  obtain ⟨⟨-, hvalid⟩, rfl⟩ := hsent
  have hmss : 1 ≤ oc.mss := ((tsoValid_iff oc f).mp hvalid).1
  have hcount (k : Nat) : k < n ↔ k * oc.mss < payloadLen oc f := lt_segCount_iff f k hmss
  refine ⟨(List.range n).map (segment oc f), by rw [List.map_map]; rfl, by simp, ?_, fun k g hg => ?_⟩
  · have hcover : (f.drop oc.hdrLen).length ≤ n * oc.mss := by
      rw [List.length_drop]
      exact Nat.le_of_not_lt (mt (hcount n).mpr (Nat.lt_irrefl n))
    rw [List.map_map, ← List.take_of_length_le hcover, ← flatten_pieces]
    simp only [Function.comp_def, drop_segment _ hvalid]
  · rw [List.getElem?_map, Option.map_eq_some_iff] at hg
    obtain ⟨i, hi, rfl⟩ := hg
    obtain ⟨hk, rfl⟩ := List.getElem?_eq_some_iff.mp hi
    rw [List.length_range] at hk
    have hleft := (hcount k).mp hk
    have hnext := hcount (k + 1)
    rw [Nat.succ_mul] at hnext
    rw [List.getElem_range, length_segment_eq _ hvalid, chunkLen]
    unfold payloadLen at *
    omega

end Sys2Proof.Machine
end

section
/-!
The header of a segment and its two checksums (`42_offload.md` R215 to R217, R220).
-/

namespace Sys2Proof.Machine

/-! ## Fields of a frame with bytes replaced -/

theorem be16At_congr {f g : List Byte} {j : Nat} (h : ∀ i < 2, byteAt f (j + i) = byteAt g (j + i)) :
    be16At f j = be16At g j := by
  have h0 := h 0 (by decide)
  have h1 := h 1 (by decide)
  rw [Nat.add_zero] at h0
  rw [be16At, h0, h1, be16At]

theorem be32At_eq (f : List Byte) (j : Nat) : be32At f j = be16At f j ++ be16At f (j + 2) :=
  BitVec.append_assoc ..

theorem be32At_congr {f g : List Byte} {j : Nat} (h : ∀ i < 4, byteAt f (j + i) = byteAt g (j + i)) :
    be32At f j = be32At g j := by
  rw [be32At_eq, be32At_eq, be16At_congr fun i hi => h i (by omega),
    be16At_congr (j := j + 2) fun i hi => Nat.add_assoc j 2 i ▸ h (2 + i) (by omega)]

theorem byteAt_putBe32_apart (f : List Byte) (k j : Nat) (w : Word) (h : j < k ∨ k + 4 ≤ j) :
    byteAt (putBe32 f k w) j = byteAt f j := by
  rw [putBe32, byteAt_putBe16_apart _ _ _ _ (by omega) (by omega), byteAt_putBe16_apart _ _ _ _ (by omega) (by omega)]

/-- A word put together from its two halves. -/
theorem word_of_halves (w : Word) : w.extractLsb' 16 16 ++ w.extractLsb' 0 16 = w := by
  apply BitVec.eq_of_getLsbD_eq
  intro i hi
  simp only [BitVec.getLsbD_append, BitVec.getLsbD_extractLsb']
  by_cases hlow : i < 16
  · simp [hlow]
  · simp [hlow, show i - 16 < 16 by omega, show 16 + (i - 16) = i by omega]

/-- A word just replaced reads back. -/
theorem be32At_putBe32 (f : List Byte) (k : Nat) (w : Word) (hk : k + 4 ≤ f.length) :
    be32At (putBe32 f k w) k = w := by
  have hhigh : be16At (putBe32 f k w) k = w.extractLsb' 16 16 := by
    rw [putBe32, be16At_congr fun i hi => byteAt_putBe16_apart _ _ _ _ (by omega) (by omega)]
    exact be16At_putBe16 _ _ _ (by omega)
  have hlow : be16At (putBe32 f k w) (k + 2) = w.extractLsb' 0 16 :=
    be16At_putBe16 _ _ _ (by rw [length_putBe16]; omega)
  rw [be32At_eq, hhigh, hlow, word_of_halves]

/-! ## The header fields (R215, R216) -/

theorem byteAt_rewriteFields_apart (oc : OffloadCtx) (f : List Byte) (k : Nat) (seg : List Byte) {j : Nat}
    (hip : ¬(oc.ipStart + 2 ≤ j ∧ j < oc.ipStart + 6)) (hseq : ¬(oc.l4Start + 4 ≤ j ∧ j < oc.l4Start + 8)) :
    byteAt (rewriteFields oc f k seg) j = byteAt seg j := by
  rw [rewriteFields, byteAt_putBe32_apart _ _ _ _ (by omega), byteAt_putBe16_apart _ _ _ _ (by omega) (by omega),
    byteAt_putBe16_apart _ _ _ _ (by omega) (by omega)]

/-- The three rewritten fields of R215, in a header with the IP header in front of the TCP header. -/
theorem rewriteFields_fields {oc : OffloadCtx} (f : List Byte) (k : Nat) {seg : List Byte}
    (hip : oc.ipStart + 20 ≤ oc.l4Start) (hlen : oc.l4Start + 8 ≤ seg.length) :
    be16At (rewriteFields oc f k seg) (oc.ipStart + 2) = BitVec.ofNat 16 (oc.hdrLen - oc.ipStart + chunkLen oc f k)
      ∧ be16At (rewriteFields oc f k seg) (oc.ipStart + 4) = be16At f (oc.ipStart + 4) + BitVec.ofNat 16 k
      ∧ be32At (rewriteFields oc f k seg) (oc.l4Start + 4)
          = be32At f (oc.l4Start + 4) + BitVec.ofNat 32 (k * oc.mss) := by
  unfold rewriteFields
  refine ⟨?_, ?_, be32At_putBe32 _ _ _ (by simpa only [length_putBe16])⟩
  · rw [be16At_congr fun i hi => byteAt_putBe32_apart _ _ _ _ (by omega),
      be16At_congr fun i hi => byteAt_putBe16_apart _ _ _ _ (by omega) (by omega)]
    exact be16At_putBe16 _ _ _ (by omega)
  · rw [be16At_congr fun i hi => byteAt_putBe32_apart _ _ _ _ (by omega)]
    exact be16At_putBe16 _ _ _ (by rw [length_putBe16]; omega)

theorem byteAt_clearPshFin_apart (oc : OffloadCtx) (f : List Byte) (k : Nat) (seg : List Byte) {j : Nat}
    (h : j ≠ oc.l4Start + 13) : byteAt (clearPshFin oc f k seg) j = byteAt seg j := by
  unfold clearPshFin
  split
  · rw [byteAt_putByte, if_neg (by omega)]
  · rfl

/-- The TCP flags of a segment: cleared of `PSH` and `FIN` in all but the last. -/
theorem byteAt_clearPshFin_flags {oc : OffloadCtx} (f : List Byte) (k : Nat) {seg : List Byte}
    (h : oc.l4Start + 13 < seg.length) :
    byteAt (clearPshFin oc f k seg) (oc.l4Start + 13)
      = if k + 1 < segCount oc f then byteAt seg (oc.l4Start + 13) &&& 0xF6 else byteAt seg (oc.l4Start + 13) := by
  unfold clearPshFin
  split
  · rw [byteAt_putByte, if_pos ⟨rfl, h⟩]
  · rfl

theorem byteAt_rawSegment {oc : OffloadCtx} {f : List Byte} (k : Nat) {j : Nat} (hlen : oc.hdrLen ≤ f.length)
    (h : j < oc.hdrLen) : byteAt (rawSegment oc f k) j = byteAt f j := by
  rw [rawSegment, byteAt_append_left _ _ _ (by rwa [length_header hlen]), byteAt_slice _ _ _ _ h, Nat.zero_add]

theorem hdrLen_le_length_rawSegment {oc : OffloadCtx} {f : List Byte} (k : Nat) (hlen : oc.hdrLen ≤ f.length) :
    oc.hdrLen ≤ (rawSegment oc f k).length := by
  rw [rawSegment, List.length_append, length_header hlen]
  exact Nat.le_add_right _ _

/-- Behind the two checksums a segment reads as the rewritten template. -/
theorem byteAt_segment_apart (oc : OffloadCtx) (f : List Byte) (k : Nat) {j : Nat}
    (hip : ¬(oc.ipCso ≤ j ∧ j < oc.ipCso + 2)) (hl4 : ¬(oc.l4Cso ≤ j ∧ j < oc.l4Cso + 2)) :
    byteAt (segment oc f k) j = byteAt (clearPshFin oc f k (rewriteFields oc f k (rawSegment oc f k))) j := by
  rw [segment, l4Ck, byteAt_putBe16_apart _ _ _ _ (by omega) (by omega), ipCk,
    byteAt_putBe16_apart _ _ _ _ (by omega) (by omega)]

/-- Settles O46: with the checksums at their places in the headers, every field of R215 and R216 is written once. -/
theorem tsoHeader : Obligations.TsoHeader := by
  intro oc f k hvalid hk hipCso hl4Cso g last
  obtain ⟨_, hip, hl4, hhdr, _, _, _⟩ := (tsoValid_iff oc f).mp hvalid
  have hraw := hdrLen_le_length_rawSegment k hhdr
  obtain ⟨htotal, hident, hseq⟩ := rewriteFields_fields (seg := rawSegment oc f k) f k hip (by omega)
  have hflags : byteAt g (oc.l4Start + 13)
      = if k + 1 < segCount oc f then byteAt f (oc.l4Start + 13) &&& 0xF6 else byteAt f (oc.l4Start + 13) := by
    rw [byteAt_segment_apart _ _ _ (by omega) (by omega),
      byteAt_clearPshFin_flags _ _ (by rw [length_rewriteFields]; omega), byteAt_rewriteFields_apart _ _ _ _ (by omega) (by omega),
      byteAt_rawSegment _ hhdr (by omega)]
  have hrest {j : Nat} (h13 : j ≠ oc.l4Start + 13) (hi : ¬(oc.ipCso ≤ j ∧ j < oc.ipCso + 2))
      (hl : ¬(oc.l4Cso ≤ j ∧ j < oc.l4Cso + 2)) :
      byteAt g j = byteAt (rewriteFields oc f k (rawSegment oc f k)) j :=
    (byteAt_segment_apart _ _ _ hi hl).trans (byteAt_clearPshFin_apart _ _ _ _ h13)
  refine ⟨?_, ?_, ?_, fun hlast => ?_, fun hlast => ?_, fun j hj hfields hseqs h13 hi hl => ?_⟩
  · rw [be16At_congr fun i hi => hrest (by omega) (by omega) (by omega), htotal, BitVec.toNat_ofNat]
    rfl
  · rw [be16At_congr fun i hi => hrest (by omega) (by omega) (by omega), hident, BitVec.toNat_add, BitVec.toNat_ofNat,
      Nat.add_mod_mod]
  · rw [be32At_congr fun i hi => hrest (by omega) (by omega) (by omega), hseq, BitVec.toNat_add, BitVec.toNat_ofNat,
      Nat.add_mod_mod]
  · have hlast : k + 1 = segCount oc f := hlast
    rw [hflags, if_neg (by omega)]
  · have hlast : ¬k + 1 = segCount oc f := hlast
    rw [hflags, if_pos (by omega)]
  · rw [hrest h13 hi hl, byteAt_rewriteFields_apart _ _ _ _ hfields hseqs, byteAt_rawSegment _ hhdr hj]

/-! ## The checksums (R217, R220) -/

/-- Settles O47: each checksum was computed over its range with zeros at an even place, and is stored there; the L4
checksum lies behind the range of the IP checksum. -/
theorem tsoChecksumsVerify : Obligations.TsoChecksumsVerify := by
  intro oc f k hvalid _ hipCso hl4Cso g
  obtain ⟨_, hip, hl4, hhdr, _, _, _⟩ := (tsoValid_iff oc f).mp hvalid
  have hraw := hdrLen_le_length_rawSegment k hhdr
  have hipCso : oc.ipCso = oc.ipStart + 2 * 5 := hipCso
  have hl4Cso : oc.l4Cso = oc.l4Start + 2 * 8 := hl4Cso
  dsimp only [g]
  rw [segment, hipCso, hl4Cso]
  constructor
  · rw [l4Ck, slice_putBe16_behind _ _ _ _ _ (by omega) (by omega)]
    apply csum_slice_ipCk
    · omega
    · rw [length_clearPshFin, length_rewriteFields]
      omega
  · apply csum_l4_l4Ck
    · exact hip
    · rw [length_ipCk, length_clearPshFin, length_rewriteFields]
      omega

end Sys2Proof.Machine
end

section
/-!
The filter engine: the class of a destination address, the test each class gets, and the two CRCs
(`43_rx_filter.md` R242 to R250, R261).
-/

namespace Sys2Proof.Machine

/-! ## Address classes -/

/-- The class of a destination address, by the match kind it is accepted as (`43_rx_filter.md` R246 to R248). -/
def addressClass (dst : List Byte) : MatchKind :=
  if dst = List.replicate 6 0xFF then .broadcast else if (byteAt dst 0).getLsbD 0 then .multicast else .unicast

/-- The test of a class: its own bit of `RX_FILTER`, and for two of them a comparison (`43_rx_filter.md` R246 to
R248). -/
def classAccepted (e : Engine) (dst : List Byte) : MatchKind → Bool
  | .unicast => e.accUcast && decide (dst = macBytes e)
  | .broadcast => e.accBcast
  | .multicast => e.accMcast && (mhash e).getLsbD (mhashIndex dst).toNat
  | .promiscuous => false

/-- No address is of the class `promiscuous`. -/
theorem addressClass_ne_promiscuous (dst : List Byte) : addressClass dst ≠ .promiscuous := by
  unfold addressClass
  split
  · nofun
  · split <;> nofun

/-- The broadcast address is a group address. -/
theorem group_of_allOnes {dst : List Byte} (h : dst = List.replicate 6 0xFF) : (byteAt dst 0).getLsbD 0 = true := by
  rw [h]; rfl

theorem addressClass_broadcast_iff (dst : List Byte) :
    addressClass dst = .broadcast ↔ dst = List.replicate 6 0xFF := by
  unfold addressClass
  split_ifs with hones
  · exact iff_of_true rfl hones
  · exact iff_of_false nofun hones
  · exact iff_of_false nofun hones

theorem addressClass_multicast_iff (dst : List Byte) :
    addressClass dst = .multicast ↔ (byteAt dst 0).getLsbD 0 = true ∧ dst ≠ List.replicate 6 0xFF := by
  unfold addressClass
  split_ifs with hones hgroup
  · exact iff_of_false nofun fun h => h.2 hones
  · exact iff_of_true rfl ⟨hgroup, hones⟩
  · exact iff_of_false nofun fun h => hgroup h.1

theorem addressClass_unicast_iff (dst : List Byte) :
    addressClass dst = .unicast ↔ ¬(byteAt dst 0).getLsbD 0 = true := by
  unfold addressClass
  split_ifs with hones hgroup
  · exact iff_of_false nofun (not_not.mpr (group_of_allOnes hones))
  · exact iff_of_false nofun (not_not.mpr hgroup)
  · exact iff_of_true rfl hgroup

/-! ## Classification -/

/-- The answer of `classify` is the class of the destination when its test accepts, and else what `PROMISC` says
(`43_rx_filter.md` R242, R249). -/
theorem classify_eq {f : List Byte} (e : Engine) (hlen : 6 ≤ f.length) :
    classify e f
      = if classAccepted e (f.take 6) (addressClass (f.take 6)) then some (addressClass (f.take 6))
        else if e.promisc then some .promiscuous else none := by
  unfold classify
  rw [if_neg (Nat.not_lt.mpr hlen)]
  by_cases hones : f.take 6 = List.replicate 6 0xFF
  · simp only [addressClass, if_pos hones, classAccepted]
    cases e.accBcast <;> rfl
  · by_cases hgroup : (byteAt (f.take 6) 0).getLsbD 0 = true
    · simp only [addressClass, if_neg hones, if_pos hgroup, classAccepted]
      cases e.accMcast && (mhash e).getLsbD (mhashIndex (f.take 6)).toNat <;> rfl
    · simp only [addressClass, if_neg hones, if_neg hgroup, classAccepted]
      cases e.accUcast && decide (f.take 6 = macBytes e) <;> rfl

/-- A frame shorter than an address is rejected (`43_rx_filter.md` R244). -/
theorem classify_short {f : List Byte} (e : Engine) (h : f.length < 6) : classify e f = none := by
  unfold classify
  exact if_pos h

/-- A frame is accepted as a class exactly when its destination is of the class and passes the test
(`43_rx_filter.md` R246 to R248). -/
theorem classify_class_iff {e : Engine} {f : List Byte} {m : MatchKind} (hlen : 6 ≤ f.length)
    (hm : m ≠ .promiscuous) :
    classify e f = some m ↔ addressClass (f.take 6) = m ∧ classAccepted e (f.take 6) m = true := by
  rw [classify_eq e hlen]
  split
  · next hacc =>
    rw [Option.some_inj]
    exact ⟨fun h => ⟨h, h ▸ hacc⟩, And.left⟩
  · next hrej =>
    have hpromisc : (if e.promisc then some MatchKind.promiscuous else none) ≠ some m := by
      split
      · exact fun h => hm (Option.some.inj h).symm
      · nofun
    exact ⟨fun h => absurd h hpromisc, fun ⟨h, hacc⟩ => absurd (h ▸ hacc) hrej⟩

/-- With `PROMISC` every frame that has a destination is accepted (`43_rx_filter.md` R249). -/
theorem classify_promisc {e : Engine} {f : List Byte} (hlen : 6 ≤ f.length) (h : e.promisc = true) :
    classify e f ≠ none := by
  rw [classify_eq e hlen, h]
  split <;> nofun

/-- Without `PROMISC` no frame is accepted as `promiscuous` (`43_rx_filter.md` R249). -/
theorem classify_not_promisc {e : Engine} {f : List Byte} (hlen : 6 ≤ f.length) (h : e.promisc = false) :
    classify e f ≠ some .promiscuous := by
  rw [classify_eq e hlen, h]
  split
  · exact fun heq => addressClass_ne_promiscuous _ (Option.some.inj heq)
  · nofun

/-- Without a filter bit no test accepts. -/
theorem classAccepted_noFilter {e : Engine} (dst : List Byte) (m : MatchKind) (h : e.rxFilter = 0) :
    classAccepted e dst m = false := by
  cases m <;> simp [classAccepted, Engine.accUcast, Engine.accBcast, Engine.accMcast, h]

/-- Without a filter bit nothing is accepted (`43_rx_filter.md` R250). -/
theorem classify_noFilter {e : Engine} {f : List Byte} (hlen : 6 ≤ f.length) (h : e.rxFilter = 0) :
    classify e f = none := by
  have hpromisc : e.promisc = false := by simp [Engine.promisc, h]
  rw [classify_eq e hlen, classAccepted_noFilter _ _ h, hpromisc]
  rfl

/-- The first byte of a destination is the first byte of its frame. -/
theorem byteAt_take_zero (f : List Byte) : byteAt (f.take 6) 0 = byteAt f 0 := by
  simp [byteAt, List.getD_eq_getElem?_getD]

/-- A bit of the hash bitmap, by the register it stands in (`10_state.md` R46). -/
theorem getLsbD_mhash (e : Engine) (i : Nat) :
    (mhash e).getLsbD i = if i < 32 then e.mhashLo.getLsbD i else e.mhashHi.getLsbD (i - 32) := by
  rw [mhash, wide, BitVec.getLsbD_append]

/-- Settles O48: the class of the destination decides which test is made. -/
theorem classifyByClass : Obligations.ClassifyByClass := by
  intro e f dst allOnes group bit mac
  have hbit : (mhash e).getLsbD (mhashIndex dst).toNat = bit := getLsbD_mhash e _
  have hgroup : group ↔ (byteAt dst 0).getLsbD 0 = true := by rw [byteAt_take_zero]
  refine ⟨classify_short e, fun hlen => ⟨?broadcast, ?multicast, ?unicast, classify_promisc hlen,
    classify_not_promisc hlen, classify_noFilter hlen⟩⟩
  case broadcast =>
    rw [classify_class_iff hlen (by decide), addressClass_broadcast_iff]
    rfl
  case multicast =>
    rw [classify_class_iff hlen (by decide), addressClass_multicast_iff, hgroup, classAccepted, Bool.and_eq_true, hbit,
      and_assoc]
    rfl
  case unicast =>
    rw [classify_class_iff hlen (by decide), addressClass_unicast_iff, hgroup, classAccepted, Bool.and_eq_true,
      decide_eq_true_iff]
    rfl

/-! ## The two CRCs -/

/-- Settles O50: the two CRCs of these bytes, computed. -/
theorem crcValues : Obligations.CrcValues := by
  refine ⟨?_, ?_, ?_, ?_, ?_, ?_, ?_, ?_⟩ <;> decide +kernel

end Sys2Proof.Machine
end

section
/-!
A receive call before its first fetch, and the fetch that finds no descriptor (`43_rx_filter.md` R240, R241, R251,
R252, R261 to R263).
-/

namespace Sys2Proof.Machine

/-- The overrun of the statements (`43_rx_filter.md` R263). -/
theorem overrun_eq_afterOverrun (s : State) (es : List Event) :
    overrun { s with events := s.events ++ es } = afterOverrun s es := by
  rw [overrun_eq]
  rfl

theorem overrun_eq_afterOverrun_nil (s : State) : overrun s = afterOverrun s [] := by
  rw [← overrun_eq_afterOverrun, List.append_nil]

/-- The VLAN indication as one decision (`43_rx_filter.md` R252). -/
theorem vlanTagged_eq (f : List Byte) :
    vlanTagged f = decide (14 ≤ f.length ∧ byteAt f 12 = 0x81 ∧ byteAt f 13 = 0x00) := by
  simp only [vlanTagged, Bool.decide_and, Bool.and_assoc]
  rfl

/-- An accepted frame of an enabled receiver is not dropped (`43_rx_filter.md` R241, R251). -/
theorem not_dropped {e : Engine} {f : List Byte} {m : MatchKind} (hen : e.rxEn = true) (hm : classify e f = some m) :
    ¬(e.rxEn = false ∨ classify e f = none) := by
  simp [hen, hm]

/-- Settles O49: a machine at rest takes the call, and each outcome of `receive` meets its own clause. -/
theorem transportCalls : Obligations.TransportCalls := by
  refine ⟨fun s rest hop hi => step_input (by rw [hop]) hi, fun s f rest hop hi => ?_⟩
  have hrest : endOp { s with inputs := rest } = { s with inputs := rest } := by simp only [endOp, ← hop]
  rw [step_input (by rw [hop]) hi, presentedTo]
  obtain ⟨hdrop, e⟩ | ⟨hen, ⟨m, hm⟩, hcap, e⟩ | ⟨m, hen, hm, hcap, e⟩ := receive_cases f { s with inputs := rest }
    <;> rw [e]
  · exact ⟨fun _ => by rw [hrest], fun m hen hm => absurd hdrop (not_dropped hen hm)⟩
  · exact ⟨fun hdrop => absurd hdrop (not_dropped hen hm),
      fun _ _ _ => ⟨fun _ => by rw [overrun_eq_afterOverrun_nil], fun hring => absurd hcap hring⟩⟩
  · refine ⟨fun hdrop => absurd hdrop (not_dropped hen hm), fun _ _ hm' => ⟨fun h => absurd h hcap, fun _ => ?_⟩⟩
    obtain rfl := Option.some.inj (hm.symm.trans hm')
    rw [vlanTagged_eq]
    rfl

/-- A faulting fetch of a delivery is an overrun (`43_rx_filter.md` R263; `40_ring_and_descriptor.md` R141). -/
theorem step_rxScan_fault {s t : State} (hp : s.op.phase = .rxScan)
    (h : memRead (slotAddr s.eng.rxr s.op.rx.next) 32 s = (none, t)) : step s = .next (overrun t) := by
  have hfetch : fetchSlot s.eng.rxr s.op.rx.next s = (none, t) := h
  simp only [step, fetchNext, hp, fetchRx, hfetch, rxFetchFault]

/-- Settles O51: a host-owned row is the overrun itself, a faulting fetch the overrun behind the call and its
report. -/
theorem rxNoDescriptorOverruns : Obligations.RxNoDescriptorOverruns := by
  refine ⟨fun s d => ?host, fun s r rest hp hreplies hf => ?fault⟩
  case host => exact congrArg Host.Outcome.next (overrun_eq_afterOverrun_nil s)
  case fault =>
    rw [← overrun_eq_afterOverrun, step_rxScan_fault hp (memRead_fault _ _ hreplies hf), afterCall, hreplies]
    rfl

end Sys2Proof.Machine
end

section
/-!
SUPPORT. The write phase of a delivery as one list of memory writes, each one collaborator call, with the RX index
moved behind every element written back (`43_rx_filter.md` R267).
-/

namespace Sys2Proof.Machine

/-! ## A list of writes -/

/-- Memory writes in order, up to the first that faults. -/
def memWrites : List (Addr × List Byte) → State → Bool × State
  | [], s => (true, s)
  | w :: ws, s =>
    if (memWrite w.1 w.2 s).1 then memWrites ws (memWrite w.1 w.2 s).2 else (false, (memWrite w.1 w.2 s).2)

/-- The RX index at `i`. -/
def rxAtIndex (i : Half) (s : State) : State := { s with eng.rxr.idx := i }

@[simp] theorem memWrites_nil (s : State) : memWrites [] s = (true, s) := rfl

theorem memWrites_cons_ok {w : Addr × List Byte} {s t : State} (ws : List (Addr × List Byte))
    (h : memWrite w.1 w.2 s = (true, t)) : memWrites (w :: ws) s = memWrites ws t := by
  simp [memWrites, h]

theorem memWrites_cons_fault {w : Addr × List Byte} {s t : State} (ws : List (Addr × List Byte))
    (h : memWrite w.1 w.2 s = (false, t)) : memWrites (w :: ws) s = (false, t) := by
  simp [memWrites, h]

@[simp] theorem memWrites_eng (ws : List (Addr × List Byte)) (s : State) : (memWrites ws s).2.eng = s.eng := by
  induction ws generalizing s with
  | nil => rfl
  | cons w ws ih => unfold memWrites; split <;> simp [ih]

@[simp] theorem memWrites_op (ws : List (Addr × List Byte)) (s : State) : (memWrites ws s).2.op = s.op := by
  induction ws generalizing s with
  | nil => rfl
  | cons w ws ih => unfold memWrites; split <;> simp [ih]

/-- Writes leave the operation in progress. -/
theorem op_of_memWrites {ws : List (Addr × List Byte)} {ok : Bool} {s t : State} (h : memWrites ws s = (ok, t)) :
    t.op = s.op := by
  rw [← memWrites_op ws s, h]

/-- Writes leave the engine. -/
theorem eng_of_memWrites {ws : List (Addr × List Byte)} {ok : Bool} {s t : State} (h : memWrites ws s = (ok, t)) :
    t.eng = s.eng := by
  rw [← memWrites_eng ws s, h]

/-- Writes in two parts, the second if the first part does not fault. -/
theorem memWrites_append (as bs : List (Addr × List Byte)) (s : State) :
    memWrites (as ++ bs) s = if (memWrites as s).1 then memWrites bs (memWrites as s).2 else memWrites as s := by
  induction as generalizing s with
  | nil => rfl
  | cons w as ih =>
    cases hw : memWrite w.1 w.2 s with
    | mk ok t =>
      cases ok with
      | true => rw [List.cons_append, memWrites_cons_ok _ hw, memWrites_cons_ok _ hw, ih]
      | false => rw [List.cons_append, memWrites_cons_fault _ hw, memWrites_cons_fault _ hw]; rfl

/-- The first part of writes that do not fault does not fault. -/
theorem memWrites_append_ok {as bs : List (Addr × List Byte)} {s t : State} (h : memWrites (as ++ bs) s = (true, t)) :
    ∃ u, memWrites as s = (true, u) ∧ memWrites bs u = (true, t) := by
  rw [memWrites_append] at h
  split at h
  · next hok => exact ⟨_, Prod.ext hok rfl, h⟩
  · next hfault => exact absurd (congrArg Prod.fst h) hfault

/-- Writes stop at the write that faults. -/
theorem memWrites_fault_at {ws : List (Addr × List Byte)} {j : Nat} {w : Addr × List Byte} {s t u : State}
    (hj : ws[j]? = some w) (hmade : memWrites (ws.take j) s = (true, t)) (hw : memWrite w.1 w.2 t = (false, u)) :
    memWrites ws s = (false, u) := by
  obtain ⟨hlt, rfl⟩ := List.getElem?_eq_some_iff.mp hj
  rw [← List.take_append_drop j ws, List.drop_eq_getElem_cons hlt, memWrites_append, hmade, if_pos rfl]
  exact memWrites_cons_fault _ hw

/-- A write looks at no engine state. -/
theorem memWrite_rxAtIndex (i : Half) (a : Addr) (bs : List Byte) (s : State) :
    memWrite a bs (rxAtIndex i s) = ((memWrite a bs s).1, rxAtIndex i (memWrite a bs s).2) := by
  obtain ⟨c, e, o, m, rs, ins, evs⟩ := s
  cases rs with
  | nil => rfl
  | cons r rest =>
    obtain ⟨sts, ans⟩ := r
    cases ans <;> rfl

theorem memWrites_rxAtIndex (i : Half) (ws : List (Addr × List Byte)) (s : State) :
    memWrites ws (rxAtIndex i s) = ((memWrites ws s).1, rxAtIndex i (memWrites ws s).2) := by
  induction ws generalizing s with
  | nil => rfl
  | cons w ws ih =>
    simp only [memWrites, memWrite_rxAtIndex, ih]
    split <;> rfl

/-- Writes to plain RAM (`20_memory.md` R72). -/
theorem memWrites_plain (ws : List (Addr × List Byte)) {s : State} (h : s.replies = []) :
    memWrites ws s = (true, { s with
      mem := ws.foldl (fun m w => m.writeBytes w.1.toNat w.2) s.mem
      events := s.events ++ ws.map fun w => .memWrite w.1 w.2 true }) := by
  induction ws generalizing s with
  | nil => simp
  | cons w ws ih =>
    rw [memWrites_cons_ok ws (memWrite_plain w.1 w.2 s h), ih (by simpa using h)]
    simp [logEvent]

/-- A write answered as by plain RAM (`20_memory.md` R72, R86). -/
theorem memWrite_answered {r : Reply} {rest : List Reply} {s : State} (a : Addr) (bs : List Byte)
    (hr : s.replies = r :: rest) (h : r.answer = .plain) :
    memWrite a bs s = (true, { s with
      replies := rest
      mem := (applyStores r.stores s.mem).writeBytes a.toNat bs
      events := s.events ++ [.memWrite a bs true] }) := by
  simp [memWrite, takeReply, hr, h, logEvent]

/-- Writes answered one by one as by plain RAM (`20_memory.md` R72, R86). -/
theorem memWrites_answered {pre rest : List Reply} {ws : List (Addr × List Byte)} {s : State}
    (hr : s.replies = pre ++ rest) (h : pre.map Reply.answer = List.replicate ws.length .plain) :
    memWrites ws s = (true, { s with
      replies := rest
      mem := answeredWrites pre ws s.mem
      events := s.events ++ ws.map fun w => .memWrite w.1 w.2 true }) := by
  induction ws generalizing pre s with
  | nil =>
    obtain rfl := List.map_eq_nil_iff.mp h
    obtain rfl : s.replies = rest := hr
    simp
  | cons w ws ih =>
    obtain ⟨r, pre, rfl, hplain, hrest⟩ := List.map_eq_cons_iff.mp h
    rw [memWrites_cons_ok ws (memWrite_answered w.1 w.2 hr hplain), ih rfl hrest]
    simp

/-! ## One element of a chain -/

/-- The share of a slot of the chain (`43_rx_filter.md` R267). -/
theorem rxShare_of_getElem? {chain : List RxSlot} {k : Nat} {sl : RxSlot} (data : List Byte)
    (hk : chain[k]? = some sl) :
    rxShare data chain k = (data.drop (chainCap (chain.take k))).take sl.d.len.toNat := by
  simp [rxShare, hk]

/-- Word 0 of the writeback of a slot of the chain (`43_rx_filter.md` R267). -/
def rxSlotWord (dl : Delivery) (chain : List RxSlot) (k : Nat) (sl : RxSlot) : Word :=
  rxWritebackWord (rxWord0 true sl.d)
    (rxStatus (k = 0) (k + 1 = chain.length) dl.vl dl.kind (rxShare dl.data chain k).length)

theorem rxSlotWrites_of_getElem? {chain : List RxSlot} {k : Nat} {sl : RxSlot} (dl : Delivery)
    (hk : chain[k]? = some sl) :
    rxSlotWrites dl chain k
      = (if rxShare dl.data chain k = [] then [] else [(sl.d.buf, rxShare dl.data chain k)])
        ++ [(sl.addr, le32 (rxSlotWord dl chain k sl))] := by
  simp [rxSlotWrites, hk, rxSlotWord]

/-- The buffer write of an element is a list of at most one write. -/
theorem rxStore_eq_memWrites (a : Addr) (bs : List Byte) (s : State) :
    rxStore a bs s = memWrites (if bs = [] then [] else [(a, bs)]) s := by
  unfold rxStore
  split
  · rfl
  · cases hw : memWrite a bs s with
    | mk ok t =>
      cases ok with
      | true => exact (memWrites_cons_ok (w := (a, bs)) [] hw).symm
      | false => exact (memWrites_cons_fault (w := (a, bs)) [] hw).symm

/-- An element of the write phase moves the RX index behind itself when none of its writes faulted (`43_rx_filter.md`
R267). -/
def rxSlotDone (sl : RxSlot) : Bool × State → Bool × State
  | (true, t) => (true, rxAtIndex (advance t.eng.rxr sl.idx sl.d.eor) t)
  | (false, t) => (false, t)

/-- An element of the write phase is its writes and the index behind it (`43_rx_filter.md` R267). -/
theorem rxWriteSlot_eq {chain : List RxSlot} {k : Nat} {sl : RxSlot} {s : State} (hk : chain[k]? = some sl) :
    rxWriteSlot sl (k = 0) (k + 1 = chain.length) (s.op.rx.data.drop (chainCap (chain.take k))) s
      = rxSlotDone sl (memWrites (rxSlotWrites s.op.rx chain k) s) := by
  rw [rxSlotWrites_of_getElem? _ hk, memWrites_append, ← rxStore_eq_memWrites]
  unfold rxWriteSlot writeback rxSlotWord
  simp only [← rxShare_of_getElem? _ hk]
  generalize rxStore sl.d.buf (rxShare s.op.rx.data chain k) s = stored
  generalize rxWritebackWord _ _ = w0'
  obtain ⟨_ | _, t⟩ := stored
  case false => rfl
  case true =>
    simp only [if_true, memWrites]
    generalize memWrite sl.addr (le32 w0') t = written
    obtain ⟨_ | _, u⟩ := written <;> rfl

/-- An element of the write phase from whatever RX index the elements before it left. -/
theorem rxWriteSlot_of_memWrites {chain : List RxSlot} {k : Nat} {sl : RxSlot} {dl : Delivery} {ok : Bool} {s t : State}
    (i : Half) (hk : chain[k]? = some sl) (hdl : s.op.rx = dl) (hw : memWrites (rxSlotWrites dl chain k) s = (ok, t)) :
    rxWriteSlot sl (k = 0) (k + 1 = chain.length) (dl.data.drop (chainCap (chain.take k))) (rxAtIndex i s)
      = rxSlotDone sl (ok, rxAtIndex i t) := by
  subst hdl
  have hmoved := memWrites_rxAtIndex i (rxSlotWrites s.op.rx chain k) s
  rw [hw] at hmoved
  exact (rxWriteSlot_eq (s := rxAtIndex i s) hk).trans (congrArg (rxSlotDone sl) hmoved)

/-! ## The chain -/

@[simp] theorem chainCap_nil : chainCap [] = 0 := rfl

@[simp] theorem chainCap_append (as bs : List RxSlot) : chainCap (as ++ bs) = chainCap as + chainCap bs := by
  simp [chainCap]

@[simp] theorem chainCap_singleton (sl : RxSlot) : chainCap [sl] = sl.d.len.toNat := by simp [chainCap]

/-- The slots of a chain up to and with slot `k`. -/
theorem take_succ_of_getElem? {chain : List RxSlot} {k : Nat} {sl : RxSlot} (hk : chain[k]? = some sl) :
    chain.take (k + 1) = chain.take k ++ [sl] := by
  rw [List.take_add_one, hk, Option.toList_some]

/-- The RX index behind slot `k` of a chain (`43_rx_filter.md` R267). -/
theorem rxIdxBefore_of_getElem? {chain : List RxSlot} {k : Nat} {sl : RxSlot} (r : Cursor) (hk : chain[k]? = some sl) :
    rxIdxBefore r chain (k + 1) = advance r sl.idx sl.d.eor := by
  simp [rxIdxBefore, take_succ_of_getElem? hk]

/-- The rest of a write phase, from slot `k` on: one element and the slots behind it. -/
theorem rxWriteChain_drop {chain : List RxSlot} {k : Nat} {sl : RxSlot} (data : List Byte) (s : State)
    (hk : chain[k]? = some sl) :
    rxWriteChain (chain.drop k) (k = 0) (data.drop (chainCap (chain.take k))) s
      = let slot := rxWriteSlot sl (k = 0) (k + 1 = chain.length) (data.drop (chainCap (chain.take k))) s
        if slot.1
        then rxWriteChain (chain.drop (k + 1)) (k + 1 = 0) (data.drop (chainCap (chain.take (k + 1)))) slot.2
        else (false, slot.2) := by
  obtain ⟨hlt, rfl⟩ := List.getElem?_eq_some_iff.mp hk
  have hlast : (chain.drop (k + 1)).isEmpty = decide (k + 1 = chain.length) := by
    rw [Bool.eq_iff_iff, List.isEmpty_iff, List.drop_eq_nil_iff, decide_eq_true_iff]
    omega
  rw [List.drop_eq_getElem_cons hlt, rxWriteChain, hlast, take_succ_of_getElem? hk, chainCap_append, chainCap_singleton,
    List.drop_drop]
  rfl

/-- The write phase goes on with slot `k` once the writes for the slots before it are made (`43_rx_filter.md`
R267). -/
theorem rxWriteChain_after {chain : List RxSlot} {k : Nat} {s t : State} (hk : k ≤ chain.length)
    (hw : memWrites ((List.range k).flatMap (rxSlotWrites s.op.rx chain)) s = (true, t)) :
    rxWriteChain chain true s.op.rx.data s
      = rxWriteChain (chain.drop k) (k = 0) (s.op.rx.data.drop (chainCap (chain.take k)))
          (rxAtIndex (rxIdxBefore s.eng.rxr chain k) t) := by
  induction k generalizing t with
  | zero =>
    obtain rfl : s = t := congrArg Prod.snd hw
    rfl
  | succ k ih =>
    rw [List.range_succ, List.flatMap_append, List.flatMap_singleton] at hw
    obtain ⟨u, hbefore, hslot⟩ := memWrites_append_ok hw
    have hsl : chain[k]? = some chain[k] := List.getElem?_eq_getElem hk
    have hop : u.op.rx = s.op.rx := congrArg Op.rx (op_of_memWrites hbefore)
    have heng : t.eng = s.eng := eng_of_memWrites hw
    rw [ih (Nat.le_of_succ_le hk) hbefore, rxWriteChain_drop _ _ hsl, rxWriteSlot_of_memWrites _ hsl hop hslot,
      rxIdxBefore_of_getElem? _ hsl, ← heng]
    rfl

/-- The write phase of a chain whose writes are all made (`43_rx_filter.md` R267). -/
theorem rxWriteChain_made {chain : List RxSlot} {s t : State} (hw : memWrites (rxWrites s.op.rx chain) s = (true, t)) :
    rxWriteChain chain true s.op.rx.data s
      = (true, rxAtIndex (rxIdxBefore s.eng.rxr chain chain.length) t) := by
  rw [rxWriteChain_after le_rfl hw, List.drop_length]
  rfl

/-- The write phase of a chain that meets a fault in slot `k` (`43_rx_filter.md` R267). -/
theorem rxWriteChain_fault {chain : List RxSlot} {k : Nat} {s t u : State} (hk : k < chain.length)
    (hbefore : memWrites ((List.range k).flatMap (rxSlotWrites s.op.rx chain)) s = (true, t))
    (hw : memWrites (rxSlotWrites s.op.rx chain k) t = (false, u)) :
    rxWriteChain chain true s.op.rx.data s = (false, rxAtIndex (rxIdxBefore s.eng.rxr chain k) u) := by
  have hsl : chain[k]? = some chain[k] := List.getElem?_eq_getElem hk
  have hop : t.op.rx = s.op.rx := congrArg Op.rx (op_of_memWrites hbefore)
  rw [rxWriteChain_after hk.le hbefore, rxWriteChain_drop _ _ hsl, rxWriteSlot_of_memWrites _ hsl hop hw]
  rfl

end Sys2Proof.Machine
end

section
/-!
The `RXD` rows of a delivery: the oversize drop, the pre-scan, and the write phase over one descriptor or a chain, with
guest memory as plain RAM and with a write that faults (`43_rx_filter.md` R264 to R268).
-/

namespace Sys2Proof.Machine

/-! ## Which way a descriptor takes -/

/-- The test of the first descriptor (`43_rx_filter.md` R264). -/
theorem rxTooLarge_iff (s : State) (d : RxFields) :
    rxTooLarge s d = true
      ↔ s.cfg.maxFrame < s.op.rx.data.length ∨ s.eng.rxChain = false ∧ d.len.toNat < s.op.rx.data.length := by
  simp [rxTooLarge]

/-- A device-owned descriptor that is no first one, or large enough, goes to the pre-scan (`43_rx_filter.md` R269). -/
theorem rxDescriptor_eq_rxExtend {s : State} {d : RxFields} (h : s.op.rx.chain = [] → ¬rxTooLarge s d = true) :
    rxDescriptor d s = rxExtend d s := by
  unfold rxDescriptor
  exact if_neg (by simpa using h)

/-- A first descriptor that is too small takes the oversize drop (`43_rx_filter.md` R264). -/
theorem rxDescriptor_eq_rxOversize {s : State} {d : RxFields} (hnil : s.op.rx.chain = [])
    (h : rxTooLarge s d = true) : rxDescriptor d s = rxOversize d s := by
  unfold rxDescriptor
  exact if_pos (by rw [hnil, h]; rfl)

/-- The capacity of the chain with the descriptor just fetched (`43_rx_filter.md` R266). -/
theorem chainCap_fetchedChain (s : State) (d : RxFields) :
    chainCap (fetchedChain s d) = chainCap s.op.rx.chain + d.len.toNat := by
  rw [fetchedChain, chainCap_append, chainCap_singleton]

/-- A descriptor that completes the pre-scan starts the write phase (`43_rx_filter.md` R266, R267). -/
theorem rxDescriptor_eq_rxDeliver {s : State} {d : RxFields} (hmax : s.op.rx.data.length ≤ s.cfg.maxFrame)
    (hfits : s.op.rx.data.length ≤ chainCap (fetchedChain s d)) :
    rxDescriptor d s = rxDeliver (fetchedChain s d) s := by
  have hscan : rxDescriptor d s = rxExtend d s := by
    refine rxDescriptor_eq_rxExtend fun hnil => ?_
    rw [chainCap_fetchedChain, hnil, chainCap_nil] at hfits
    rw [rxTooLarge_iff]
    omega
  rw [hscan]
  obtain ⟨_, e⟩ | ⟨hshort, _⟩ | ⟨hshort, _⟩ := rxExtend_cases d s
  · exact e
  · exact absurd hfits (Nat.not_le.mpr hshort)
  · exact absurd hfits (Nat.not_le.mpr hshort)

/-! ## The written words -/

/-- The word written back for a frame in one descriptor (`30_encoding.md` R106, R107; `43_rx_filter.md` R267). -/
theorem rxWritebackWord_delivered (w0 : Word) (vl : Bool) (m : MatchKind) (n : Nat) :
    rxWritebackWord w0 (rxStatus true true vl m n)
      = (w0 &&& ~~~0xB0F3FFFF) ||| 0x30400000 ||| (if vl then 0x00800000 else 0) ||| matchBits m
        ||| BitVec.ofNat 32 n := by
  have hflags : bitIf true stFs ||| bitIf true stLs ||| stDone = 0x30400000 := rfl
  rw [rxWritebackWord, rxStatus, hflags]
  simp only [BitVec.or_assoc]
  rfl

/-- The word written back for an oversize drop (`30_encoding.md` R106, R107; `43_rx_filter.md` R264). -/
theorem rxWritebackWord_oversize (w0 : Word) (vl : Bool) (m : MatchKind) :
    rxWritebackWord w0 (rxOversizeStatus vl m)
      = (w0 &&& ~~~0xB0F3FFFF) ||| 0x30700000 ||| (if vl then 0x00800000 else 0) ||| matchBits m := by
  have hflags : stFs ||| stLs ||| stDone ||| stErr ||| stOversize = 0x30700000 := rfl
  rw [rxWritebackWord, rxOversizeStatus, hflags]
  simp only [BitVec.or_assoc]
  rfl

@[simp] theorem getLsbD_bitIf (c : Bool) (w : Word) (i : Nat) : (bitIf c w).getLsbD i = (c && w.getLsbD i) := by
  cases c with
  | true => rfl
  | false => simp [bitIf]

/-- The `MATCH` field lies below bit 18 (`30_encoding.md` R106). -/
theorem getLsbD_matchBits_own (m : MatchKind) : (matchBits m).getLsbD 31 = false := by cases m <;> rfl

/-- The status of a delivered share has `OWN` clear: its byte count stays below the flags (`30_encoding.md` R106). -/
theorem getLsbD_rxStatus_own (first last vl : Bool) (m : MatchKind) {n : Nat} (hn : n < 2 ^ 16) :
    (rxStatus first last vl m n).getLsbD 31 = false := by
  have hcount : (BitVec.ofNat 32 n).getLsbD 31 = false := by
    rw [BitVec.getLsbD_ofNat, Nat.testBit_lt_two_pow (by omega), Bool.and_false]
  simp only [rxStatus, BitVec.getLsbD_or, getLsbD_bitIf, getLsbD_matchBits_own, hcount]
  simp [stFs, stLs, stDone, stVlan]

/-- A written-back descriptor of a delivery is host-owned (`43_rx_filter.md` R267). -/
theorem getLsbD_rxSlotWord_own {chain : List RxSlot} {k : Nat} {sl : RxSlot} (dl : Delivery)
    (hk : chain[k]? = some sl) : (rxSlotWord dl chain k sl).getLsbD 31 = false := by
  have hshare : (rxShare dl.data chain k).length < 2 ^ 16 := by
    rw [rxShare_of_getElem? _ hk]
    exact (List.length_take_le _ _).trans_lt sl.d.len.isLt
  rw [rxSlotWord, rxWritebackWord, BitVec.getLsbD_or, getLsbD_rxStatus_own _ _ _ _ hshare, BitVec.getLsbD_and]
  simp [rxDev]

/-! ## The oversize drop -/

/-- The write of an oversize drop (`43_rx_filter.md` R264). -/
def rxOversizeWrite (d : RxFields) (s : State) : Bool × State :=
  memWrite (slotAddr s.eng.rxr s.op.rx.next)
    (le32 (rxWritebackWord (rxWord0 true d) (rxOversizeStatus s.op.rx.vl s.op.rx.kind))) s

/-- An oversize drop that is written back consumes its descriptor (`43_rx_filter.md` R264). -/
theorem rxOversize_written {d : RxFields} {s t : State} (h : rxOversizeWrite d s = (true, t)) :
    rxOversize d s = rxSignal { t with eng := { t.eng with
      rxr := { t.eng.rxr with idx := advance t.eng.rxr s.op.rx.next d.eor }, cntRxErr := t.eng.cntRxErr + 1 } } := by
  rw [rxOversizeWrite] at h
  simp only [rxOversize, writeback, h, if_true]

/-- An oversize drop whose writeback faults returns as things stand (`43_rx_filter.md` R264). -/
theorem rxOversize_fault {d : RxFields} {s t : State} (h : rxOversizeWrite d s = (false, t)) :
    rxOversize d s = endOp t := by
  rw [rxOversizeWrite] at h
  simp only [rxOversize, writeback, h, Bool.false_eq_true, if_false]

/-- Settles O53: the first descriptor takes the drop, whose one write goes to plain RAM or faults. -/
theorem rxOversizeDrop : Obligations.RxOversizeDrop := by
  intro s d need w0' hnil hlarge
  have hword : rxWritebackWord (rxWord0 true d) (rxOversizeStatus s.op.rx.vl s.op.rx.kind) = w0' := by
    rw [rxWritebackWord_oversize]
    simp only [w0']
    cases s.op.rx.kind <;> rfl
  have hdrop : exec (.rxdFree d) s = .next (rxOversize d s) :=
    congrArg Host.Outcome.next (rxDescriptor_eq_rxOversize hnil ((rxTooLarge_iff s d).mpr hlarge))
  have hcall : rxOversizeWrite d s = memWrite (slotAddr s.eng.rxr s.op.rx.next) (le32 w0') s := by
    rw [rxOversizeWrite, hword]
  rw [hdrop]
  refine ⟨fun hplain => ?plain, fun r rest hreplies hf => ?fault⟩
  case plain =>
    rw [rxOversize_written (hcall.trans (memWrite_plain _ _ _ hplain)), rxSignal_eq]
    rfl
  case fault =>
    rw [rxOversize_fault (hcall.trans (memWrite_fault _ _ hreplies hf))]
    rfl

/-! ## The pre-scan -/

/-- Settles O54: a chain too short is one of the two other outcomes of the pre-scan. -/
theorem rxPreScan : Obligations.RxPreScan := by
  intro s d next hchain hmax hshort
  have hscan : exec (.rxdFree d) s = .next (rxExtend d s) := by
    refine congrArg Host.Outcome.next (rxDescriptor_eq_rxExtend fun _ => ?_)
    rw [rxTooLarge_iff, Engine.rxChain, hchain]
    simpa using hmax
  rw [← chainCap_fetchedChain] at hshort
  rw [hscan]
  obtain ⟨hfits, _⟩ | ⟨_, hlap, e⟩ | ⟨_, hfresh, e⟩ := rxExtend_cases d s
  · exact absurd hfits (Nat.not_le.mpr hshort)
  · obtain ⟨sl, hsl, hidx⟩ := List.mem_map.mp hlap
    exact ⟨fun h => absurd hidx (h sl hsl), fun _ => by rw [e, overrun_eq_afterOverrun_nil]⟩
  · exact ⟨fun _ => congrArg Host.Outcome.next e, fun h => absurd (List.mem_map.mpr h) hfresh⟩

/-! ## The write phase to plain RAM -/

/-- The descriptor just fetched is the last of its chain. -/
theorem getElem?_fetchedChain (s : State) (d : RxFields) :
    (fetchedChain s d)[s.op.rx.chain.length]?
      = some { idx := s.op.rx.next, addr := slotAddr s.eng.rxr s.op.rx.next, d := d } :=
  List.getElem?_concat_length

/-- The cursor behind a delivery (`43_rx_filter.md` R267). -/
theorem rxIdxBefore_fetchedChain (s : State) (d : RxFields) :
    rxIdxBefore s.eng.rxr (fetchedChain s d) (fetchedChain s d).length = advance s.eng.rxr s.op.rx.next d.eor := by
  have hlen : (fetchedChain s d).length = s.op.rx.chain.length + 1 := List.length_append
  rw [hlen, rxIdxBefore_of_getElem? _ (getElem?_fetchedChain s d)]

/-- A delivery to plain RAM makes all its writes and signals (`43_rx_filter.md` R267, R268). -/
theorem exec_rxdFree_plain {s : State} {d : RxFields} (hplain : s.replies = [])
    (hmax : s.op.rx.data.length ≤ s.cfg.maxFrame) (hfits : s.op.rx.data.length ≤ chainCap (fetchedChain s d)) :
    exec (.rxdFree d) s
      = .next (afterDelivery s (rxWrites s.op.rx (fetchedChain s d)) (advance s.eng.rxr s.op.rx.next d.eor) true) := by
  refine congrArg Host.Outcome.next ((rxDescriptor_eq_rxDeliver hmax hfits).trans ?_)
  unfold rxDeliver
  rw [rxWriteChain_made (memWrites_plain _ hplain), rxIdxBefore_fetchedChain]
  exact rxSignal_eq _

/-- The shares of the slots before slot `k` are the data up to it (`43_rx_filter.md` R267). -/
theorem flatten_rxShare (data : List Byte) {chain : List RxSlot} {k : Nat} (hk : k ≤ chain.length) :
    ((List.range k).map (rxShare data chain)).flatten = data.take (chainCap (chain.take k)) := by
  induction k with
  | zero => rfl
  | succ k ih =>
    have hsl : chain[k]? = some chain[k] := List.getElem?_eq_getElem hk
    rw [List.range_succ, List.map_append, List.flatten_append, ih (Nat.le_of_succ_le hk), take_succ_of_getElem? hsl,
      chainCap_append, chainCap_singleton, List.take_add, ← rxShare_of_getElem? data hsl]
    simp

/-- The slots before the last one hold no more than the chain had before the last fetch. -/
theorem chainCap_take_fetchedChain_le {s : State} {d : RxFields} {k : Nat} (hk : k < (fetchedChain s d).length) :
    chainCap ((fetchedChain s d).take k) ≤ chainCap s.op.rx.chain := by
  have hlen : (fetchedChain s d).length = s.op.rx.chain.length + 1 := List.length_append
  rw [fetchedChain, List.take_append_of_le_length (by omega)]
  conv_rhs => rw [← List.take_append_drop k s.op.rx.chain, chainCap_append]
  exact Nat.le_add_right _ _

/-- Settles O55: the writes are those of the write phase, and every slot before the last is filled. -/
theorem rxChainDelivery : Obligations.RxChainDelivery := by
  intro s d chain hplain hchain hmax hshort hfits
  refine ⟨exec_rxdFree_plain hplain hmax hfits, ?_, fun k sl hsl hk => ?_⟩
  · rw [flatten_rxShare _ le_rfl, List.take_length, List.take_of_length_le hfits]
  · have hbefore := chainCap_take_fetchedChain_le hk
    rw [take_succ_of_getElem? hsl, chainCap_append, chainCap_singleton] at hbefore
    rw [rxShare_of_getElem? _ hsl, List.length_take, List.length_drop]
    omega

/-- The two writes of a delivery into one descriptor that holds all of the data (`43_rx_filter.md` R267). -/
theorem rxWrites_singleton {dl : Delivery} {sl : RxSlot} (hdata : dl.data ≠ [])
    (hfits : dl.data.length ≤ sl.d.len.toNat) :
    rxWrites dl [sl]
      = [(sl.d.buf, dl.data),
        (sl.addr, le32 (rxWritebackWord (rxWord0 true sl.d) (rxStatus true true dl.vl dl.kind dl.data.length)))] := by
  have hshare : rxShare dl.data [sl] 0 = dl.data := List.take_of_length_le hfits
  have hslot : rxSlotWrites dl [sl] 0 = _ := rxSlotWrites_of_getElem? dl rfl
  rw [rxSlotWord, hshare, if_neg hdata] at hslot
  exact (List.flatMap_singleton _ _).trans hslot

/-- Settles O52: a chain of one slot, whose share is the whole of the data. -/
theorem rxSingleDelivery : Obligations.RxSingleDelivery := by
  intro s d need w0' hplain hnil hdata hmax hfits
  have hone : fetchedChain s d = [{ idx := s.op.rx.next, addr := slotAddr s.eng.rxr s.op.rx.next, d := d }] := by
    rw [fetchedChain, hnil, List.nil_append]
  have hword : rxWritebackWord (rxWord0 true d) (rxStatus true true s.op.rx.vl s.op.rx.kind need) = w0' := by
    rw [rxWritebackWord_delivered]
    simp only [w0']
    cases s.op.rx.kind <;> rfl
  rw [exec_rxdFree_plain hplain hmax (by rw [hone, chainCap_singleton]; exact hfits), hone,
    rxWrites_singleton hdata hfits, hword]

/-! ## A write that faults -/

/-- A delivery that meets a fault returns as things stand (`43_rx_filter.md` R267). -/
theorem exec_rxdFree_fault {s t u : State} {d : RxFields} {k : Nat} (hmax : s.op.rx.data.length ≤ s.cfg.maxFrame)
    (hfits : s.op.rx.data.length ≤ chainCap (fetchedChain s d)) (hk : k < (fetchedChain s d).length)
    (hbefore : memWrites ((List.range k).flatMap (rxSlotWrites s.op.rx (fetchedChain s d))) s = (true, t))
    (hw : memWrites (rxSlotWrites s.op.rx (fetchedChain s d) k) t = (false, u)) :
    exec (.rxdFree d) s = .next (endOp (rxAtIndex (rxIdxBefore s.eng.rxr (fetchedChain s d) k) u)) := by
  refine congrArg Host.Outcome.next ((rxDescriptor_eq_rxDeliver hmax hfits).trans ?_)
  unfold rxDeliver
  rw [rxWriteChain_fault hk hbefore hw]
  rfl

/-- A slot that has a write is a slot of the chain. -/
theorem lt_length_of_rxSlotWrites {dl : Delivery} {chain : List RxSlot} {k j : Nat} {w : Addr × List Byte}
    (h : (rxSlotWrites dl chain k)[j]? = some w) : k < chain.length := by
  by_contra hk
  simp [rxSlotWrites, List.getElem?_eq_none (Nat.le_of_not_lt hk)] at h

/-- Settles O56: the answered writes are made, the next one faults, and the index is that of the slots before. -/
theorem rxWriteFaultStops : Obligations.RxWriteFaultStops := by
  intro s d k j w pre r rest chain made hmax hfits hw hreplies hpre hf
  refine ⟨?_, fun i hi sl hsl => ⟨_, ?_, getLsbD_rxSlotWord_own s.op.rx hsl⟩⟩
  · have hmade := memWrites_answered hreplies hpre
    obtain ⟨t, hbefore, hpart⟩ := memWrites_append_ok hmade
    have hfault := memWrites_fault_at hw hpart (memWrite_fault _ _ rfl hf)
    rw [exec_rxdFree_fault hmax hfits (lt_length_of_rxSlotWrites hw) hbefore hfault]
    rfl
  · rw [rxSlotWrites_of_getElem? _ hsl, List.getLast?_concat]

end Sys2Proof.Machine
end

section
/-!
SUPPORT. The bytes of a register (`10_state.md` R30; `44_register_window.md` R292): lanes read, written and put
together.
-/

namespace Sys2Proof

/-! ## The lanes of a word -/

/-- A lane written is no other lane read (`44_register_window.md` R292). -/
theorem laneOf_setLane_other (w : Word) {k m : BitVec 2} (v : Byte) (h : m ≠ k) :
    laneOf (setLane w k v) m = laneOf w m := by
  have hne : m.toNat ≠ k.toNat := fun he => h (BitVec.eq_of_toNat_eq he)
  have hk : k.toNat < 4 := k.isLt
  have hm : m.toNat < 4 := m.isLt
  apply BitVec.eq_of_getLsbD_eq
  intro i hi
  unfold laneOf setLane
  generalize k.toNat = a at *
  generalize m.toNat = b at *
  interval_cases a <;>
    simp only [BitVec.getLsbD_extractLsb', BitVec.getLsbD_append, hi, decide_true, Bool.true_and] <;>
    interval_cases b <;> grind

/-- A word is known by its four lanes (`10_state.md` R30). -/
theorem eq_of_laneOf_eq {a b : Word} (h : ∀ m, laneOf a m = laneOf b m) : a = b := by
  have h0 : a.extractLsb' 0 8 = b.extractLsb' 0 8 := h 0
  have h1 : a.extractLsb' 8 8 = b.extractLsb' 8 8 := h 1
  have h2 : a.extractLsb' 16 8 = b.extractLsb' 16 8 := h 2
  have h3 : a.extractLsb' 24 8 = b.extractLsb' 24 8 := h 3
  rw [← word_of_bytes a, ← word_of_bytes b, h0, h1, h2, h3]

/-- Writing back the byte of a lane changes nothing. -/
theorem setLane_laneOf (w : Word) (k : BitVec 2) : setLane w k (laneOf w k) = w := by
  refine eq_of_laneOf_eq fun m => ?_
  by_cases h : m = k
  · rw [h, laneOf_setLane_same]
  · rw [laneOf_setLane_other w _ h]

/-- The lane at an offset, as bits of the word. -/
theorem laneOf_ofNat (w : Word) (x : Nat) : laneOf w (BitVec.ofNat 2 x) = w.extractLsb' (8 * (x % 4)) 8 := by
  rw [laneOf, BitVec.toNat_ofNat]

/-- A 16-bit register holds its bits in lanes 0 and 1 (`44_register_window.md` R292). -/
theorem setWidth_setLane16 (h : Half) {k : BitVec 2} (v : Byte) (hk : k.toNat < 2) :
    (setLane16 h k v).setWidth 32 = setLane (h.setWidth 32) k v := by
  apply BitVec.eq_of_getLsbD_eq
  intro i hi
  unfold setLane16 setLane
  generalize k.toNat = n at *
  interval_cases n <;>
    simp only [BitVec.getLsbD_extractLsb', BitVec.getLsbD_append, BitVec.getLsbD_setWidth] <;> grind

/-- A 16-bit register drops the bytes of lanes 2 and 3 (`44_register_window.md` R292). -/
theorem setLane16_beyond (h : Half) {k : BitVec 2} (v : Byte) (hk : 2 ≤ k.toNat) : setLane16 h k v = h := by
  have := k.isLt
  unfold setLane16
  generalize k.toNat = n at *
  interval_cases n <;> rfl

/-- The bytes of a 16-bit register in its word: the upper two are 0 (`10_state.md` R30). -/
theorem byte_setWidth (h : Half) (k : Nat) :
    (h.setWidth 32).extractLsb' (8 * k) 8 = if k < 2 then h.extractLsb' (8 * k) 8 else 0 := by
  apply BitVec.eq_of_getLsbD_eq
  intro i hi
  simp only [BitVec.getLsbD_extractLsb', BitVec.getLsbD_setWidth]
  grind

/-- The bytes a word is put together from. -/
theorem byte_of_append (b : Nat → Byte) {i : Nat} (hi : i < 4) :
    (b 3 ++ b 2 ++ b 1 ++ b 0).extractLsb' (8 * i) 8 = b i := by
  apply BitVec.eq_of_getLsbD_eq
  intro j hj
  simp only [BitVec.getLsbD_extractLsb', BitVec.getLsbD_append]
  interval_cases i <;> grind

end Sys2Proof
end

section
/-!
SUPPORT. The register window as the list of its words (`10_state.md` R30 to R49): what its bytes show, and what they
show after one byte lane of one register is replaced.
-/

namespace Sys2Proof.Machine

/-- The words of the window, in ascending offset order (`10_state.md` R30). -/
def windowWords (c : Config) (e : Engine) : List Word := (List.range 64).map (regWord c e)

theorem windowWords_getD (c : Config) (e : Engine) {k : Nat} (hk : k < 64) :
    (windowWords c e).getD k 0 = regWord c e k := by
  simp [windowWords, hk]

/-- A window byte is a byte of its word (`44_register_window.md` R291). -/
theorem windowByte_inside (c : Config) (e : Engine) {x : Nat} (hx : x < 256) :
    windowByte c e x = (regWord c e (x / 4)).extractLsb' (8 * (x % 4)) 8 :=
  (if_pos hx).trans (laneOf_ofNat _ x)

/-- Bytes beyond the window read 0 (`44_register_window.md` R290). -/
theorem windowByte_beyond (c : Config) (e : Engine) {x : Nat} (hx : ¬x < 256) : windowByte c e x = 0 := if_neg hx

/-- The words of the window determine its bytes. -/
theorem windowByte_eq (c : Config) (e : Engine) (x : Nat) :
    windowByte c e x = ((windowWords c e).getD (x / 4) 0).extractLsb' (8 * (x % 4)) 8 := by
  by_cases hx : x < 256
  · rw [windowByte_inside c e hx, windowWords_getD c e (by omega)]
  · have hbeyond : (windowWords c e).getD (x / 4) 0 = 0 := by
      rw [List.getD_eq_default]
      simp only [windowWords, List.length_map, List.length_range]
      omega
    rw [windowByte_beyond c e hx, hbeyond, BitVec.ofNat_eq_ofNat, BitVec.ofNat_eq_ofNat, BitVec.extractLsb'_zero]

/-- The register `4 * k` with the byte `v` stored into the implemented bits of its lane `l`
(`44_register_window.md` R292). -/
def storedWord (k : Nat) (l : BitVec 2) (v : Byte) (old : Word) : Word :=
  setLane old l (storedByte (4 * k + l.toNat) v (laneOf old l))

/-- With a byte stored into one lane of one register, the window shows it there and is otherwise as it was. -/
theorem windowByte_of_stored {c : Config} {e e' : Engine} {k : Nat} {l : BitVec 2} {v : Byte} (hk : k < 64)
    (h : windowWords c e' = (windowWords c e).set k (storedWord k l v (regWord c e k))) (x : Nat) :
    windowByte c e' x
      = if x = 4 * k + l.toNat then storedByte (4 * k + l.toNat) v (windowByte c e x) else windowByte c e x := by
  have hlane : l.toNat < 4 := l.isLt
  have hlen : k < (windowWords c e).length := by simpa [windowWords] using hk
  by_cases hword : x / 4 = k
  case neg =>
    rw [if_neg (by omega), windowByte_eq, windowByte_eq, h, List.getD_eq_getElem?_getD,
      List.getElem?_set_ne (Ne.symm hword), ← List.getD_eq_getElem?_getD]
  case pos =>
    have hx : x < 256 := by omega
    have hnew : windowByte c e' x = laneOf (storedWord k l v (regWord c e k)) (BitVec.ofNat 2 x) := by
      rw [windowByte_eq, laneOf_ofNat, h, hword, List.getD_eq_getElem?_getD, List.getElem?_set_self hlen,
        Option.getD_some]
    have hold : windowByte c e x = laneOf (regWord c e k) (BitVec.ofNat 2 x) := by
      rw [windowByte_inside c e hx, laneOf_ofNat, hword]
    rw [hnew, hold, storedWord]
    split
    · next hat =>
      obtain rfl : BitVec.ofNat 2 x = l := BitVec.eq_of_toNat_eq (by rw [BitVec.toNat_ofNat]; omega)
      exact laneOf_setLane_same _ _ _
    · next hoff =>
      exact laneOf_setLane_other _ _ fun hl => hoff (by rw [← hl, BitVec.toNat_ofNat]; omega)

/-! ## The stored byte -/

/-- A lane of implemented bits only takes the byte (`44_register_window.md` R292). -/
theorem storedByte_full {o : Nat} (h : rwMask o = 0xFF) (v old : Byte) : storedByte o v old = v := by
  have hall : (0xFF : Byte) = BitVec.allOnes 8 := rfl
  rw [storedByte, h, hall, BitVec.and_allOnes, BitVec.not_allOnes, BitVec.and_zero, BitVec.or_zero]

/-- A lane without implemented bits drops the byte (`44_register_window.md` R292). -/
theorem storedByte_dropped {o : Nat} (h : rwMask o = 0) (v old : Byte) : storedByte o v old = old := by
  have hall : ~~~(0 : Byte) = BitVec.allOnes 8 := rfl
  rw [storedByte, h, hall, BitVec.and_allOnes, BitVec.ofNat_eq_ofNat, BitVec.and_zero, BitVec.zero_or]

theorem storedWord_full {k : Nat} {l : BitVec 2} (h : rwMask (4 * k + l.toNat) = 0xFF) (v : Byte) (old : Word) :
    storedWord k l v old = setLane old l v := by
  rw [storedWord, storedByte_full h]

theorem storedWord_dropped {k : Nat} {l : BitVec 2} (h : rwMask (4 * k + l.toNat) = 0) (v : Byte) (old : Word) :
    storedWord k l v old = old := by
  rw [storedWord, storedByte_dropped h, setLane_laneOf]

/-- A register whose implemented bits are the `n` lowest, at most 8, takes them from a byte stored into its lane 0. -/
theorem storedWord_low {n k : Nat} (hn : n ≤ 8) (h : rwMask (4 * k) = (BitVec.allOnes n).setWidth 8) (v : Byte)
    (old : BitVec n) : storedWord k 0 v (old.setWidth 32) = (v.extractLsb' 0 n).setWidth 32 := by
  have hlow : storedByte (4 * k) v (laneOf (old.setWidth 32) 0) = (v.extractLsb' 0 n).setWidth 8 := by
    apply BitVec.eq_of_getLsbD_eq
    intro i hi
    simp only [storedByte, h, laneOf, BitVec.getLsbD_or, BitVec.getLsbD_and, BitVec.getLsbD_not,
      BitVec.getLsbD_setWidth, BitVec.getLsbD_allOnes, BitVec.getLsbD_extractLsb', hi]
    grind
  apply BitVec.eq_of_getLsbD_eq
  intro i hi
  show (BitVec.extractLsb' 8 24 _ ++ storedByte (4 * k) v (laneOf (old.setWidth 32) 0)).getLsbD i = _
  simp only [hlow, BitVec.getLsbD_append, BitVec.getLsbD_setWidth, BitVec.getLsbD_extractLsb']
  grind

/-- A 16-bit register takes the byte into lanes 0 and 1 and drops it in lanes 2 and 3 (`44_register_window.md` R292). -/
theorem storedWord_half {k : Nat} (h : ∀ l : BitVec 2, rwMask (4 * k + l.toNat) = if l.toNat < 2 then 0xFF else 0)
    (l : BitVec 2) (v : Byte) (old : Half) :
    storedWord k l v (old.setWidth 32) = (setLane16 old l v).setWidth 32 := by
  by_cases hl : l.toNat < 2
  · rw [storedWord_full (by rw [h, if_pos hl]), setWidth_setLane16 old v hl]
  · rw [storedWord_dropped (by rw [h, if_neg hl]), setLane16_beyond old v (by omega)]

end Sys2Proof.Machine
end

section
/-!
The lanes without a side effect (`44_register_window.md` R292, R297 to R299; `10_state.md` R49): each row stores its
byte into its register.
-/

namespace Sys2Proof.Machine

/-- After a lane with no trigger to fire, the write goes on or is over (`44_register_window.md` R293). -/
theorem endLane_untriggered {s : State} (h : s.op.trig = none ∨ s.op.lanes ≠ []) :
    endLane s = { s with op := if s.op.lanes = [] then {} else { s.op with phase := .lanes } } := by
  by_cases hl : s.op.lanes = []
  · rw [endLane_plain s hl (h.resolve_right fun hne => hne hl), if_pos hl]
  · rw [endLane_more s hl, if_neg hl]

section
variable {i : Instr} {s : State} {v : Byte} (htrig : s.op.trig = none ∨ s.op.lanes ≠ [])
include htrig

/-- A row that stores its byte into one lane of one register. -/
theorem storesLane_of_stored {e : Engine} {k : Nat} {l : BitVec 2}
    (hexec : exec i s = .next (endLane { s with eng := e })) (hinner : e.inner = s.eng.inner) (hk : k < 64)
    (hwords : windowWords s.cfg e = (windowWords s.cfg s.eng).set k (storedWord k l v (regWord s.cfg s.eng k))) :
    StoresLane i (4 * k + l.toNat) v s := by
  refine ⟨e, ?_, hinner, windowByte_of_stored hk hwords⟩
  rw [hexec, endLane_untriggered (s := { s with eng := e }) htrig]

/-- A row that drops the byte of its lane. -/
theorem storesLane_of_dropped {o : Nat} (hexec : exec i s = .next (endLane s)) (hmask : rwMask o = 0) :
    StoresLane i o v s := by
  refine ⟨s.eng, ?_, rfl, fun x => ?_⟩
  · rw [hexec, endLane_untriggered htrig]
  · split
    · next hx => rw [storedByte_dropped (hx ▸ hmask)]
    · rfl

/-- A row of a 32-bit register. -/
theorem storesLane_word {e : Engine} {k : Nat} {l : BitVec 2} (hexec : exec i s = .next (endLane { s with eng := e }))
    (hinner : e.inner = s.eng.inner) (hk : k < 64) (hmask : ∀ l : BitVec 2, rwMask (4 * k + l.toNat) = 0xFF)
    (hwords : windowWords s.cfg e = (windowWords s.cfg s.eng).set k (setLane (regWord s.cfg s.eng k) l v)) :
    StoresLane i (4 * k + l.toNat) v s :=
  storesLane_of_stored htrig hexec hinner hk (by rw [hwords, storedWord_full (hmask l)])

/-- A row of a 16-bit register. -/
theorem storesLane_half {e : Engine} {k : Nat} {l : BitVec 2} {h : Half}
    (hexec : exec i s = .next (endLane { s with eng := e })) (hinner : e.inner = s.eng.inner) (hk : k < 64)
    (hmask : ∀ l : BitVec 2, rwMask (4 * k + l.toNat) = if l.toNat < 2 then 0xFF else 0)
    (hreg : regWord s.cfg s.eng k = h.setWidth 32)
    (hwords : windowWords s.cfg e = (windowWords s.cfg s.eng).set k ((setLane16 h l v).setWidth 32)) :
    StoresLane i (4 * k + l.toNat) v s :=
  storesLane_of_stored htrig hexec hinner hk (by rw [hwords, hreg, storedWord_half hmask])

/-- A row of a register that implements the `n` lowest bits only. -/
theorem storesLane_low {e : Engine} {n k : Nat} {l : BitVec 2} {old : BitVec n} (hn : n ≤ 8)
    (hexec : exec i s = .next (endLane (if l = 0 then { s with eng := e } else s))) (hinner : e.inner = s.eng.inner)
    (hk : k < 64)
    (hmask : ∀ l : BitVec 2, rwMask (4 * k + l.toNat) = if l = 0 then (BitVec.allOnes n).setWidth 8 else 0)
    (hreg : regWord s.cfg s.eng k = old.setWidth 32)
    (hwords : windowWords s.cfg e = (windowWords s.cfg s.eng).set k ((v.extractLsb' 0 n).setWidth 32)) :
    StoresLane i (4 * k + l.toNat) v s := by
  by_cases hl : l = 0
  · subst hl
    rw [if_pos rfl] at hexec
    exact storesLane_of_stored htrig hexec hinner hk (by rw [hwords, hreg, storedWord_low hn (hmask 0)])
  · rw [if_neg hl] at hexec
    exact storesLane_of_dropped htrig hexec (by rw [hmask, if_neg hl])

end

/-- A row of an 8-byte block stores into its low or its high word, by bit 2 of the lane (`10_state.md` R30). -/
theorem storesLane_of_block {i : Instr} {s t u : State} {v : Byte} {k : Nat} {l : BitVec 3}
    (hexec : exec i s = .next (endLane (if l.getLsbD 2 then u else t)))
    (hlow : exec i s = .next (endLane t) → StoresLane i (4 * k + (l.extractLsb' 0 2).toNat) v s)
    (hhigh : exec i s = .next (endLane u) → StoresLane i (4 * (k + 1) + (l.extractLsb' 0 2).toNat) v s) :
    StoresLane i (4 * k + l.toNat) v s := by
  have hl : ∀ l : BitVec 3, l.toNat = (if l.getLsbD 2 then 4 else 0) + (l.extractLsb' 0 2).toNat := by decide
  rw [hl l, ← Nat.add_assoc]
  cases h : l.getLsbD 2 with
  | false => exact hlow (by rw [hexec, h, if_neg Bool.false_ne_true])
  | true => exact hhigh (by rw [hexec, h, if_pos rfl])

/-- An unclaimed lane holds no implemented bit of an `RW` register (`10_state.md` R49). -/
theorem rwMask_unclaimed : ∀ o : Byte, claimedLane o = false → rwMask o.toNat = 0 := by decide +kernel

/-- Settles O14: each row replaces one word of the window. -/
theorem plainLaneStores : Obligations.PlainLaneStores := by
  intro s v ht
  refine ⟨fun l => ?ctrl, ?cmd, fun l => ?txBase, fun l => ?txLen, fun l => ?rxBase, fun l => ?rxLen, fun l => ?mac,
    fun l => ?mhash, fun l => ?rxFilter, fun o ho => ?none⟩
  case ctrl => exact storesLane_low (k := 1) (n := 5) ht (by decide) rfl rfl (by decide) (by decide) rfl rfl
  case cmd => exact storesLane_half (k := 2) (l := 0) ht rfl rfl (by decide) (by decide) rfl rfl
  case txBase =>
    exact storesLane_of_block (k := 8) rfl
      (fun h => storesLane_word ht h rfl (by decide) (by decide) rfl)
      (fun h => storesLane_word ht h rfl (by decide) (by decide) rfl)
  case txLen => exact storesLane_half (k := 10) ht rfl rfl (by decide) (by decide) rfl rfl
  case rxBase =>
    exact storesLane_of_block (k := 12) rfl
      (fun h => storesLane_word ht h rfl (by decide) (by decide) rfl)
      (fun h => storesLane_word ht h rfl (by decide) (by decide) rfl)
  case rxLen => exact storesLane_half (k := 14) ht rfl rfl (by decide) (by decide) rfl rfl
  case mac =>
    exact storesLane_of_block (k := 18) rfl
      (fun h => storesLane_word ht h rfl (by decide) (by decide) rfl)
      (fun h => storesLane_half ht h rfl (by decide) (by decide) rfl rfl)
  case mhash =>
    exact storesLane_of_block (k := 20) rfl
      (fun h => storesLane_word ht h rfl (by decide) (by decide) rfl)
      (fun h => storesLane_word ht h rfl (by decide) (by decide) rfl)
  case rxFilter => exact storesLane_low (k := 22) (n := 4) ht (by decide) rfl rfl (by decide) (by decide) rfl rfl
  case none => exact storesLane_of_dropped ht rfl (rwMask_unclaimed o ho)

end Sys2Proof.Machine
end

section
/-!
A whole register write (`44_register_window.md` R290 to R295): the lanes of an access without a trigger, one after the
other.
-/

namespace Sys2Proof.Machine

/-! ## The lanes of an access -/

/-- A lane of a register block as a number (`10_state.md` R30). -/
theorem toNat_lane {m n : Nat} (hi : BitVec m) (l : BitVec n) : (hi ++ l).toNat = 2 ^ n * hi.toNat + l.toNat := by
  rw [toNat_append_eq, Nat.add_comm]

/-- A row stores its byte at the offset of its encoding. -/
theorem storesLane_at (row : Byte → Instr) {p w o v : Byte} {k : Nat} {s : State} (he : [p, w] = [o, v])
    (hp : p.toNat = k) (h : StoresLane (row v) k v s) : StoresLane (row w) o.toNat v s := by
  cases he
  rwa [hp]

/-- A row without a trigger stores its byte into the lane it is encoded with (`44_register_window.md` R292). -/
theorem storesLane_of_encode {i : Instr} {o v : Byte} {s : State} (hf : i.format = .regw) (hw : i.WellFormed = true)
    (he : encode i = [o, v]) (hi : trigger i = none) (ht : s.op.trig = none ∨ s.op.lanes ≠ []) :
    StoresLane i o.toNat v s := by
  obtain ⟨ctrl, cmd, txBase, txLen, rxBase, rxLen, mac, mhash, rxFilter, none⟩ := plainLaneStores s v ht
  cases i with
  | ctrlW l w => exact storesLane_at (.ctrlW l) he (toNat_lane 0b000001 l) (ctrl l)
  | cmdStore w => exact storesLane_at .cmdStore he rfl cmd
  | ringStageTxBase l w => exact storesLane_at (.ringStageTxBase l) he (toNat_lane 0b00100 l) (txBase l)
  | ringStageTxLen l w => exact storesLane_at (.ringStageTxLen l) he (toNat_lane 0b001010 l) (txLen l)
  | ringStageRxBase l w => exact storesLane_at (.ringStageRxBase l) he (toNat_lane 0b00110 l) (rxBase l)
  | ringStageRxLen l w => exact storesLane_at (.ringStageRxLen l) he (toNat_lane 0b001110 l) (rxLen l)
  | filterWMac l w => exact storesLane_at (.filterWMac l) he (toNat_lane 0b01001 l) (mac l)
  | filterWMhash l w => exact storesLane_at (.filterWMhash l) he (toNat_lane 0b01010 l) (mhash l)
  | filterWRxFilter l w => exact storesLane_at (.filterWRxFilter l) he (toNat_lane 0b010110 l) (rxFilter l)
  | regwNone off w => exact storesLane_at (.regwNone off) he rfl (none off (Bool.not_eq_true' _ ▸ hw))
  | cmdX | icauseAck | imaskW | txDbW | rxDbW => cases hi
  | _ => cases hf

/-- The next lane of a write stores its byte, if its offset has no trigger (`44_register_window.md` R292). -/
theorem storesLane_decodeLane {o v : Byte} {s : State} (ho : laneTrigger o = none)
    (ht : s.op.trig = none ∨ s.op.lanes ≠ []) : StoresLane (decodeLane o v) o.toNat v s :=
  storesLane_of_encode (decodeLane_format o v) (wellFormed_decodeLane o v) (encode_decodeLane o v)
    ((trigger_decodeLane o v).trans ho) ht

/-- The window byte at `x`, once these lanes are stored in order. -/
def storedLanes (ls : List (Byte × Byte)) (x : Nat) (old : Byte) : Byte :=
  ls.foldl (fun b l => if x = l.1.toNat then storedByte x l.2 b else b) old

theorem storedLanes_cons (o b : Byte) (rest : List (Byte × Byte)) (x : Nat) (old : Byte) :
    storedLanes ((o, b) :: rest) x old
      = storedLanes rest x (if x = o.toNat then storedByte o.toNat b old else old) := by
  unfold storedLanes
  rw [List.foldl_cons]
  split
  · next hx => rw [hx]
  · rfl

theorem storedLanes_append (ls ms : List (Byte × Byte)) (x : Nat) (old : Byte) :
    storedLanes (ls ++ ms) x old = storedLanes ms x (storedLanes ls x old) := List.foldl_append

/-- Lanes without a trigger are stored one after the other, and then the write is over (`44_register_window.md` R292,
R293). -/
theorem settle_lanes {ls : List (Byte × Byte)} (hne : ls ≠ []) (hls : ∀ l ∈ ls, laneTrigger l.1 = none) {n : Nat}
    (hn : ls.length ≤ n) (s : State) :
    ∃ e, settle n { s with op := { phase := .lanes, lanes := ls } } = .next { s with eng := e, op := {} }
      ∧ e.inner = s.eng.inner ∧ ∀ x, windowByte s.cfg e x = storedLanes ls x (windowByte s.cfg s.eng x) := by
  induction ls generalizing n s with
  | nil => exact absurd rfl hne
  | cons l rest ih =>
    obtain ⟨o, b⟩ := l
    obtain ⟨m, rfl⟩ : ∃ m, n = m + 1 := Nat.exists_eq_add_one.mpr (Nat.lt_of_lt_of_le (Nat.succ_pos _) hn)
    obtain ⟨e, hexec, hinner, hwin⟩ := storesLane_decodeLane (o := o) (v := b)
      (s := { s with op := { phase := .lanes, lanes := rest } }) (hls _ List.mem_cons_self) (.inl rfl)
    have hstep := (step_lane { s with op := { phase := .lanes, lanes := (o, b) :: rest } } o b rest rfl rfl).trans hexec
    rw [settle_step m _ _ (show Phase.lanes ≠ .idle from nofun) hstep]
    by_cases hrest : rest = []
    case pos =>
      subst hrest
      refine ⟨e, settle_rest m _ rfl, hinner, fun x => ?_⟩
      rw [storedLanes_cons]
      exact hwin x
    case neg =>
      obtain ⟨e', hsettle, hinner', hwin'⟩ := ih hrest (fun l hl => hls l (List.mem_cons_of_mem _ hl))
        (Nat.le_of_succ_le_succ hn) { s with eng := e }
      refine ⟨e', ?_, hinner'.trans hinner, fun x => ?_⟩
      · rw [if_neg hrest]
        exact hsettle
      · rw [storedLanes_cons, hwin' x]
        exact congrArg (storedLanes rest x) (hwin x)

/-- Byte `i` of an access goes to offset `o + i`, if that is in the window (`44_register_window.md` R290). -/
theorem storedLanes_byte (o : Byte) (v : Word) (i x : Nat) (old : Byte) :
    storedLanes (([i].filter fun i => o.toNat + i < windowSize).map
        fun i => (BitVec.ofNat 8 (o.toNat + i), v.extractLsb' (8 * i) 8)) x old
      = if x = o.toNat + i ∧ x < 256 then storedByte x (v.extractLsb' (8 * i) 8) old else old := by
  rw [List.filter_singleton]
  by_cases hw : o.toNat + i < windowSize
  · have hi : o.toNat + i < 256 := hw
    have hat : (BitVec.ofNat 8 (o.toNat + i)).toNat = o.toNat + i := Nat.mod_eq_of_lt hi
    rw [decide_eq_true hw, cond_true, List.map_singleton, storedLanes_cons, hat]
    by_cases hx : x = o.toNat + i
    · rw [if_pos hx, if_pos ⟨hx, hx ▸ hi⟩, hx]
      rfl
    · rw [if_neg hx, if_neg fun h => hx h.1]
      rfl
  · rw [decide_eq_false hw, cond_false, if_neg]
    · rfl
    · rintro ⟨rfl, hi⟩
      exact hw hi

/-- The first `m` bytes of an access, stored in order, cover the `m` offsets from `o` on that are in the window
(`44_register_window.md` R290). -/
theorem storedLanes_range (o : Byte) (v : Word) (m x : Nat) (old : Byte) :
    storedLanes (((List.range m).filter fun i => o.toNat + i < windowSize).map
        fun i => (BitVec.ofNat 8 (o.toNat + i), v.extractLsb' (8 * i) 8)) x old
      = if o.toNat ≤ x ∧ x < o.toNat + m ∧ x < 256 then storedByte x (v.extractLsb' (8 * (x - o.toNat)) 8) old
        else old := by
  induction m with
  | zero => rw [if_neg (by omega)]; rfl
  | succ m ih =>
    rw [List.range_succ, List.filter_append, List.map_append, storedLanes_append, ih, storedLanes_byte]
    by_cases hx : x = o.toNat + m ∧ x < 256
    · obtain ⟨rfl, hin⟩ := hx
      rw [if_pos ⟨rfl, hin⟩, if_neg (by omega), if_pos ⟨Nat.le_add_right _ _, Nat.lt_succ_self _, hin⟩,
        Nat.add_sub_cancel_left]
    · have hbefore : (x < o.toNat + m ∧ x < 256) ↔ (x < o.toNat + (m + 1) ∧ x < 256) := by omega
      rw [if_neg hx]
      simp only [hbefore]

/-- A whole operation is its first step and what it takes to settle. -/
theorem operate_of_step {s t : State} (h : step s = .next t) : operate s = settle (operationBound t) t := by
  unfold operate
  rw [h]

/-- Settles O21: the access is stored lane by lane, and with no trigger the last lane ends it. -/
theorem registerWriteWindow : Obligations.RegisterWriteWindow := by
  intro s o n v rest hinv hp hin htrig
  have hls : ∀ l ∈ coveredLanes o n v, laneTrigger l.1 = none := by
    simp only [coveredLanes, List.mem_map, List.mem_filter, List.mem_range]
    rintro l ⟨i, ⟨hi, hw⟩, rfl⟩
    exact htrig i hi (of_decide_eq_true hw)
  have hbound : (coveredLanes o n v).length
      ≤ (coveredLanes o n v).length + s.eng.txr.cap.toNat + s.eng.rxr.cap.toNat + 3 := by omega
  obtain ⟨e, hsettle, hinner, hwin⟩ :=
    settle_lanes (coveredLanes_ne_nil o n v) hls hbound { s with inputs := rest }
  refine ⟨e, ?_, hinner, fun x => (hwin x).trans (storedLanes_range o v n.bytes x _)⟩
  rw [operate_of_step (step_input hp hin), hinv.rest hp]
  exact hsettle

end Sys2Proof.Machine
end

section
/-!
Register reads (`44_register_window.md` R291): the bytes of an access, and what each register reads.
-/

namespace Sys2Proof.Machine

/-- A register read shows the window byte at each offset of the access (`44_register_window.md` R290, R291). -/
theorem readWindow_byte (c : Config) (e : Engine) (o : Byte) (n : AccessSize) {i : Nat} (hi : i < 4) :
    (readWindow c e o n).extractLsb' (8 * i) 8 = if i < n.bytes then windowByte c e (o.toNat + i) else 0 :=
  byte_of_append (fun i => if i < n.bytes then windowByte c e (o.toNat + i) else 0) hi

/-- `STATUS` as a number (`10_state.md` R34). -/
theorem toNat_statusWord (e : Engine) :
    (statusWord e).toNat = (match e.txState with | .idle => 0 | .draining => 1 | .stalled => 2)
      + 4 * e.rxNores.toNat + 8 * e.pf.isOpen.toNat + 16 * e.irqLine.toNat := by
  have hcode : (txStateCode e.txState).toNat = match e.txState with | .idle => 0 | .draining => 1 | .stalled => 2 := by
    cases e.txState <;> rfl
  simp only [statusWord, toNat_append_eq, BitVec.toNat_ofBool, hcode]
  simp
  omega

/-- Settles O13: the result is put together from the window bytes, and each register is its field, widened. -/
theorem regReadReturnsWindow : Obligations.RegReadReturnsWindow := by
  intro s o n
  refine ⟨readWindow s.cfg s.eng o n, rfl, fun i hi => ?bytes, fun k => ?words⟩
  case bytes =>
    rw [readWindow_byte s.cfg s.eng o n hi]
    by_cases hn : i < n.bytes
    · by_cases hin : o.toNat + i < 256
      · rw [if_pos hn, if_pos ⟨hn, hin⟩, windowByte_inside _ _ hin]
      · rw [if_pos hn, if_neg fun h => hin h.2, windowByte_beyond _ _ hin]
    · rw [if_neg hn, if_neg fun h => hn h.1]
  case words =>
    unfold regWord
    split
    case h_4 => exact toNat_statusWord s.eng
    case h_25 => simp_all
    all_goals rfl

end Sys2Proof.Machine
end

section
/-!
Lanes with a trigger (`44_register_window.md` R293, R294, R300, R305): what the last lane of an access fires.
-/

namespace Sys2Proof.Machine

/-- Settles O15: an unclaimed lane stores nothing, so the trigger noted before it fires at once. -/
theorem triggerFiresAfterLastLane : Obligations.TriggerFiresAfterLastLane := by
  intro s o v _ hlast
  refine ⟨fun ht => ?command, fun ht => ?rxDoorbell, fun ht => ?irqEval, fun ht => ?txDoorbell⟩
  case command => exact congrArg Host.Outcome.next (endLane_command s hlast ht)
  case rxDoorbell => exact congrArg Host.Outcome.next (endLane_rxDoorbell s hlast ht)
  case irqEval => exact congrArg Host.Outcome.next (endLane_irqEval s hlast ht)
  case txDoorbell =>
    have hown : noteTrigger .txDoorbell s = s := by rw [noteTrigger, ← ht]
    show Host.Outcome.next (endLane s) = .next (endLane (noteTrigger .txDoorbell s))
    rw [hown]

/-- Settles O16: the high byte is stored and the trigger noted before the lane ends. -/
theorem cmdXStoresAndTriggers : Obligations.CmdXStoresAndTriggers := by
  intro s v
  let noted := noteTrigger .command { s with eng.cmd := v ++ s.eng.cmd.extractLsb' 0 8 }
  refine ⟨fun hlast => ?last, fun hmore => ?more⟩
  case last => exact congrArg Host.Outcome.next (endLane_command noted hlast rfl)
  case more => exact congrArg Host.Outcome.next (endLane_more noted hmore)

/-- Settles O20 (the name `rxDoorbell` is the model's operation): the lane stores nothing and notes its trigger, which
fires behind the last lane of the access. -/
theorem rxDoorbellClears : Obligations.RxDoorbell := by
  intro s v
  let noted := noteTrigger .rxDoorbell s
  refine ⟨fun hmore => ?more, fun hlast => ?last⟩
  case more => exact congrArg Host.Outcome.next (endLane_more noted hmore)
  case last => exact congrArg Host.Outcome.next (endLane_rxDoorbell noted hlast rfl)

end Sys2Proof.Machine
end

section
/-!
The commands (`44_register_window.md` R300 to R303, R306, R307): what each leaves, and the write of `CMD` that executes
one.
-/

namespace Sys2Proof.Machine

/-! ## Rings and the no-operation -/

/-- Settles O23. -/
theorem loadTxRing : Obligations.LoadTxRing := fun _ _ => ⟨_, rfl, toNat_wide _ _, rfl, rfl⟩

/-- Settles O24. -/
theorem loadRxRing : Obligations.LoadRxRing := fun _ _ => ⟨_, rfl, toNat_wide _ _, rfl, rfl⟩

/-- Settles O25. -/
theorem reservedCommandIsNop : Obligations.ReservedCommandIsNop := fun _ _ _ => rfl

/-! ## Resets -/

/-- A reset to an engine without a cause: the line drops, with one event if it was asserted (`44_register_window.md`
R306, R307; `60_exceptions.md` R341). -/
theorem resetTo_noCause {e : Engine} (s : State) (hc : e.icause = 0) (hl : e.irqLine = false) :
    resetTo e s = { s with eng := e, op := {},
                           events := s.events ++ if s.eng.irqLine then [.lineChange false] else [] } := by
  have hlevel (x : BitVec 4) : ((0 &&& x) != 0) = false := by simp
  have hline : e.lineWanted = e.irqLine := by rw [Engine.lineWanted, hc, hlevel, hl]
  have hevents : lineEvents { e with irqLine := s.eng.irqLine } e.icause
      = if s.eng.irqLine then [.lineChange false] else [] := by
    rw [lineEvents, hc, hlevel]
    cases s.eng.irqLine <;> rfl
  have hlog : (resetTo e s).events = s.events ++ if s.eng.irqLine then [.lineChange false] else [] := by
    rw [← hevents, resetTo, irqEval_eq]
    rfl
  rw [resetTo_eq, hline, hlog]

/-- Settles O26: the reset engine has no cause. -/
theorem softReset : Obligations.SoftReset :=
  fun s _ => congrArg Host.Outcome.next (resetTo_noCause s rfl rfl)

theorem statusWord_hardReset (c : Config) : statusWord (Engine.hardReset c) = 0 :=
  BitVec.eq_of_toNat_eq (toNat_statusWord _)

/-- The window after a hard reset: parameters, and 0 everywhere else (`10_state.md` R50). -/
theorem windowWords_hardReset (c : Config) :
    windowWords c (Engine.hardReset c)
      = (((List.replicate 64 0).set 0 c.idValue).set 18 c.macResetLo).set 19 (c.macResetHi.setWidth 32) := by
  have hwords : windowWords c (Engine.hardReset c)
      = ((((List.replicate 64 0).set 0 c.idValue).set 3 (statusWord (Engine.hardReset c))).set 18 c.macResetLo).set 19
          (c.macResetHi.setWidth 32) := rfl
  rw [hwords, statusWord_hardReset]
  rfl

/-- A byte of the window after a hard reset, by its word. -/
theorem windowByte_hardReset (c : Config) (x : Nat) :
    windowByte c (Engine.hardReset c) x
      = (if x / 4 = 19 then c.macResetHi.setWidth 32 else if x / 4 = 18 then c.macResetLo
          else if x / 4 = 0 then c.idValue else 0 : Word).extractLsb' (8 * (x % 4)) 8 := by
  rw [windowByte_eq, windowWords_hardReset]
  congr 1
  simp only [List.getD_eq_getElem?_getD, List.getElem?_set, List.length_set, List.length_replicate,
    List.getElem?_replicate]
  grind

/-- Settles O27: the reset engine has no cause, and its window has three words that are not 0. -/
theorem hardReset : Obligations.HardReset := by
  intro s _
  refine ⟨Engine.hardReset s.cfg, congrArg Host.Outcome.next (resetTo_noCause s rfl rfl), rfl, fun h => ?powerOn,
    fun x => ?window⟩
  case powerOn => rw [h]; rfl
  case window =>
    rw [windowByte_hardReset]
    by_cases h19 : x / 4 = 19
    · rw [if_pos h19, byte_setWidth]
      by_cases hx : x % 4 < 2
      · rw [if_pos hx, if_neg (by omega), if_neg (by omega), if_pos (by omega), show x - 0x4C = x % 4 by omega]
      · rw [if_neg hx, if_neg (by omega), if_neg (by omega), if_neg (by omega)]
    rw [if_neg h19]
    by_cases h18 : x / 4 = 18
    · rw [if_pos h18, if_neg (by omega), if_pos (by omega), show x - 0x48 = x % 4 by omega]
    rw [if_neg h18]
    by_cases h0 : x / 4 = 0
    · rw [if_pos h0, if_pos (by omega), show x % 4 = x by omega]
    · rw [if_neg h0, if_neg (by omega), if_neg (by omega), if_neg (by omega), BitVec.ofNat_eq_ofNat,
        BitVec.extractLsb'_zero]
      rfl

/-! ## A write of `CMD` -/

/-- Every command ends its operation (`44_register_window.md` R300). -/
theorem exec_cmd_ends {i : Instr} (hi : i.format = .cmd16) (s : State) : ∃ t, exec i s = .next t ∧ t.op = {} := by
  cases i with
  | softReset | hardReset | loadTxRing | loadRxRing | cmdReserved => exact ⟨_, rfl, rfl⟩
  | _ => cases hi

/-- The two lanes of `CMD`, stored one after the other, bring the command they hold (`44_register_window.md` R292 to
R294). -/
theorem settle_cmdLanes (s : State) (lo hi : Byte) (n : Nat) :
    settle (n + 2) { s with op := { phase := .lanes, lanes := [(0x08, lo), (0x09, hi)] } }
      = settle n { s with eng.cmd := hi ++ lo, op := { phase := .command } } := by
  let stored := { s with eng.cmd := setLane16 s.eng.cmd 0 lo, op := { phase := .lanes, lanes := [(0x09, hi)] } }
  have hstore : step { s with op := { phase := .lanes, lanes := [(0x08, lo), (0x09, hi)] } } = .next stored :=
    step_lane _ 0x08 lo [(0x09, hi)] rfl rfl
  have hlow : (setLane16 s.eng.cmd 0 lo).extractLsb' 0 8 = lo := BitVec.extractLsb'_append_eq_right
  have hbring : step stored = .next { s with eng.cmd := hi ++ lo, op := { phase := .command } } := by
    rw [step_lane stored 0x09 hi [] rfl rfl, ← hlow]
    exact (cmdXStoresAndTriggers { stored with op.lanes := [] } hi).1 rfl
  rw [settle_step _ _ _ (show Phase.lanes ≠ .idle from nofun) hstore,
    settle_step _ stored _ (show Phase.lanes ≠ .idle from nofun) hbring]

/-- Settles O22: two lanes, the second of which brings the command, and the command. -/
theorem commandWriteExecutes : Obligations.CommandWriteExecutes := by
  intro s v rest hinv hp hin
  have hcmd : v.extractLsb' 8 8 ++ v.extractLsb' 0 8 = v.extractLsb' 0 16 :=
    BitVec.extractLsb'_append_extractLsb'_eq_extractLsb' rfl
  rw [← hcmd]
  let brought : State :=
    { s with inputs := rest, eng.cmd := v.extractLsb' 8 8 ++ v.extractLsb' 0 8, op := { phase := .command } }
  obtain ⟨t, hexec, hop⟩ := exec_cmd_ends (decodeCmd_format (v.extractLsb' 8 8) (v.extractLsb' 0 8)) brought
  have hstep : step brought = .next t := by
    rwa [step_command brought rfl, BitVec.extractLsb'_append_eq_right, BitVec.extractLsb'_append_eq_left]
  refine ⟨t, hexec, ?_⟩
  rw [operate_of_step (step_input hp hin)]
  refine (settle_cmdLanes { s with inputs := rest } _ _ _).trans ?_
  rw [settle_step _ brought t (show Phase.command ≠ .idle from nofun) hstep, settle_rest _ t (by rw [hop])]

end Sys2Proof.Machine
end

section
/-!
The interrupt registers (`60_exceptions.md` R343, R344): the lane is stored, and the line is evaluated behind the last
lane of the access.
-/

namespace Sys2Proof.Machine

/-! ## The two registers -/

/-- `ICAUSE.ACK` stores the causes it leaves and notes the evaluation (`60_exceptions.md` R343). -/
theorem exec_icauseAck (l : BitVec 2) (v : Byte) (s : State) :
    exec (.icauseAck l v) s = .next (endLane (noteTrigger .irqEval
      { s with eng.icause := if l = 0 then s.eng.icause &&& ~~~(v.extractLsb' 0 4) else s.eng.icause })) := by
  simp only [exec, execIcauseAck]
  split <;> rfl

/-- `IMASK.W` stores the new mask and notes the evaluation (`60_exceptions.md` R344). -/
theorem exec_imaskW (l : BitVec 2) (v : Byte) (s : State) :
    exec (.imaskW l v) s = .next (endLane (noteTrigger .irqEval
      { s with eng.imask := if l = 0 then v.extractLsb' 0 4 else s.eng.imask })) := by
  simp only [exec, execImaskW]
  split <;> rfl

/-! ## The evaluation behind the last lane -/

/-- A line at its level needs no event (`60_exceptions.md` R341). -/
theorem lineEvents_settled {e : Engine} (h : e.irqLine = e.lineWanted) : lineEvents e e.icause = [] := if_pos h.symm

/-- A line at its level stays there. -/
theorem withCauses_settled {e : Engine} (h : e.irqLine = e.lineWanted) : e.withCauses e.icause = e := by
  show { e with irqLine := e.lineWanted } = e
  rw [← h]

/-- Settles O17: the causes left are stored before the lane ends; with none cleared the line is already at its level. -/
theorem icauseAckClears : Obligations.IcauseAckClears := by
  intro s l v c
  let noted := noteTrigger .irqEval { s with eng.icause := c }
  have hexec : exec (.icauseAck l v) s = .next (endLane noted) := exec_icauseAck l v s
  refine ⟨fun hlast => ?last, fun hmore => ?more, fun hlast hc hline => ?nothingCleared⟩
  case last => exact hexec.trans (congrArg Host.Outcome.next (endLane_irqEval noted hlast rfl))
  case more => exact hexec.trans (congrArg Host.Outcome.next (endLane_more noted hmore))
  case nothingCleared =>
    have hnoted : noted.eng = s.eng := by
      show { s.eng with icause := c } = s.eng
      rw [hc]
    rw [hexec, endLane_irqEval noted hlast rfl, hnoted, withCauses_settled hline, lineEvents_settled hline,
      List.append_nil]
    rfl

/-- Settles O18: the new mask is stored before the lane ends. -/
theorem imaskWReplaces : Obligations.ImaskWReplaces := by
  intro s l v m
  let noted := noteTrigger .irqEval { s with eng.imask := m }
  have hexec : exec (.imaskW l v) s = .next (endLane noted) := exec_imaskW l v s
  refine ⟨fun hlast => ?last, fun hmore => ?more⟩
  case last => exact hexec.trans (congrArg Host.Outcome.next (endLane_irqEval noted hlast rfl))
  case more => exact hexec.trans (congrArg Host.Outcome.next (endLane_more noted hmore))

end Sys2Proof.Machine
end

section
/-!
No condition stops the machine (`60_exceptions.md` R330, `30_encoding.md` R113): every row answers a next state, and so
does every fetch that finds no row.
-/

namespace Sys2Proof.Machine

/-- Every row answers a next state, format by format. -/
theorem exec_answers (i : Instr) (s : State) : ∃ t, exec i s = .next t := by
  match hi : i.format with
  | .txd => obtain ⟨_, _, _, _, _, e⟩ | ⟨_, _, _, _, e⟩ := exec_txd_cases i hi s <;> exact ⟨_, e⟩
  | .rxd =>
    cases i with
    | rxdHost | rxdFree => exact ⟨_, rfl⟩
    | _ => cases hi
  | .cmd16 =>
    obtain ⟨t, e, _⟩ := exec_cmd_ends hi s
    exact ⟨t, e⟩
  | .regw =>
    obtain ⟨_, e, _⟩ := exec_lane_cases i hi s
    exact ⟨_, e⟩
  | .regr =>
    cases i with
    | regR => exact ⟨_, rfl⟩
    | _ => cases hi

/-- Settles O7: in each phase the step runs a row, or ends where the fetch alone leads. -/
theorem stepAlwaysAnswersNext : Obligations.StepAlwaysAnswersNext := by
  intro s
  match hp : s.op.phase with
  | .idle =>
    match hi : s.inputs with
    | [] => exact ⟨s, step_noInput hp hi⟩
    | _ :: _ => exact ⟨_, step_input hp hi⟩
  | .lanes =>
    match hl : s.op.lanes with
    | [] => exact ⟨_, step_noLane hp hl⟩
    | (o, b) :: rest => exact step_lane s o b rest hp hl ▸ exec_answers _ _
  | .command => exact step_command s hp ▸ exec_answers _ _
  | .txRun =>
    obtain e | ⟨_, _, _, e⟩ := step_txRun_cases s hp
    · exact ⟨_, e⟩
    · exact e ▸ exec_answers _ _
  | .rxScan => obtain e | e | ⟨_, e⟩ := step_rxScan_cases s hp <;> exact ⟨_, e⟩

end Sys2Proof.Machine
end
